-- ==== Sys2Proof/Word.lean ====
section
/-! DEFINITION. The word types of the codec core and its fixed sizes (00_scope.md R8, R9, R16, R23). -/

namespace Sys2Proof

/-- One byte of a stream or of a block. -/
abbrev Byte := BitVec 8

/-- A 64-bit count, weight or register (R9, R16). -/
abbrev Word := BitVec 64

/-- A 16-bit node index or node field (R10, R11). -/
abbrev Index := BitVec 16

/-- N_SYM, the number of symbols (R8). -/
abbrev nSym : Nat := 256

/-- N_NODE, the number of tree nodes (R8). -/
abbrev nNode : Nat := 511

/-- ROOT, the index of the root node (R8). -/
abbrev root : Nat := 510

/-- CODE_MAX, the longest code in bits (R12). -/
abbrev codeMax : Nat := 255

/-- W64 = 2^64 (R23). -/
abbrev w64 : Nat := 2 ^ 64

/-- ALLONES64 (R23). -/
abbrev allOnes64 : Word := BitVec.allOnes 64

end Sys2Proof
end

