-- ==== Sys2Proof/Syntax.lean ====
section
/-! DEFINITION. The 24 commands (30_encoding.md R103), one constructor per row of opcode_table.json, and their
listing form (R111). -/

namespace Sys2Proof

/-- The field NRD reads, selected by SUB = 0 .. 4 (43_tree.md R197). -/
inductive NodeField where
  | sym | weight | left | right | parent
  deriving DecidableEq, Repr

/-- A command. An IMM operand is the unsigned value of IMM (R102); an operand outside the command's range is a
legal word that raises E_RANGE (R110), so the operand is not bounded here. -/
inductive Instr where
  /-- no operation (R310) -/
  | nop
  /-- soft reset (R311) -/
  | srst
  /-- clear the error and the sticky flags (R312) -/
  | eclr
  /-- clear the frequency table (R160) -/
  | fclr
  /-- count the byte `b` (R161) -/
  | fadd (b : Nat)
  /-- count the whole source (R162) -/
  | fcnt
  /-- read the count of symbol `s` (R164) -/
  | frd (s : Nat)
  /-- load the count of symbol `s` from ARG (R165) -/
  | fwr (s : Nat)
  /-- read TOTAL (R166) -/
  | trd
  /-- build the tree (R190) -/
  | tbld
  /-- read field `f` of node `n` (R197) -/
  | nrd (f : NodeField) (n : Nat)
  /-- generate the code table (R220) -/
  | cgen
  /-- read the code length of symbol `s` (R224) -/
  | clen (s : Nat)
  /-- read 64-bit word `w` of the code of symbol `s` (R225) -/
  | crd (w : Nat) (s : Nat)
  /-- append the code of symbol `s` to the output stream (R226) -/
  | sput (s : Nat)
  /-- write one bit to the output block (R135) -/
  | bput (bit : Nat)
  /-- read one bit from the input block (R136) -/
  | bget
  /-- send the output block to the sink (R137) -/
  | bflush
  /-- refill the input block from the source (R138) -/
  | bfill
  /-- read the output cursor (R139) -/
  | wcrd
  /-- read the input cursor (R140) -/
  | rcrd
  /-- compress the source (R250) -/
  | encode
  /-- expand the archive on the source (R280) -/
  | decode
  /-- decode one symbol (R290) -/
  | sget
  deriving DecidableEq, Repr

/-- The listing name of a node field (R111). -/
def NodeField.listing : NodeField → String
  | .sym => "sym"
  | .weight => "weight"
  | .left => "left"
  | .right => "right"
  | .parent => "parent"

/-- How a listing writes a command (R111). -/
def Instr.listing : Instr → String
  | .nop => "NOP"
  | .srst => "SRST"
  | .eclr => "ECLR"
  | .fclr => "FCLR"
  | .fadd b => "FADD " ++ toString b
  | .fcnt => "FCNT"
  | .frd s => "FRD " ++ toString s
  | .fwr s => "FWR " ++ toString s
  | .trd => "TRD"
  | .tbld => "TBLD"
  | .nrd f n => "NRD " ++ f.listing ++ ", " ++ toString n
  | .cgen => "CGEN"
  | .clen s => "CLEN " ++ toString s
  | .crd w s => "CRD " ++ toString w ++ ", " ++ toString s
  | .sput s => "SPUT " ++ toString s
  | .bput b => "BPUT " ++ toString b
  | .bget => "BGET"
  | .bflush => "BFLUSH"
  | .bfill => "BFILL"
  | .wcrd => "WCRD"
  | .rcrd => "RCRD"
  | .encode => "ENCODE"
  | .decode => "DECODE"
  | .sget => "SGET"

end Sys2Proof
end

