-- ==== Sys2Proof/WellFormed.lean ====
section
/-! DEFINITION. Which terms of Instr have a command word: IMM is 16 bits wide (30_encoding.md R101) and CRD's SUB
is a code word number 0 .. 3 (R102). -/

namespace Sys2Proof

/-- The value fits the 16-bit field IMM (R101). -/
def immFits (v : Nat) : Bool := decide (v < 2 ^ 16)

/-- The command has a command word (R101, R102). An IMM above the command's range still has one: it is a legal
word that raises E_RANGE (R110). -/
def Instr.wf : Instr → Bool
  | .fadd b => immFits b
  | .frd s => immFits s
  | .fwr s => immFits s
  | .nrd _ n => immFits n
  | .clen s => immFits s
  | .crd w s => decide (w ≤ 3) && immFits s
  | .sput s => immFits s
  | .bput b => immFits b
  | .nop | .srst | .eclr | .fclr | .fcnt | .trd | .tbld | .cgen | .bget | .bflush | .bfill | .wcrd | .rcrd
  | .encode | .decode | .sget => true

end Sys2Proof
end

