-- ==== Sys2Proof/Decode.lean ====
section
/-! DEFINITION. The decoder of a 32-bit command word (30_encoding.md R100 to R110), total, refusing by name, and
the encoder written from the same tables. -/

namespace Sys2Proof

/-- Why a word is an illegal encoding (R106 steps 1 to 4, R109). All four raise E_ILLEGAL. -/
inductive Illegal where
  /-- step 1: the opcode is not in the table -/
  | opcode
  /-- step 2: SUB is not 0 in a command other than NRD and CRD -/
  | reservedSub
  /-- step 3: SUB selects no field of NRD or no word of CRD -/
  | subRange
  /-- step 4: IMM is not 0 in a command that takes none -/
  | reservedImm
  deriving DecidableEq, Repr

/-- OPC, bits 31:24 of the word (R101). -/
def opcOf (w : BitVec 32) : BitVec 8 := w.extractLsb' 24 8

/-- SUB, bits 23:16 of the word (R101). -/
def subOf (w : BitVec 32) : BitVec 8 := w.extractLsb' 16 8

/-- IMM, bits 15:0 of the word (R101). -/
def immOf (w : BitVec 32) : BitVec 16 := w.extractLsb' 0 16

/-- A command with no operand: SUB and IMM are 0 (R106 steps 2 and 4). -/
def plainForm (i : Instr) (sub : BitVec 8) (imm : BitVec 16) : Except Illegal Instr :=
  if sub ≠ 0 then .error .reservedSub
  else if imm ≠ 0 then .error .reservedImm
  else .ok i

/-- A command with an IMM operand: SUB is 0 (R106 step 2), IMM is read unsigned (R102). -/
def immForm (f : Nat → Instr) (sub : BitVec 8) (imm : BitVec 16) : Except Illegal Instr :=
  if sub ≠ 0 then .error .reservedSub else .ok (f imm.toNat)

/-- The node field SUB selects (R197, R106 step 3). -/
def fieldOf (sub : BitVec 8) : Except Illegal NodeField :=
  match sub.toNat with
  | 0 => .ok .sym
  | 1 => .ok .weight
  | 2 => .ok .left
  | 3 => .ok .right
  | 4 => .ok .parent
  | _ => .error .subRange

/-- NRD: SUB selects a field (R106 step 3), IMM the node. -/
def nrdForm (sub : BitVec 8) (imm : BitVec 16) : Except Illegal Instr :=
  match fieldOf sub with
  | .ok f => .ok (.nrd f imm.toNat)
  | .error e => .error e

/-- CRD: SUB selects one of four words (R106 step 3), IMM the symbol. -/
def crdForm (sub : BitVec 8) (imm : BitVec 16) : Except Illegal Instr :=
  if sub.toNat > 3 then .error .subRange else .ok (.crd sub.toNat imm.toNat)

/-- Decoding of the fields of a word, in the opcode order of R103. -/
def decodeFields (opc sub : BitVec 8) (imm : BitVec 16) : Except Illegal Instr :=
  match opc.toNat with
  | 0x00 => plainForm .nop sub imm
  | 0x01 => plainForm .srst sub imm
  | 0x02 => plainForm .eclr sub imm
  | 0x10 => plainForm .fclr sub imm
  | 0x11 => immForm .fadd sub imm
  | 0x12 => plainForm .fcnt sub imm
  | 0x13 => immForm .frd sub imm
  | 0x14 => immForm .fwr sub imm
  | 0x15 => plainForm .trd sub imm
  | 0x20 => plainForm .tbld sub imm
  | 0x21 => nrdForm sub imm
  | 0x30 => plainForm .cgen sub imm
  | 0x31 => immForm .clen sub imm
  | 0x32 => crdForm sub imm
  | 0x33 => immForm .sput sub imm
  | 0x40 => immForm .bput sub imm
  | 0x41 => plainForm .bget sub imm
  | 0x42 => plainForm .bflush sub imm
  | 0x43 => plainForm .bfill sub imm
  | 0x44 => plainForm .wcrd sub imm
  | 0x45 => plainForm .rcrd sub imm
  | 0x50 => plainForm .encode sub imm
  | 0x51 => plainForm .decode sub imm
  | 0x52 => plainForm .sget sub imm
  | _ => .error .opcode

/-- The command a word stands for, or why it is illegal (R106 steps 1 to 4). -/
def decode (w : BitVec 32) : Except Illegal Instr := decodeFields (opcOf w) (subOf w) (immOf w)

/-- The opcode of a command (R103). -/
def opcode : Instr → BitVec 8
  | .nop => 0x00
  | .srst => 0x01
  | .eclr => 0x02
  | .fclr => 0x10
  | .fadd _ => 0x11
  | .fcnt => 0x12
  | .frd _ => 0x13
  | .fwr _ => 0x14
  | .trd => 0x15
  | .tbld => 0x20
  | .nrd _ _ => 0x21
  | .cgen => 0x30
  | .clen _ => 0x31
  | .crd _ _ => 0x32
  | .sput _ => 0x33
  | .bput _ => 0x40
  | .bget => 0x41
  | .bflush => 0x42
  | .bfill => 0x43
  | .wcrd => 0x44
  | .rcrd => 0x45
  | .encode => 0x50
  | .decode => 0x51
  | .sget => 0x52

/-- The SUB value that selects a node field (R197). -/
def fieldSub : NodeField → BitVec 8
  | .sym => 0
  | .weight => 1
  | .left => 2
  | .right => 3
  | .parent => 4

/-- SUB of a command's word (R102). -/
def subField : Instr → BitVec 8
  | .nrd f _ => fieldSub f
  | .crd w _ => BitVec.ofNat 8 w
  | .nop | .srst | .eclr | .fclr | .fadd _ | .fcnt | .frd _ | .fwr _ | .trd | .tbld | .cgen | .clen _ | .sput _
  | .bput _ | .bget | .bflush | .bfill | .wcrd | .rcrd | .encode | .decode | .sget => 0

/-- IMM of a command's word (R102). -/
def immField : Instr → BitVec 16
  | .fadd b => BitVec.ofNat 16 b
  | .frd s => BitVec.ofNat 16 s
  | .fwr s => BitVec.ofNat 16 s
  | .nrd _ n => BitVec.ofNat 16 n
  | .clen s => BitVec.ofNat 16 s
  | .crd _ s => BitVec.ofNat 16 s
  | .sput s => BitVec.ofNat 16 s
  | .bput b => BitVec.ofNat 16 b
  | .nop | .srst | .eclr | .fclr | .fcnt | .trd | .tbld | .cgen | .bget | .bflush | .bfill | .wcrd | .rcrd
  | .encode | .decode | .sget => 0

/-- The command word of a well-formed command (R101, R103). -/
def encode (i : Instr) : BitVec 32 := opcode i ++ subField i ++ immField i

/-- The mask of a command's encoding (R104): the bits every word of the command shares. -/
def maskOf : Instr → BitVec 32
  | .nrd _ _ | .crd _ _ => 0xFF000000
  | .fadd _ | .frd _ | .fwr _ | .clen _ | .sput _ | .bput _ => 0xFFFF0000
  | .nop | .srst | .eclr | .fclr | .fcnt | .trd | .tbld | .cgen | .bget | .bflush | .bfill | .wcrd | .rcrd
  | .encode | .decode | .sget => 0xFFFFFFFF

/-- The match value of a command's encoding, OPC << 24 (R104). -/
def matchOf (i : Instr) : BitVec 32 := (opcode i).setWidth 32 <<< 24

/-- The command my decoder reads from the word whose bits are the low `nbits` bits of `w`. A command word is one
32-bit value whose bit 0 is the table's bit 0, so no byte order enters (R17, R100; log entry 22). -/
def decodeTableWord (nbits w : Nat) : Option Instr :=
  match decode (BitVec.ofNat 32 (w % 2 ^ nbits)) with
  | .ok i => some i
  | .error _ => none

end Sys2Proof
end

