-- ==== Sys2Proof/Config.lean ====
section
/-! DEFINITION. What an implementation fixes (BLOCK_BYTES, MAGIC), and the free values: constants with no body. -/

namespace Sys2Proof

/-- The two synthesis parameters (00_scope.md R13, R14). A claim about every state is a claim about every
configuration, since State carries the configuration and no step changes it. -/
structure Config where
  /-- BLOCK_BYTES, at least 1 (R13). -/
  blockBytes : Nat
  /-- MAGIC, four bytes in stream order (R14). -/
  magic : Vector Byte 4
  deriving DecidableEq, Repr

/-- The defaults of R13 and R14: 262144 bytes and the ASCII bytes of HFMN. -/
def Config.default : Config where
  blockBytes := 262144
  magic := #v[0x48, 0x46, 0x4D, 0x4E]

/-- FREE VALUE. A host read of RES or STATUS while BUSY = 1 returns the value from before the running command
or the one from after it (20_memory.md R95), and the spec does not say which. The argument is the number of such
reads made so far. Log entry 8. -/
opaque Config.readsAfter : Nat → Bool

/-- FREE VALUE. What RES holds when the number a rule writes to it is 2^64 or more, which the spec does not
state. Log entry 13. -/
opaque Config.unfitRes : Nat → Word

end Sys2Proof
end

