-- ==== Sys2Proof/Machine/State.lean ====
section
/-! DEFINITION. Everything the spec gives the machine, as plain data (10_state.md, 20_memory.md), the reasons a
step can stop, and the state after reset (R65, R373). -/

namespace Sys2Proof.Machine

/-- The errors a command can raise (60_exceptions.md R330). -/
inductive Err where
  | illegal | range | seq | buf | wovf | format | hdrTrunc | tree
  deriving DecidableEq, Repr

/-- The fields of STATUS that hold a value (10_state.md R36). BUSY is computed from `State.running`; the reserved
bits are hard-wired 0. `err = none` is ERR = 0. -/
structure Status where
  tree  : Bool
  built : Bool
  codes : Bool
  trunc : Bool
  drop  : Bool
  err   : Option Err
  deriving DecidableEq, Repr

/-- One node of the arena (R50). The signed fields are 16-bit two's complement. -/
structure Node where
  sym    : Index
  weight : Word
  left   : Index
  right  : Index
  parent : Index
  deriving DecidableEq, Repr

/-- A (byte, bit) position in a block (R56, R58). -/
structure Cursor where
  byte : Nat
  bit  : Fin 8
  deriving DecidableEq, Repr

/-- A key of the priority structure (R62): a 64-bit weight and a 16-bit index, copied at insertion. -/
structure Key where
  weight : Word
  index  : Index
  deriving DecidableEq, Repr

/-- The bytes of a block, OBUF or IBUF: (address, byte) pairs, addresses strictly rising, no entry equal to what an
unlisted address reads as. -/
abbrev Memory := List Host.Cell

/-- One access of a command to its ports (20_memory.md R80 to R83). -/
inductive PortEvent where
  | srcRead
  | srcRewind
  | snkWrite (b : Byte)
  deriving DecidableEq, Repr

/-- A command the sink holds: BUSY = 1 (R37, R83, R386). It keeps what resuming the command needs (the command, and
where the ports stood when it was issued) and what RES and STATUS will be after it (R95). -/
structure Running where
  instr       : Instr
  pos         : Nat
  snkLen      : Nat
  resAfter    : Word
  statusAfter : Status
  deriving DecidableEq, Repr

/-- What the host does next (R32, R82, R83, R112, R370). Widths are in bits, offsets in bytes. -/
inductive HostAction where
  /-- a write access to the register window (R32) -/
  | write (off width : Nat) (v : Word)
  /-- a read access to the register window (R32) -/
  | read (off width : Nat)
  /-- attach a source, standing at position `p` (R82) -/
  | attachSource (bytes : List Byte) (p : Nat)
  /-- drain or replace the sink's bytes (R83) -/
  | replaceSink (bytes : List Byte)
  /-- from now on the sink accepts this many more bytes before it stalls; `none`: every byte (R83) -/
  | setRoom (room : Option Nat)
  /-- the WAIT pseudo-operation: go on once BUSY = 0 (R112) -/
  | wait
  /-- assert and release the reset input (R370) -/
  | reset
  /-- write `v` to CMD and assert the reset input once the command has made `k` port accesses (R370) -/
  | commandReset (v : Word) (k : Nat)
  /-- give the sink room, and assert the reset input once a held command has made `k` further port accesses (R370) -/
  | roomReset (room : Option Nat) (k : Nat)
  deriving DecidableEq, Repr

structure State where
  /-- the synthesis parameters, fixed (R13, R14) -/
  cfg     : Config
  /-- ARG (R30, R34) -/
  arg     : Word
  /-- RES (R30, R35) -/
  res     : Word
  /-- STATUS but for BUSY (R36) -/
  status  : Status
  /-- FREQ[0..255] (R48) -/
  freq    : Vector Word 256
  /-- TOTAL (R49) -/
  total   : Word
  /-- NODE[0..510] (R50) -/
  node    : Vector Node 511
  /-- LEN[0..255] (R53) -/
  len     : Vector (BitVec 8) 256
  /-- CODE[0..255]: bit j of an entry is code bit j (R54) -/
  code    : Vector (BitVec 255) 256
  /-- OBUF (R55) -/
  obuf    : Memory
  /-- WCUR (R56) -/
  wcur    : Cursor
  /-- IBUF (R57) -/
  ibuf    : Memory
  /-- IFILL (R57) -/
  ifill   : Nat
  /-- RCUR (R58) -/
  rcur    : Cursor
  /-- PQ, its keys in rising order (R62, R26) -/
  pq      : List Key
  /-- SRC, the bytes of the host's source port (R80) -/
  src     : List Byte
  /-- p, the source position (R63, R80) -/
  pos     : Nat
  /-- SNK, the bytes of the host's sink port, oldest first (R83) -/
  snk     : List Byte
  /-- how many more bytes the sink accepts before it stalls; `none`: every byte (R83, R386) -/
  room    : Option Nat
  /-- the command the sink holds; BUSY = 1 exactly when there is one (R37) -/
  running : Option Running
  /-- the model's own: the port accesses of the last command, oldest first (R94) -/
  trace   : List PortEvent
  /-- the model's own: the host's actions still to come, next first -/
  pending : List HostAction
  /-- the model's own: what the host's reads returned, oldest first -/
  reads   : List Word
  /-- the model's own: how many free choices host reads have taken -/
  draws   : Nat
  deriving DecidableEq, Repr

/-- Why the machine stops with a fault. -/
inductive Fault where
  /-- Raised by CGEN when BUILT = 1 and some leaf's parent links do not reach node 510 within 255 links. Safe: R222
  says that no such tree exists while BUILT = 1, and no state that a run reaches has one. Log entry 12. -/
  | codeWalkUnending
  deriving DecidableEq, Repr

/-- Why a step has no meaning. -/
inductive Refusal where
  /-- Raised by an arm of exec whose instruction has no meaning yet. Safe. No arm raises it. -/
  | notModelled (mnemonic : String)
  /-- Raised by the host action attachSource for a source of 2^64 bytes or more (20_memory.md R82: a model refuses
  it). Safe. -/
  | sourceTooLong
  /-- Raised by attachSource for a position beyond the source's end (R80: 0 <= p <= L). Safe. -/
  | sourcePosition
  /-- Raised by attachSource while BUSY = 1 (R82: the host must not change SRC while a command runs). Safe. -/
  | sourceChangedWhileBusy
  /-- Raised by replaceSink while BUSY = 1 (R83: between commands). Safe. -/
  | sinkReplacedWhileBusy
  deriving DecidableEq, Repr

/-- STATUS after reset: every field 0 (R65). -/
def Status.reset : Status where
  tree := false
  built := false
  codes := false
  trunc := false
  drop := false
  err := none

/-- A node after reset: every field 0 (R65). -/
def Node.zero : Node where
  sym := 0
  weight := 0
  left := 0
  right := 0
  parent := 0

/-- Position (0, 0) (R65). -/
def Cursor.zero : Cursor where
  byte := 0
  bit := 0

/-- The machine right after reset (R65, R373). The host-owned fields are log entry 5, OBUF and IBUF log entry 6,
the model's own fields log entries 3, 4, 8 and 17. -/
def State.reset : State where
  cfg := Config.default
  arg := 0
  res := 0
  status := Status.reset
  freq := Vector.replicate 256 0
  total := 0
  node := Vector.replicate 511 Node.zero
  len := Vector.replicate 256 0
  code := Vector.replicate 256 0
  obuf := []
  wcur := Cursor.zero
  ibuf := []
  ifill := 0
  rcur := Cursor.zero
  pq := []
  src := []
  pos := 0
  snk := []
  room := none
  running := none
  trace := []
  pending := []
  reads := []
  draws := 0

end Sys2Proof.Machine
end

