-- ==== Sys2Proof/Machine/Ops.lean ====
section
/-! DEFINITION. The shared operations: the blocks' bytes, the arrays, the cursors, the stream ports, raising an
error and ending the error state, reset, and how a command ends. -/

namespace Sys2Proof.Machine

/-- What a command or a step answers. -/
abbrev Out := Host.Outcome State Fault Refusal

/-! ### The bytes of a block -/

/-- What a byte of OBUF or IBUF that nothing has written reads as. DESIGN CHOICE: the spec leaves it unspecified and
unobservable (10_state.md R55, R57). Log entry 6. -/
def Memory.unlisted : Byte := 0

/-- MemRead(A, addr, 1) (00_scope.md R20). -/
def Memory.read : Memory → Nat → Byte
  | [], _ => Memory.unlisted
  | (k, v) :: m, a => if a = k then v else Memory.read m a

/-- MemWrite(A, addr, 1, b) (R20), keeping the canonical form. -/
def Memory.write : Memory → Nat → Byte → Memory
  | [], a, b => if b = Memory.unlisted then [] else [(a, b)]
  | (k, v) :: m, a, b =>
    if a < k then (if b = Memory.unlisted then (k, v) :: m else (a, b) :: (k, v) :: m)
    else if a = k then (if b = Memory.unlisted then m else (a, b) :: m)
    else (k, v) :: Memory.write m a b

/-- Canonical form above `lo`: addresses strictly rising from `lo` on, no entry equal to an unlisted byte. -/
def Memory.wfFrom (lo : Nat) : Memory → Bool
  | [] => true
  | (k, v) :: m => decide (lo ≤ k) && decide (v ≠ Memory.unlisted) && Memory.wfFrom (k + 1) m

/-- The canonical form of a block's bytes. -/
def Memory.wf (m : Memory) : Bool := Memory.wfFrom 0 m

/-- `A[a][i] <- b` on one byte (R17, R130). -/
def putBit (v : Byte) (i : Fin 8) (b : Bool) : Byte :=
  if b then v ||| ((1 : Byte) <<< i.val) else v &&& ~~~((1 : Byte) <<< i.val)

/-- The position after one bit, "wrapping to the next byte once 8 bits are consumed" (R130, R132). -/
def Cursor.next (c : Cursor) : Cursor :=
  if c.bit = 7 then ⟨c.byte + 1, 0⟩ else ⟨c.byte, c.bit + 1⟩

/-- byte * 8 + bit (R139, R140). -/
def Cursor.bits (c : Cursor) : Nat := c.byte * 8 + c.bit.val

/-! ### The arrays (20_memory.md R71: every index a command uses is in range) -/

/-- FREQ[i]. -/
def State.freqAt (s : State) (i : Nat) : Word := s.freq[i]?.getD 0

/-- FREQ[i] <- v. -/
def State.setFreq (s : State) (i : Nat) (v : Word) : State := { s with freq := s.freq.setIfInBounds i v }

/-- NODE[n]. An index beyond the arena cannot occur (R283, log entry 16). -/
def State.nodeAt (s : State) (n : Nat) : Node := s.node[n]?.getD Node.zero

/-- Write one node of an arena. -/
def setNode (v : Vector Node 511) (n : Nat) (f : Node → Node) : Vector Node 511 :=
  v.setIfInBounds n (f (v[n]?.getD Node.zero))

/-- NODE[n] <- f NODE[n]. -/
def State.modNode (s : State) (n : Nat) (f : Node → Node) : State := { s with node := setNode s.node n f }

/-- A whole arena, node by node. Irreducible, so that no proof unfolds 511 nodes: its law is nodeOf_arenaOf. -/
@[irreducible] def arenaOf (f : Nat → Node) : Vector Node 511 := Vector.ofFn fun n : Fin 511 => f n.val

/-- A whole table of 256 entries, symbol by symbol. Irreducible like arenaOf: its law is getElem?_symbolTable. -/
@[irreducible] def symbolTable {α : Type} (f : Nat → α) : Vector α 256 := Vector.ofFn fun i : Fin 256 => f i.val

/-- LEN[i]. -/
def State.lenAt (s : State) (i : Nat) : BitVec 8 := s.len[i]?.getD 0

/-- CODE[i]. -/
def State.codeAt (s : State) (i : Nat) : BitVec 255 := s.code[i]?.getD 0

/-! ### RES -/

/-- The value of RES for a number a rule writes to it: zext_64 where it fits, a free value where it does not
(log entry 13). -/
def resOfNat (n : Nat) : Word := if n < w64 then BitVec.ofNat 64 n else Config.unfitRes n

/-! ### The stream ports (20_memory.md R80 to R83) -/

/-- SrcRead(): the next source byte, or `none` for EOF, which does not advance (R80). -/
def State.srcRead (s : State) : Option Byte × State :=
  match s.src[s.pos]? with
  | some b => (some b, { s with pos := s.pos + 1, trace := s.trace ++ [.srcRead] })
  | none => (none, { s with trace := s.trace ++ [.srcRead] })

/-- SrcRewind() (R81). -/
def State.srcRewind (s : State) : State := { s with pos := 0, trace := s.trace ++ [.srcRewind] }

/-- SnkWrite(b) (R83). -/
def State.snkWrite (s : State) (b : Byte) : State :=
  { s with snk := s.snk ++ [b], trace := s.trace ++ [.snkWrite b] }

/-- SnkWrite of several bytes, in order. -/
def State.snkWrites (s : State) (bs : List Byte) : State := bs.foldl State.snkWrite s

/-! ### Errors (60_exceptions.md R333, R337) -/

/-- `raise E`: the first error is kept, RES and everything already written stay (00_scope.md R22, R333). No other
register records an error (R332). -/
def State.raise (s : State) (e : Err) : State :=
  { s with status := { s.status with err := s.status.err.or (some e) } }

/-- The return from the error state: ERR, TRUNC and DROP are cleared, nothing is restored (R312, R337). -/
def State.clearError (s : State) : State :=
  { s with status := { s.status with err := none, trunc := false, drop := false } }

/-- Part of a command: it goes on with a value, or it raised an error and ends. -/
inductive Flow (α : Type) where
  | ok (a : α) (s : State)
  | raised (e : Err) (s : State)

/-- Go on where the part before went on. -/
def Flow.bind {α β : Type} (x : Flow α) (f : α → State → Flow β) : Flow β :=
  match x with
  | .ok a s => f a s
  | .raised e s => .raised e s

/-- The end of a command that writes RES: `RES <- v`, or the error it raised (R333, R335). -/
def Flow.close (x : Flow Word) : State :=
  match x with
  | .ok v s => { s with res := v }
  | .raised e s => s.raise e

/-- The end of a command that writes no RES. -/
def Flow.closeUnit (x : Flow Unit) : State :=
  match x with
  | .ok _ s => s
  | .raised e s => s.raise e

/-! ### Reset (10_state.md R65) -/

/-- Every piece of core state at its reset value. The parameters stay (they are no state), and so does what the
host owns (R65: the source position and the sink contents are not reset by the core) and what is the model's own. -/
def State.resetCore (s : State) : State :=
  { State.reset with
    cfg := s.cfg, src := s.src, pos := s.pos, snk := s.snk, room := s.room,
    trace := s.trace, pending := s.pending, reads := s.reads, draws := s.draws }

/-! ### A sink that stalls (20_memory.md R83, 70_reset_and_hazards.md R386) -/

/-- The port accesses made before the sink would have to accept one byte more than `r`. -/
def untilFull : Nat → List PortEvent → List PortEvent
  | _, [] => []
  | 0, .snkWrite _ :: _ => []
  | r + 1, .snkWrite b :: es => .snkWrite b :: untilFull r es
  | r, .srcRead :: es => .srcRead :: untilFull r es
  | r, .srcRewind :: es => .srcRewind :: untilFull r es

/-- What some port accesses do to the source position and the sink. -/
def State.replay (s : State) : List PortEvent → State
  | [] => s
  | .srcRead :: es => State.replay { s with pos := if s.pos < s.src.length then s.pos + 1 else s.pos } es
  | .srcRewind :: es => State.replay { s with pos := 0 } es
  | .snkWrite b :: es => State.replay { s with snk := s.snk ++ [b], room := s.room.map (· - 1) } es

/-- The command `i`, issued in `s`, would end in `s'`, but the sink accepts no further byte: the ports stand where
the stall caught them, the host sees RES and STATUS as R95 says, and BUSY = 1. Log entry 7. -/
def State.stall (i : Instr) (s s' : State) : State :=
  let made := untilFull (s.room.getD 0) (s'.trace.drop s.trace.length)
  { s.replay made with
    trace := s.trace ++ made
    running := some
      { instr := i, pos := s.pos, snkLen := s.snk.length, resAfter := s'.res, statusAfter := s'.status } }

/-- The end of a command `i` that writes the sink, issued in `s`, whose effects are `s'`: it completes if the sink
accepts every byte (R84), and is held if it does not (R386). -/
def State.settle (i : Instr) (s s' : State) : State :=
  match s.room with
  | none => s'
  | some r =>
    let n := s'.snk.length - s.snk.length
    if n ≤ r then { s' with room := some (r - n) } else State.stall i s s'

end Sys2Proof.Machine
end

