-- ==== Sys2Proof/Machine/Flags.lean ====
section
/-! DEFINITION. The flags: the codes of STATUS.ERR (60_exceptions.md R330), the STATUS word (10_state.md R36), and
what commands do to TREE, BUILT, CODES and TRUNC. -/

namespace Sys2Proof.Machine

/-- The code of an error (R330). -/
def Err.code : Err → BitVec 8
  | .illegal => 0x01
  | .range => 0x02
  | .seq => 0x03
  | .buf => 0x04
  | .wovf => 0x05
  | .format => 0x10
  | .hdrTrunc => 0x11
  | .tree => 0x12

/-- ERR, bits 15:8 of STATUS: 0 or the code of the first error (R47). -/
def errField : Option Err → BitVec 8
  | none => 0x00
  | some e => e.code

/-- The STATUS word (R36): reserved bits 63:16 and 7:6 are hard-wired 0. -/
def statusWord (busy : Bool) (st : Status) : Word :=
  (0 : BitVec 48) ++ errField st.err ++ (0 : BitVec 2) ++ BitVec.ofBool st.drop ++ BitVec.ofBool st.trunc
    ++ BitVec.ofBool st.codes ++ BitVec.ofBool st.built ++ BitVec.ofBool st.tree ++ BitVec.ofBool busy

/-- STATUS.BUSY (R37): a command is held. -/
def State.busy (s : State) : Bool := s.running.isSome

/-- STATUS.TREE <- 0; STATUS.BUILT <- 0; STATUS.CODES <- 0 (R190, R250, R282). -/
def State.clearTables (s : State) : State :=
  { s with status := { s.status with tree := false, built := false, codes := false } }

/-- STATUS.TREE <- 1; STATUS.BUILT <- 1 (R190). -/
def State.markBuilt (s : State) : State :=
  { s with status := { s.status with tree := true, built := true } }

/-- STATUS.TREE <- 1 (R283). -/
def State.markTree (s : State) : State := { s with status := { s.status with tree := true } }

/-- STATUS.CODES <- 1 (R220). -/
def State.markCodes (s : State) : State := { s with status := { s.status with codes := true } }

/-- STATUS.TRUNC <- 1 (R286, R292). -/
def State.markTrunc (s : State) : State := { s with status := { s.status with trunc := true } }

/-- STATUS.DROP <- 1 (R46). -/
def State.markDrop (s : State) : State := { s with status := { s.status with drop := true } }

end Sys2Proof.Machine
end

