-- ==== Sys2Proof/Machine/Control.lean ====
section
/-! DEFINITION. The control commands (47_control.md). -/

namespace Sys2Proof.Machine

/-- NOP (R310): nothing changes. -/
def execNop (s : State) : Out := .next s

/-- SRST (R311): every piece of core state at its reset value. -/
def execSrst (s : State) : Out := .next s.resetCore

/-- ECLR (R312): ERR, TRUNC and DROP are cleared. -/
def execEclr (s : State) : Out := .next s.clearError

end Sys2Proof.Machine
end

