-- ==== Sys2Proof/Machine/Operands.lean ====
section
/-! DEFINITION. The operand forms: the range check of IMM (30_encoding.md R106 step 5, R107) and the sequence check
of a flag (R106 step 6, R108). -/

namespace Sys2Proof.Machine

/-- The largest symbol, byte value or frequency index (R107). -/
def maxSymbol : Nat := 255

/-- The largest node index (R107). -/
def maxNode : Nat := 510

/-- The largest bit operand (R107). -/
def maxBit : Nat := 1

/-- The largest word number of a code (R106 step 3). -/
def maxWord : Nat := 3

/-- Range check (R107): E_RANGE if IMM exceeds the command's limit, before anything else is done (R334). -/
def inRange (limit imm : Nat) (s : State) (go : Out) : Out :=
  if imm > limit then .next (s.raise .range) else go

/-- SUB check of CRD (R106 step 3). The decoder refuses such a word, so a run never meets it here. -/
def inWords (w : Nat) (s : State) (go : Out) : Out :=
  if w > maxWord then .next (s.raise .illegal) else go

/-- Sequence check (R108): E_SEQ if the flag the command needs is 0. -/
def needs (flag : Bool) (s : State) (go : Out) : Out :=
  if flag then go else .next (s.raise .seq)

end Sys2Proof.Machine
end

