-- ==== Sys2Proof/Machine/Bitstream.lean ====
section
/-! DEFINITION. The bit-stream primitives and their six commands (41_bitstream.md). -/

namespace Sys2Proof.Machine

/-- WriteBit(b) (R130). Every caller has checked WCUR.byte < BLOCK_BYTES. -/
def State.writeBit (s : State) (b : Bool) : State :=
  let cleared := if s.wcur.bit = 0 then s.obuf.write s.wcur.byte 0x00 else s.obuf
  { s with
    obuf := cleared.write s.wcur.byte (putBit (cleared.read s.wcur.byte) s.wcur.bit b)
    wcur := s.wcur.next }

/-- How many bytes of OBUF hold a written bit (R131). -/
def State.written (s : State) : Nat := s.wcur.byte + (if s.wcur.bit ≠ 0 then 1 else 0)

/-- Flush() (R131): the number of bytes sent. -/
def State.flush (s : State) : Nat × State :=
  let n := s.written
  (n, { s.snkWrites ((List.range n).map s.obuf.read) with wcur := Cursor.zero })

/-- ReadBit() (R132). Every caller has checked RCUR.byte < IFILL. -/
def State.readBit (s : State) : Bool × State :=
  ((s.ibuf.read s.rcur.byte).getLsbD s.rcur.bit.val, { s with rcur := s.rcur.next })

/-- The loop of Refill (R133): up to `k` more bytes, the next going to IBUF[n]. -/
def refillLoop : Nat → Nat → State → Nat × State
  | 0, n, s => (n, s)
  | k + 1, n, s =>
    match s.srcRead with
    | (none, s) => (n, s)
    | (some c, s) => refillLoop k (n + 1) { s with ibuf := s.ibuf.write n c }

/-- Refill() (R133): the number of bytes read. -/
def State.refill (s : State) : Nat × State :=
  let r := refillLoop s.cfg.blockBytes 0 s
  (r.1, { r.2 with ifill := r.1, rcur := Cursor.zero })

/-- Flush() if the block is full. -/
def State.flushIfFull (s : State) : State := if s.wcur.byte = s.cfg.blockBytes then s.flush.2 else s

/-- EmitBit(b) (R134). -/
def State.emitBit (s : State) (b : Bool) : State := (s.flushIfFull.writeBit b).flushIfFull

/-- NextBit() (R141): `none` is EOF. -/
def State.nextBit (s : State) : Option Bool × State :=
  if s.rcur.byte = s.ifill then
    let r := s.refill
    if r.1 = 0 then (none, r.2) else (some r.2.readBit.1, r.2.readBit.2)
  else (some s.readBit.1, s.readBit.2)

/-- BPUT after its range check (R135). -/
def State.bput (s : State) (bit : Nat) : Flow Unit :=
  if s.wcur.byte = s.cfg.blockBytes then .raised .buf s else .ok () (s.writeBit (decide (bit = 1)))

/-- BPUT (R135). -/
def execBput (bit : Nat) (s : State) : Out := inRange maxBit bit s (.next (s.bput bit).closeUnit)

/-- BGET's own check and effect (R136). -/
def State.bget (s : State) : Flow Word :=
  if s.rcur.byte = s.ifill then .raised .buf s else .ok ((BitVec.ofBool s.readBit.1).setWidth 64) s.readBit.2

/-- BGET (R136). -/
def execBget (s : State) : Out := .next s.bget.close

/-- BFLUSH (R137): RES is the number of bytes sent. -/
def execBflush (s : State) : Out :=
  .next (s.settle .bflush { s.flush.2 with res := resOfNat s.flush.1 })

/-- BFILL (R138): RES is the number of bytes read. -/
def execBfill (s : State) : Out := .next { s.refill.2 with res := resOfNat s.refill.1 }

/-- WCRD (R139). -/
def execWcrd (s : State) : Out := .next { s with res := resOfNat s.wcur.bits }

/-- RCRD (R140). -/
def execRcrd (s : State) : Out := .next { s with res := resOfNat s.rcur.bits }

end Sys2Proof.Machine
end

