-- ==== Sys2Proof/Machine/Decoder.lean ====
section
/-! DEFINITION. The archive decoder: DECODE and SGET (46_decoder.md). -/

namespace Sys2Proof.Machine

/-- CheckMagic() (R281): the bytes still to be matched. -/
def checkMagic : List Byte → State → Flow Unit
  | [], s => .ok () s
  | m :: ms, s =>
    match s.srcRead with
    | (none, s) => .raised .format s
    | (some c, s) => if c = m then checkMagic ms s else .raised .format s

/-- The arena LoadTree starts from (R282). -/
def State.arenaReset (s : State) : State :=
  { s with
    node := arenaOf fun n => { sym := BitVec.ofNat 16 n, weight := 0, left := 0, right := 0, parent := 0 } }

/-- A source byte of the header, E_HDR_TRUNC at its end (R283, R284). -/
def State.headByte (s : State) : Flow Byte :=
  match s.srcRead with
  | (none, s) => .raised .hdrTrunc s
  | (some c, s) => .ok c s

/-- The length field (R283): `k` bytes to read, the next one going to bits 8j+7 : 8j of `len`. -/
def readLen : Nat → Nat → Word → State → Flow Word
  | 0, _, len, s => .ok len s
  | k + 1, j, len, s => s.headByte.bind fun c s => readLen k (j + 1) (len ||| (c.setWidth 64 <<< (8 * j))) s

/-- ReadLE16s (R284): the 16-bit two's-complement pattern. -/
def State.readLE16 (s : State) : Flow Index :=
  s.headByte.bind fun c0 s => s.headByte.bind fun c1 s => .ok (c1 ++ c0) s

/-- The child index is 0 .. 510 as a signed number (R283). -/
def childOk (v : Index) : Bool := decide (0 ≤ v.toInt) && decide (v.toInt ≤ 510)

/-- One entry of the tree table, for node `i` (R283): both indices are read, then checked, then written. -/
def State.loadEntry (s : State) (i : Nat) : Flow Unit :=
  s.readLE16.bind fun l s => s.readLE16.bind fun r s =>
    if childOk l && childOk r then .ok () (s.modNode i fun d => { d with left := l, right := r })
    else .raised .tree s

/-- The entries of some nodes, in order (R283). -/
def loadEntries : List Nat → State → Flow Unit
  | [], s => .ok () s
  | i :: is, s => (s.loadEntry i).bind fun _ s => loadEntries is s

/-- LoadTree() (R282, R283). -/
def State.loadTree (s : State) : Flow Unit :=
  (readLen 8 0 0 s.clearTables.arenaReset).bind fun len s =>
  (loadEntries ((List.range 255).map (256 + ·)) s).bind fun _ s =>
    .ok () { s with total := len }.markTree

/-- The child a payload bit selects: left on 0, right on 1 (R285). -/
def State.child (s : State) (n : Nat) (b : Bool) : Nat :=
  if b then (s.nodeAt n).right.toNat else (s.nodeAt n).left.toNat

/-- DecodePayload's loop (R285, R286), at most `k` rounds: `count` bytes are out, and the walk stands at node `n`. -/
def payloadLoop (len : Nat) : Nat → Nat → Nat → State → Nat × State
  | 0, count, _, s => (count, s)
  | k + 1, count, n, s =>
    if count < len then
      match s.nextBit with
      | (none, s) => (count, s.markTrunc)
      | (some b, s) =>
        if s.child n b < nSym then payloadLoop len k (count + 1) root (s.snkWrite (BitVec.ofNat 8 (s.child n b)))
        else payloadLoop len k count (s.child n b) s
    else (count, s)

/-- Enough rounds for a walk over every bit still to come: each round consumes one bit or ends (R285, R386). -/
def State.rounds (s : State) : Nat := 8 * (s.ifill + s.src.length) + 1

/-- DECODE (R280): RES is the number of bytes decoded. -/
def State.decode (s : State) : Flow Word :=
  let s := { s.srcRewind with ifill := 0, rcur := Cursor.zero }
  (checkMagic s.cfg.magic.toList s).bind fun _ s =>
  s.loadTree.bind fun _ s =>
    let r := payloadLoop s.total.toNat s.rounds 0 root s
    .ok (resOfNat r.1) r.2

/-- DECODE (R280). -/
def execDecode (s : State) : Out := .next (s.settle .decode s.decode.close)

/-- SGET's loop (R290, R292), at most `k` rounds, the walk standing at node `n`: the value for RES. -/
def symbolLoop : Nat → Nat → State → Word × State
  | 0, _, s => (s.res, s)
  | k + 1, n, s =>
    match s.nextBit with
    | (none, s) => (allOnes64, s.markTrunc)
    | (some b, s) =>
      if s.child n b < nSym then (BitVec.ofNat 64 (s.child n b), s) else symbolLoop k (s.child n b) s

/-- SGET (R290). -/
def execSget (s : State) : Out :=
  needs s.status.tree s
    (.next { (symbolLoop s.rounds root s).2 with res := (symbolLoop s.rounds root s).1 })

end Sys2Proof.Machine
end

