-- ==== Sys2Proof/Machine/Codes.lean ====
section
/-! DEFINITION. The code table generator: CGEN, CLEN, CRD and SPUT (44_codes.md). -/

namespace Sys2Proof.Machine

/-- The walk of CodeWalk (R221) from node `n`, at most `k` parent links: the path from the root down to where the walk
began (`below` is the part already walked), or `none` if the root is not reached. Adding each step in front of the
steps below it reverses the leaf-first path. -/
def pathUp (node : Vector Node 511) : Nat → Nat → List Bool → Option (List Bool)
  | 0, n, below => if n = root then some below else none
  | k + 1, n, below =>
    if n = root then some below
    else
      let p := (node[n]?.getD Node.zero).parent.toNat
      let bit := !decide ((node[p]?.getD Node.zero).left.toNat = n)
      pathUp node k p (bit :: below)

/-- The code of symbol `s`, root-first; 255 links reach the root whenever BUILT = 1 (R222). -/
def codePath (node : Vector Node 511) (s : Nat) : Option (List Bool) := pathUp node codeMax s []

/-- A code as CODE holds it (R54): bit j is the j-th bit, and the bits above the length are 0. -/
def codeBits : List Bool → BitVec 255
  | [] => 0
  | b :: bs => (codeBits bs <<< 1) ||| (BitVec.ofBool b).setWidth 255

/-- Every symbol's walk ends (R222). -/
def walksEnd (node : Vector Node 511) : Bool := (List.range nSym).all fun s => (codePath node s).isSome

/-- CodeWalk(s) for every s: LEN and CODE (R220, R221). -/
def State.codeWalks (s : State) : State :=
  { s with
    len := symbolTable fun i => BitVec.ofNat 8 ((codePath s.node i).getD []).length
    code := symbolTable fun i => codeBits ((codePath s.node i).getD []) }

/-- max over s of LEN[s] (R220). -/
def State.maxLen (s : State) : Nat := (List.range nSym).foldl (fun m i => max m (s.lenAt i).toNat) 0

/-- CGEN (R220). The walk that would not end is refused in states that no run reaches (log entry 12). -/
def execCgen (s : State) : Out :=
  needs s.status.built s
    (if walksEnd s.node then
      let t := s.codeWalks.markCodes
      .next { t with res := BitVec.ofNat 64 t.maxLen }
    else .fault .codeWalkUnending)

/-- CLEN (R224). -/
def execClen (sym : Nat) (s : State) : Out :=
  inRange maxSymbol sym s (.next { s with res := (s.lenAt sym).setWidth 64 })

/-- Word `w` of a code (R225): RES bit k is code bit 64w + k, and there is no code bit 255. -/
def codeWord (c : BitVec 255) (w : Nat) : Word := (c >>> (64 * w)).setWidth 64

/-- CRD (R225). -/
def execCrd (w sym : Nat) (s : State) : Out :=
  inWords w s (inRange maxSymbol sym s (.next { s with res := codeWord (s.codeAt sym) w }))

/-- The code of symbol `i` as a list, root-first: CODE[i][0 .. LEN[i]-1] (R54). -/
def State.codeOf (s : State) (i : Nat) : List Bool :=
  (List.range (s.lenAt i).toNat).map fun j => (s.codeAt i).getLsbD j

/-- EmitCode(i) (R227). -/
def State.emitCode (s : State) (i : Nat) : State := (s.codeOf i).foldl State.emitBit s

/-- SPUT (R226): RES is the code's length. -/
def execSput (sym : Nat) (s : State) : Out :=
  inRange maxSymbol sym s
    (needs s.status.codes s
      (.next (s.settle (.sput sym) { s.emitCode sym with res := (s.lenAt sym).setWidth 64 })))

end Sys2Proof.Machine
end

