-- ==== Sys2Proof/Machine/Frequency.lean ====
section
/-! DEFINITION. The frequency table and its six commands (42_frequency.md). -/

namespace Sys2Proof.Machine

/-- FreqClear() (R167). -/
def State.freqClear (s : State) : State := { s with freq := Vector.replicate 256 0, total := 0 }

/-- Tally(b) (R168). -/
def State.tally (s : State) (b : Nat) : Flow Unit :=
  if s.freqAt b = allOnes64 ∨ s.total = allOnes64 then .raised .wovf s
  else .ok () { s.setFreq b (s.freqAt b + 1) with total := s.total + 1 }

/-- The counting loop of FCNT (R162), at most `k` reads. -/
def countLoop : Nat → State → Flow Unit
  | 0, s => .ok () s
  | k + 1, s =>
    match s.srcRead with
    | (none, s) => .ok () s
    | (some c, s) => (s.tally c.toNat).bind fun _ s => countLoop k s

/-- The frequency pass of FCNT and ENCODE (R162, R251): L + 1 reads reach the end of the source (R386). -/
def State.freqPass (s : State) : Flow Unit :=
  let s := s.srcRewind.freqClear
  (countLoop (s.src.length + 1) s).bind fun _ s => .ok () s.srcRewind

/-- FCLR (R160). -/
def execFclr (s : State) : Out := .next s.freqClear

/-- FADD (R161). -/
def execFadd (b : Nat) (s : State) : Out := inRange maxSymbol b s (.next (s.tally b).closeUnit)

/-- FCNT (R162, R163): RES is TOTAL. -/
def execFcnt (s : State) : Out := .next (s.freqPass.bind fun _ s => .ok s.total s).close

/-- FRD (R164). -/
def execFrd (sym : Nat) (s : State) : Out := inRange maxSymbol sym s (.next { s with res := s.freqAt sym })

/-- FWR (R165). -/
def execFwr (sym : Nat) (s : State) : Out := inRange maxSymbol sym s (.next (s.setFreq sym s.arg))

/-- TRD (R166). -/
def execTrd (s : State) : Out := .next { s with res := s.total }

end Sys2Proof.Machine
end

