-- ==== Sys2Proof/Machine/Tree.lean ====
section
/-! DEFINITION. The Huffman tree builder: TBLD and NRD (43_tree.md). -/

namespace Sys2Proof.Machine

/-- The total order on keys (00_scope.md R26): weight, then index. -/
def Key.before (a b : Key) : Bool := decide (a.weight < b.weight) || (decide (a.weight = b.weight) && decide (a.index < b.index))

/-- Insert a key into the priority structure, which is kept in rising order (R192, R199; log entry 14). -/
def pqInsert (k : Key) : List Key → List Key
  | [] => [k]
  | x :: xs => if k.before x then k :: x :: xs else x :: pqInsert k xs

/-- TreeInit() (R191). -/
def State.treeInit (s : State) : State :=
  { s with
    node := arenaOf fun n =>
      { sym := BitVec.ofNat 16 n, weight := if n < nSym then s.freqAt n else 0, left := 0, right := 0, parent := 0 } }

/-- Insert the keys (weight i, i) of some indices (R192). -/
def seedKeys (weight : Nat → Word) : List Nat → List Key → List Key
  | [], q => q
  | i :: is, q => seedKeys weight is (pqInsert ⟨weight i, BitVec.ofNat 16 i⟩ q)

/-- The 256 keys (weight i, i), in rising order (R192). Irreducible, so that no proof unfolds 256 insertions. -/
@[irreducible] def initialKeys (weight : Nat → Word) : List Key := seedKeys weight (List.range nSym) []

/-- PQ <- the 256 keys (FREQ[i], i) (R192). -/
def State.pqSeed (s : State) : State := { s with pq := initialKeys s.freqAt }

/-- The arena after MergeStep's writes for node `i`, whose children are the two extracted keys (R193). -/
def mergeNodes (node : Vector Node 511) (i : Nat) (first second : Key) : Vector Node 511 :=
  setNode
    (setNode
      (setNode node i fun d =>
        { d with weight := first.weight + second.weight, left := first.index, right := second.index })
      first.index.toNat fun d => { d with parent := BitVec.ofNat 16 i })
    second.index.toNat fun d => { d with parent := BitVec.ofNat 16 i }

/-- The writes of MergeStep for node `i` with the two extracted keys, `q` being what is left of PQ (R193). -/
def State.merge (s : State) (i : Nat) (first second : Key) (q : List Key) : State :=
  { s with
    node := mergeNodes s.node i first second
    pq := pqInsert ⟨first.weight + second.weight, BitVec.ofNat 16 i⟩ q }

/-- MergeStep(k) (R193): the head of PQ is its least key. PQ holds at least two keys before each of the 255 steps
(R195), so the last case never arises. -/
def State.mergeStep (s : State) (k : Nat) : Flow Unit :=
  match s.pq with
  | first :: second :: q =>
    if first.weight.toNat + second.weight.toNat ≥ w64 then .raised .wovf s
    else .ok () (s.merge (256 + k) first second q)
  | _ => .ok () s

/-- MergeStep for each of some step numbers, in order (R190). -/
def mergeSteps : List Nat → State → Flow Unit
  | [], s => .ok () s
  | k :: ks, s => (s.mergeStep k).bind fun _ s => mergeSteps ks s

/-- The 255 merge steps (R190). Irreducible, so that no proof unfolds them one by one. -/
@[irreducible] def mergeAll (s : State) : Flow Unit := mergeSteps (List.range 255) s

/-- TreeFinish() (R194): PQ is emptied and the root is its own parent. -/
def State.treeFinish (s : State) : State :=
  { s.modNode root fun d => { d with parent := BitVec.ofNat 16 root } with pq := [] }

/-- TBLD but for RES, and the first part of step 2 of ENCODE (R190, R252). On E_WOVF, PQ is discarded (R193). -/
def State.treeBuild (s : State) : Flow Unit :=
  match mergeAll s.clearTables.treeInit.pqSeed with
  | .ok _ s => .ok () s.treeFinish.markBuilt
  | .raised e s => .raised e { s with pq := [] }

/-- TBLD (R190): RES is the root's weight. -/
def execTbld (s : State) : Out := .next (s.treeBuild.bind fun _ s => .ok (s.nodeAt root).weight s).close

/-- A field of a node as NRD returns it (R197): the signed fields are sign-extended. -/
def Node.field (d : Node) : NodeField → Word
  | .sym => d.sym.setWidth 64
  | .weight => d.weight
  | .left => d.left.signExtend 64
  | .right => d.right.signExtend 64
  | .parent => d.parent.signExtend 64

/-- NRD (R197). -/
def execNrd (f : NodeField) (n : Nat) (s : State) : Out :=
  inRange maxNode n s (.next { s with res := (s.nodeAt n).field f })

end Sys2Proof.Machine
end

