-- ==== Sys2Proof/Machine/Encoder.lean ====
section
/-! DEFINITION. The archive encoder: ENCODE (45_encoder.md). -/

namespace Sys2Proof.Machine

/-- LE16(v) (00_scope.md R23). -/
def le16 (v : Index) : List Byte := [v.extractLsb' 0 8, v.extractLsb' 8 8]

/-- LE64(v) (R23). -/
def le64 (v : Word) : List Byte := (List.range 8).map fun k => v.extractLsb' (8 * k) 8

/-- The tree table (R90, R253): LE16(left) and LE16(right) of nodes 256 .. 510. -/
def tableBytes (node : Vector Node 511) : List Byte :=
  (List.range 255).flatMap fun k =>
    le16 (node[256 + k]?.getD Node.zero).left ++ le16 (node[256 + k]?.getD Node.zero).right

/-- The 1032 bytes of header and tree table (R90, R253). -/
def State.headBytes (s : State) : List Byte := s.cfg.magic.toList ++ le64 s.total ++ tableBytes s.node

/-- The payload loop (R250 step 5, R254), at most `k` reads. -/
def emitLoop : Nat → State → State
  | 0, s => s
  | k + 1, s =>
    match s.srcRead with
    | (none, s) => s
    | (some c, s) => emitLoop k (s.emitCode c.toNat)

/-- Steps 3 to 5 of ENCODE (R250, R253, R254, R258). -/
def State.writeArchive (s : State) : State :=
  let s := s.snkWrites s.headBytes
  let s := { s with wcur := Cursor.zero }
  (emitLoop (s.src.length + 1) s).flush.2

/-- ENCODE (R250): RES is the number of bytes written to the sink. -/
def State.encode (s : State) : Flow Word :=
  s.freqPass.bind fun _ t =>
  t.treeBuild.bind fun _ t =>
    let t := t.codeWalks.markCodes.writeArchive
    .ok (resOfNat (t.snk.length - s.snk.length)) t

/-- ENCODE (R250). -/
def execEncode (s : State) : Out := .next (s.settle .encode s.encode.close)

end Sys2Proof.Machine
end

