-- ==== Sys2Proof/Machine/Dispatch.lean ====
section
/-! DEFINITION. The meaning of each command, one arm per constructor of Instr: R106 steps 5 to 7. -/

namespace Sys2Proof.Machine

def exec (i : Instr) (s : State) : Host.Outcome State Fault Refusal :=
  match i with
  | .nop => Sys2Proof.Machine.execNop s
  | .srst => Sys2Proof.Machine.execSrst s
  | .eclr => Sys2Proof.Machine.execEclr s
  | .fclr => Sys2Proof.Machine.execFclr s
  | .fadd b => Sys2Proof.Machine.execFadd b s
  | .fcnt => Sys2Proof.Machine.execFcnt s
  | .frd sym => Sys2Proof.Machine.execFrd sym s
  | .fwr sym => Sys2Proof.Machine.execFwr sym s
  | .trd => Sys2Proof.Machine.execTrd s
  | .tbld => Sys2Proof.Machine.execTbld s
  | .nrd f n => Sys2Proof.Machine.execNrd f n s
  | .cgen => Sys2Proof.Machine.execCgen s
  | .clen sym => Sys2Proof.Machine.execClen sym s
  | .crd w sym => Sys2Proof.Machine.execCrd w sym s
  | .sput sym => Sys2Proof.Machine.execSput sym s
  | .bput bit => Sys2Proof.Machine.execBput bit s
  | .bget => Sys2Proof.Machine.execBget s
  | .bflush => Sys2Proof.Machine.execBflush s
  | .bfill => Sys2Proof.Machine.execBfill s
  | .wcrd => Sys2Proof.Machine.execWcrd s
  | .rcrd => Sys2Proof.Machine.execRcrd s
  | .encode => Sys2Proof.Machine.execEncode s
  | .decode => Sys2Proof.Machine.execDecode s
  | .sget => Sys2Proof.Machine.execSget s

end Sys2Proof.Machine
end

