-- ==== Sys2Proof/Machine/HostPort.lean ====
section
/-! DEFINITION. The host side of the machine: the register window (10_state.md R32 to R36), issuing a command word
(30_encoding.md R105, R106), attaching the ports (20_memory.md R82, R83), and the reset input
(70_reset_and_hazards.md R370). -/

namespace Sys2Proof.Machine

/-- The three words that execute while ERR is not 0: exactly NOP, SRST and ECLR (R105). -/
def runsInError (w : BitVec 32) : Bool := w = 0x00000000 || w = 0x01000000 || w = 0x02000000

/-- Issue a command word (R105, R106). An ignored word changes nothing. -/
def issue (w : BitVec 32) (s : State) : Out :=
  if s.status.err.isSome && !runsInError w then .next s
  else
    match Sys2Proof.decode w with
    | .error _ => .next ({ s with trace := [] }.raise .illegal)
    | .ok i => exec i { s with trace := [] }

/-- A host write to CMD (R33): bits 63:32 are ignored, and it is dropped while BUSY = 1. -/
def cmdWrite (v : Word) (s : State) : Out := if s.busy then .next s.markDrop else issue (v.setWidth 32) s

/-- A host write to ARG (R34). -/
def argWrite (v : Word) (s : State) : State := if s.busy then s.markDrop else { s with arg := v }

/-- A host write access (R32): only 64-bit accesses at CMD and ARG do anything. -/
def hostWrite (off width : Nat) (v : Word) (s : State) : Out :=
  if width ≠ 64 then .next s
  else
    match off with
    | 0x00 => cmdWrite v s
    | 0x08 => .next (argWrite v s)
    | _ => .next s

/-- What a read of RES returns (R35). While BUSY = 1 it is the value from before or after the running command, and
which is free (R95; log entry 8). -/
def resRead (s : State) : Word :=
  match s.running with
  | none => s.res
  | some r => if Config.readsAfter s.draws then r.resAfter else s.res

/-- What a read of STATUS returns (R36). While BUSY = 1, BUSY reads 1 (R37), DROP is current (R46), and the other
fields are those from before or after the running command (R95; log entry 8). -/
def statusRead (s : State) : Word :=
  match s.running with
  | none => statusWord false s.status
  | some r =>
    let st := if Config.readsAfter s.draws then r.statusAfter else s.status
    statusWord true { st with drop := s.status.drop }

/-- What a host read access returns (R32): 0 for CMD and for every unmapped access. -/
def readValue (off width : Nat) (s : State) : Word :=
  if width ≠ 64 then 0
  else
    match off with
    | 0x08 => s.arg
    | 0x10 => resRead s
    | 0x18 => statusRead s
    | _ => 0

/-- A host read access: it changes nothing of the core (R89). The value is kept in `reads`, the model's record. -/
def hostRead (off width : Nat) (s : State) : State :=
  { s with reads := s.reads ++ [readValue off width s], draws := if s.busy then s.draws + 1 else s.draws }

/-- Attach a source between commands (R82), within the host's duties. -/
def attachSource (bytes : List Byte) (p : Nat) (s : State) : Out :=
  if s.busy then .refused .sourceChangedWhileBusy
  else if bytes.length ≥ w64 then .refused .sourceTooLong
  else if p > bytes.length then .refused .sourcePosition
  else .next { s with src := bytes, pos := p }

/-- Drain or replace the sink between commands (R83). -/
def replaceSink (bytes : List Byte) (s : State) : Out :=
  if s.busy then .refused .sinkReplacedWhileBusy else .next { s with snk := bytes }

/-- The state a held command was issued in, with the sink now accepting `room` more bytes than it has taken. -/
def unstalled (r : Running) (room : Option Nat) (s : State) : State :=
  { s with
    running := none, pos := r.pos, snk := s.snk.take r.snkLen, trace := []
    room := room.map (· + (s.snk.length - r.snkLen)) }

/-- The sink accepts `room` more bytes from now on (R83). A held command goes on: since its source has not changed
(R82), it does what it does from where it was issued with a sink of that room (log entry 7). -/
def setRoom (room : Option Nat) (s : State) : Out :=
  match s.running with
  | none => .next { s with room := room }
  | some r => exec r.instr (unstalled r room s)

/-- The reset input (R370): a running command is aborted, the source position and the sink stay where they are. -/
def resetInput (s : State) : State := { s.resetCore with trace := [] }

/-- The reset input asserted inside a command's run from `s`, which would answer `o`, once it has made `k` more port
accesses than in `s` (R370): those stay made, no further one is, and everything else is reset. Log entry 9. -/
def abortAfter (k : Nat) (s : State) (o : Out) : Out :=
  match o with
  | .next t => .next (resetInput (s.replay ((t.trace.drop s.trace.length).take k)))
  | .fault r => .fault r
  | .refused r => .refused r

/-- A CMD write whose command the reset input aborts after `k` of its port accesses (R370). A write that is dropped (R33)
or ignored (R105) makes none, and a held command is then aborted where it stalled. Log entries 9 and 26. -/
def commandReset (v : Word) (k : Nat) (s : State) : Out :=
  abortAfter k { s with trace := [] } (cmdWrite v { s with trace := [] })

/-- Giving the sink room, where the reset input aborts the held command that goes on after `k` further port accesses
(R370). With no command held there are none. Log entry 26. -/
def roomReset (room : Option Nat) (k : Nat) (s : State) : Out :=
  abortAfter k { s with room := room } (setRoom room s)

/-- WAIT (R112): the next action waits until BUSY = 0. -/
def hostWait (s : State) : State := if s.busy then { s with pending := .wait :: s.pending } else s

/-- One action of the host, already taken off `pending`. -/
def hostAct (a : HostAction) (s : State) : Out :=
  match a with
  | .write off width v => hostWrite off width v s
  | .read off width => .next (hostRead off width s)
  | .attachSource bytes p => attachSource bytes p s
  | .replaceSink bytes => replaceSink bytes s
  | .setRoom room => setRoom room s
  | .wait => .next (hostWait s)
  | .reset => .next (resetInput s)
  | .commandReset v k => commandReset v k s
  | .roomReset room k => roomReset room k s

/-- The host action that issues a command word (R33). -/
def cmdAction (w : BitVec 32) : HostAction := .write 0x00 64 (w.setWidth 64)

/-- `ARG <- v` (R112). -/
def argAction (v : Word) : HostAction := .write 0x08 64 v

/-- `FSET s, v` (R112): ARG <- v, then FWR s. -/
def fsetActions (sym : Nat) (v : Word) : List HostAction :=
  [argAction v, cmdAction (Sys2Proof.encode (.fwr sym))]

/-- `READ RES` (R112). -/
def readRes : HostAction := .read 0x10 64

/-- `READ STATUS` (R112). -/
def readStatus : HostAction := .read 0x18 64

/-- `SRC <- bytes` (R112): attached at position 0. -/
def srcAction (bytes : List Byte) : HostAction := .attachSource bytes 0

/-- `SNK <- ()` (R112). -/
def snkAction : HostAction := .replaceSink []

/-- The machine's answer to the host's next action; with none to come it is idle and holds all its state (R344,
R372), and a held command stays held (R386). -/
def hostStep (s : State) : Out :=
  match s.pending with
  | [] => .next s
  | a :: rest => hostAct a { s with pending := rest }

end Sys2Proof.Machine
end

