-- ==== Sys2Proof/Machine/Step.lean ====
section
/-! DEFINITION. One step of the machine: the host's next action, the whole of a command included (00_scope.md R27;
log entries 1 and 3). -/

namespace Sys2Proof.Machine

/-- One step. -/
def step (s : State) : Host.Outcome State Fault Refusal := hostStep s

/-- `s` with the command word whose bits are the low `nbits` bits of `w` as the host's very next CMD write: the
machine fetches nothing (10_state.md R31), so this is where its next command comes from. Log entry 3. -/
def State.withFetchWord (s : State) (nbits w : Nat) : State :=
  { s with pending := cmdAction (BitVec.ofNat 32 (w % 2 ^ nbits)) :: s.pending }

end Sys2Proof.Machine
end

