-- ==== Sys2Proof/Safety.lean ====
section
/-! DEFINITION. The terms claims use: the invariants of the machine (10_state.md R54 to R58, R66, R67; 43_tree.md R200),
what a safe run is, and the bit streams, packings and archive fields that rules speak of. -/

namespace Sys2Proof.Machine

/-! ### Bits and bytes of a stream -/

/-- The bits of a byte, least significant first (20_memory.md R86). -/
def byteBits (b : Byte) : List Bool := (List.range 8).map b.getLsbD

/-- The bits of some bytes in stream order (R86). -/
def bytesBits (bs : List Byte) : List Bool := bs.flatMap byteBits

/-- The bytes that hold some bits: bit j is bit (j mod 8) of byte (j div 8), and the last byte is padded with zero
bits (R86, R91). -/
def packBits (bits : List Bool) : List Byte :=
  (List.range ((bits.length + 7) / 8)).map fun k =>
    BitVec.ofFnLE fun j : Fin 8 => bits[8 * k + j.val]?.getD false

/-- The bits written to OBUF and not yet sent (41_bitstream.md R130, R131). -/
def State.outBits (s : State) : List Bool :=
  (List.range s.wcur.bits).map fun j => (s.obuf.read (j / 8)).getLsbD (j % 8)

/-- The bits of IBUF not yet read (R132). -/
def State.blockBits (s : State) : List Bool :=
  (List.range (8 * s.ifill - s.rcur.bits)).map fun j =>
    (s.ibuf.read ((s.rcur.bits + j) / 8)).getLsbD ((s.rcur.bits + j) % 8)

/-- The bits NextBit has still to return: those of IBUF, then those of the source (R141). -/
def State.inBits (s : State) : List Bool := s.blockBits ++ bytesBits (s.src.drop s.pos)

/-- ReadBit `k` times (R142). -/
def readBits : Nat → State → List Bool
  | 0, _ => []
  | k + 1, s => s.readBit.1 :: readBits k s.readBit.2

/-- NextBit `k` times (R142). -/
def nextBits : Nat → State → List (Option Bool)
  | 0, _ => []
  | k + 1, s => s.nextBit.1 :: nextBits k s.nextBit.2

/-- The bytes written to the sink since `s` become the source, at its start (R142, R287). -/
def sinkAsSource (s t : State) : State := { t with src := t.snk.drop s.snk.length, pos := 0 }

/-- The bytes some port accesses send. -/
def sentBytes : List PortEvent → List Byte
  | [] => []
  | .snkWrite b :: es => b :: sentBytes es
  | .srcRead :: es => sentBytes es
  | .srcRewind :: es => sentBytes es

/-- Where some port accesses leave the position of a source of `len` bytes, from position `p` on (20_memory.md R80,
R81). -/
def posAfter (len : Nat) : Nat → List PortEvent → Nat
  | p, [] => p
  | p, .srcRead :: es => posAfter len (if p < len then p + 1 else p) es
  | _, .srcRewind :: es => posAfter len 0 es
  | p, .snkWrite _ :: es => posAfter len p es

/-! ### Trees -/

/-- Node n of an arena. -/
def nodeOf (node : Vector Node 511) (n : Nat) : Node := node[n]?.getD Node.zero

/-- The child a bit selects (46_decoder.md R285): left on 0, right on 1. -/
def childOf (node : Vector Node 511) (n : Nat) (b : Bool) : Nat :=
  if b then (nodeOf node n).right.toNat else (nodeOf node n).left.toNat

/-- Where some bits lead from node `n` (44_codes.md R223). -/
def descend (node : Vector Node 511) : Nat → List Bool → Nat
  | n, [] => n
  | n, b :: bs => descend node (childOf node n b) bs

/-- The bits lead from node `n` to the leaf `leaf`, and meet no leaf before it. -/
def reachesLeaf (node : Vector Node 511) (leaf : Nat) : Nat → List Bool → Prop
  | _, [] => False
  | n, b :: bs =>
    (childOf node n b < nSym ∧ bs = [] ∧ childOf node n b = leaf) ∨
    (¬ childOf node n b < nSym ∧ reachesLeaf node leaf (childOf node n b) bs)

/-- The bytes a decoder writes from node `n` on, `k` of them at most (R285). -/
def decodeBits (node : Vector Node 511) : Nat → Nat → List Bool → List Byte
  | _, _, [] => []
  | n, k, b :: bs =>
    if k = 0 then []
    else if childOf node n b < nSym then
      BitVec.ofNat 8 (childOf node n b) :: decodeBits node root (k - 1) bs
    else decodeBits node (childOf node n b) k bs

/-- The shape TBLD leaves (10_state.md R66, 43_tree.md R200): children lie below their parent, every node but 510 is the
child of its parent, which is an internal node, and of no other; the root is its own parent. -/
structure TreeShape (node : Vector Node 511) : Prop where
  rootParent : (nodeOf node root).parent.toNat = root
  leftBelow : ∀ n, nSym ≤ n → n ≤ root → (nodeOf node n).left.toNat < n
  rightBelow : ∀ n, nSym ≤ n → n ≤ root → (nodeOf node n).right.toNat < n
  childrenDiffer : ∀ n, nSym ≤ n → n ≤ root → (nodeOf node n).left ≠ (nodeOf node n).right
  leftParent : ∀ n, nSym ≤ n → n ≤ root → (nodeOf node (nodeOf node n).left.toNat).parent.toNat = n
  rightParent : ∀ n, nSym ≤ n → n ≤ root → (nodeOf node (nodeOf node n).right.toNat).parent.toNat = n
  isChild : ∀ n, n < root →
    nSym ≤ (nodeOf node n).parent.toNat ∧ (nodeOf node n).parent.toNat ≤ root ∧
    ((nodeOf node (nodeOf node n).parent.toNat).left.toNat = n ∨
     (nodeOf node (nodeOf node n).parent.toNat).right.toNat = n)

/-- Every internal node's weight is the exact sum of its children's weights (R66, 90_conflicts.md C7). -/
def WeightsAdd (node : Vector Node 511) : Prop :=
  ∀ n, nSym ≤ n → n ≤ root →
    (nodeOf node n).weight.toNat =
      (nodeOf node (nodeOf node n).left.toNat).weight.toNat + (nodeOf node (nodeOf node n).right.toNat).weight.toNat

/-- Every sym is its own index, and every internal node's children lie in the arena (R67). -/
def ArenaOk (node : Vector Node 511) : Prop :=
  (∀ n, n ≤ root → (nodeOf node n).sym.toNat = n) ∧
  ∀ n, nSym ≤ n → n ≤ root → (nodeOf node n).left.toNat ≤ root ∧ (nodeOf node n).right.toNat ≤ root

/-- The sum of the 256 counts. -/
def State.freqSum (s : State) : Nat := ((List.range nSym).map fun i => (s.freqAt i).toNat).sum

/-! ### The invariants -/

/-- The blocks and their cursors (R55 to R58): the cursors lie in their ranges, the bytes are canonical and lie in the
block, and the bits of a begun byte above the cursor are 0 (41_bitstream.md R130). -/
structure BufInv (s : State) : Prop where
  block : 1 ≤ s.cfg.blockBytes
  wcurByte : s.wcur.byte ≤ s.cfg.blockBytes
  wcurBit : s.wcur.byte = s.cfg.blockBytes → s.wcur.bit = 0
  ifillMax : s.ifill ≤ s.cfg.blockBytes
  rcurByte : s.rcur.byte ≤ s.ifill
  rcurBit : s.rcur.byte = s.ifill → s.rcur.bit = 0
  obufWf : s.obuf.wf = true
  obufIn : ∀ c ∈ s.obuf, c.1 < s.cfg.blockBytes
  ibufWf : s.ibuf.wf = true
  ibufIn : ∀ c ∈ s.ibuf, c.1 < s.cfg.blockBytes
  begun : s.wcur.bit ≠ 0 → ∀ j, s.wcur.bit.val ≤ j → (s.obuf.read s.wcur.byte).getLsbD j = false

/-- The source port (20_memory.md R80, R82). -/
structure PortInv (s : State) : Prop where
  srcLen : s.src.length < w64
  posIn : s.pos ≤ s.src.length

/-- The flags TREE, BUILT and CODES say what the tables hold (R36, R38 to R40, R54, R66, R67), and PQ is empty between
commands (R62). -/
structure TableInv (s : State) : Prop where
  treeOk : s.status.tree = true → ArenaOk s.node
  builtTree : s.status.built = true → s.status.tree = true
  builtShape : s.status.built = true → TreeShape s.node ∧ WeightsAdd s.node
  codesBuilt : s.status.codes = true → s.status.built = true
  codesOk : s.status.codes = true → ∀ i, i < nSym → codePath s.node i = some (s.codeOf i)
  codeTail : ∀ i, i < nSym → ∀ j, (s.lenAt i).toNat ≤ j → (s.codeAt i).getLsbD j = false
  pqEmpty : s.pq = []

/-- The commands that write the sink, the only ones it can hold. -/
def writesSink : Instr → Bool
  | .bflush | .sput _ | .encode | .decode => true
  | .nop | .srst | .eclr | .fclr | .fadd _ | .fcnt | .frd _ | .fwr _ | .trd | .tbld | .nrd _ _ | .cgen | .clen _
  | .crd _ _ | .bput _ | .bget | .bfill | .wcrd | .rcrd | .sget => false

/-- A held command: it writes the sink, the sink accepts nothing more, and the ports it was issued with can be told. -/
def RunInv (s : State) : Prop :=
  ∀ r, s.running = some r →
    writesSink r.instr = true ∧ s.room = some 0 ∧ r.pos ≤ s.src.length ∧ r.snkLen ≤ s.snk.length

/-- The command `i`, issued in `s`, would end in `u` if its sink accepted every byte, and is held in `h` (20_memory.md R83,
70_reset_and_hazards.md R386): its port accesses before the first byte that the sink does not accept are made, BUSY = 1, and the core stands as before the command but
for DROP, which a write since then may have set. The rest of `h` is the host's and the model's own. -/
structure Held (i : Instr) (s u h : State) : Prop where
  running : ∃ drop, h.running = some
    { instr := i, pos := s.pos, snkLen := s.snk.length, resAfter := u.res, statusAfter := { u.status with drop := drop } }
  room : h.room = some 0
  unsent : h.snk.length < u.snk.length
  sent : h.snk = u.snk.take h.snk.length
  before : s.snk <+: h.snk
  accesses : ∃ es b rest, u.trace = s.trace ++ es ++ .snkWrite b :: rest ∧ h.trace = s.trace ++ es ∧
    h.pos = posAfter s.src.length s.pos es ∧ h.snk = s.snk ++ sentBytes es
  frame : h = { s with
    status := { s.status with drop := h.status.drop }, pos := h.pos, snk := h.snk, room := h.room, running := h.running
    trace := h.trace, pending := h.pending, reads := h.reads, draws := h.draws }

/-- The invariant of the machine. -/
structure Inv (s : State) : Prop where
  buf : BufInv s
  port : PortInv s
  table : TableInv s
  run : RunInv s

/-! ### Safe runs -/

/-- The step does not fault: it answers a next state, or refuses a host that breaks a duty. -/
def SafeStep (s : State) : Prop := ∀ f, step s ≠ .fault f

/-- Some steps from `s` meet no fault. -/
def SafeRun : Nat → State → Prop
  | 0, _ => True
  | k + 1, s => SafeStep s ∧ ∀ t, step s = .next t → SafeRun k t

/-! ### Archives (20_memory.md R90) -/

/-- Byte `k` of an archive, 0 beyond its end. -/
def archiveByte (a : List Byte) (k : Nat) : Byte := a[k]?.getD 0

/-- LE16 at an offset. -/
def archiveIndex (a : List Byte) (off : Nat) : Index := archiveByte a (off + 1) ++ archiveByte a off

/-- The length field, LE64 at offset 4. -/
def archiveLength (a : List Byte) : Nat :=
  ((List.range 8).map fun k => (archiveByte a (4 + k)).toNat * 2 ^ (8 * k)).sum

/-- The two indices of tree-table entry `k` are 0 .. 510 as signed numbers (46_decoder.md R283). -/
def entryOk (a : List Byte) (k : Nat) : Prop :=
  0 ≤ (archiveIndex a (12 + 4 * k)).toInt ∧ (archiveIndex a (12 + 4 * k)).toInt ≤ 510 ∧
  0 ≤ (archiveIndex a (14 + 4 * k)).toInt ∧ (archiveIndex a (14 + 4 * k)).toInt ≤ 510

/-- The archive begins with MAGIC (R281). -/
def hasMagic (magic : Vector Byte 4) (a : List Byte) : Prop := a.take 4 = magic.toList

/-- Header and tree table are whole and in range. -/
def headOk (magic : Vector Byte 4) (a : List Byte) : Prop :=
  hasMagic magic a ∧ 1032 ≤ a.length ∧ ∀ k, k < 255 → entryOk a k

/-- The arena an archive's tree table gives (R282, R283). -/
def archiveArena (a : List Byte) : Vector Node 511 :=
  arenaOf fun n =>
    { sym := BitVec.ofNat 16 n, weight := 0
      left := if n < nSym then 0 else archiveIndex a (12 + 4 * (n - 256))
      right := if n < nSym then 0 else archiveIndex a (14 + 4 * (n - 256))
      parent := 0 }

/-- The archive ENCODE writes for a source, given the tree and the codes it built (R90, R91). -/
def archiveOf (magic : Vector Byte 4) (src : List Byte) (t : State) : List Byte :=
  magic.toList ++ le64 (BitVec.ofNat 64 src.length) ++ tableBytes t.node ++
    packBits (src.flatMap fun c => t.codeOf c.toNat)

end Sys2Proof.Machine
end

