-- ==== Sys2Proof/Certificates/Slice0/Obligations.lean ====
section
/-! DEFINITION. The statements for the provers. -/

open Sys2Proof Sys2Proof.Machine

/-! ### Encoding -/

/-- 30_encoding.md R101 to R104: no bit of an encoding is dropped. -/
def Obligations.DecodeEncodeRoundTrip : Prop :=
  ∀ i : Instr, i.wf = true → Sys2Proof.decode (Sys2Proof.encode i) = .ok i

/-- 30_encoding.md: a word that decodes is the word of the command it decodes to, so each legal word has one meaning
and each command one word. -/
def Obligations.LegalWordsHaveOneMeaning : Prop :=
  ∀ (w : BitVec 32) (i : Instr), Sys2Proof.decode w = .ok i → i.wf = true ∧ Sys2Proof.encode i = w

/-- R109: the illegal words are exactly these, and each raises E_ILLEGAL. -/
def Obligations.IllegalEncodings : Prop :=
  ∀ w : BitVec 32,
    ((∃ e, Sys2Proof.decode w = .error e) ↔
      ((opcOf w).toNat ∈ List.range' 0x03 13 ++ List.range' 0x16 10 ++ List.range' 0x22 14 ++ List.range' 0x34 12 ++
          List.range' 0x46 10 ++ List.range' 0x53 173) ∨
      (opcOf w ≠ 0x21 ∧ opcOf w ≠ 0x32 ∧ subOf w ≠ 0) ∨
      (opcOf w = 0x21 ∧ 5 ≤ (subOf w).toNat) ∨
      (opcOf w = 0x32 ∧ 4 ≤ (subOf w).toNat) ∨
      (opcOf w ∉ ([0x11, 0x13, 0x14, 0x21, 0x31, 0x32, 0x33, 0x40] : List (BitVec 8)) ∧ immOf w ≠ 0)) ∧
    ∀ (s : State) (e : Illegal), Sys2Proof.decode w = .error e → s.status.err = none →
      issue w s = .next { s with trace := [], status := { s.status with err := some .illegal } }

/-- Words the spec writes out (30_encoding.md section 5, 41 to 47, section 2 of each). -/
def Obligations.SpecWordsDecode : Prop :=
  Sys2Proof.decode 0x210101FE = .ok (.nrd .weight 510) ∧ Sys2Proof.decode 0x32000061 = .ok (.crd 0 0x61) ∧
  Sys2Proof.decode 0x40000001 = .ok (.bput 1) ∧ Sys2Proof.decode 0x11000061 = .ok (.fadd 0x61) ∧
  Sys2Proof.decode 0x50000000 = .ok .encode ∧ Sys2Proof.decode 0x51000000 = .ok .decode ∧
  Sys2Proof.decode 0x01000000 = .ok .srst ∧ Sys2Proof.decode 0x20000000 = .ok .tbld

/-! ### The host port -/

/-- A step runs the decoded command: whatever else the host has planned stays planned, and the record of port accesses
starts empty (model's own fields, log entries 3 and 17). -/
def Obligations.StepRunsDecodedCommand : Prop :=
  ∀ (s : State) (v : Word) (rest : List HostAction) (i : Instr),
    s.pending = .write 0x00 64 v :: rest → s.busy = false →
    (s.status.err = none ∨ runsInError (v.setWidth 32) = true) →
    Sys2Proof.decode (v.setWidth 32) = .ok i →
    step s = exec i { s with pending := rest, trace := [] }

/-- R33: CMD. -/
def Obligations.CmdRegister : Prop :=
  (∀ (s : State) (v : Word) (rest : List HostAction), s.pending = .write 0x00 64 v :: rest →
    (s.busy = false → step s = issue (v.setWidth 32) { s with pending := rest }) ∧
    (s.busy = true → step s = .next { s with pending := rest, status := { s.status with drop := true } })) ∧
  ∀ s : State, readValue 0x00 64 s = 0

/-- 30_encoding.md section 3: an illegal word raises E_ILLEGAL and does nothing else. -/
def Obligations.IllegalWordsRaise : Prop :=
  ∀ (s : State) (v : Word) (rest : List HostAction) (e : Illegal),
    s.pending = .write 0x00 64 v :: rest → s.busy = false → s.status.err = none →
    Sys2Proof.decode (v.setWidth 32) = .error e →
    step s = .next { s with pending := rest, trace := [], status := { s.status with err := some .illegal } }

/-- R105: while ERR is not 0, every word but NOP, SRST and ECLR is ignored, and those three execute. -/
def Obligations.ErrorBlocksCommands : Prop :=
  ∀ (s : State) (v : Word) (rest : List HostAction),
    s.pending = .write 0x00 64 v :: rest → s.busy = false → s.status.err ≠ none →
    (v.setWidth 32 ≠ (0x00000000 : BitVec 32) → v.setWidth 32 ≠ (0x01000000 : BitVec 32) →
      v.setWidth 32 ≠ (0x02000000 : BitVec 32) → step s = .next { s with pending := rest }) ∧
    (v.setWidth 32 = (0x00000000 : BitVec 32) → step s = exec .nop { s with pending := rest, trace := [] }) ∧
    (v.setWidth 32 = (0x01000000 : BitVec 32) → step s = exec .srst { s with pending := rest, trace := [] }) ∧
    (v.setWidth 32 = (0x02000000 : BitVec 32) → step s = exec .eclr { s with pending := rest, trace := [] })

/-- R34: ARG, all 64 bits. -/
def Obligations.ArgRegister : Prop :=
  (∀ (s : State) (v : Word) (rest : List HostAction), s.pending = .write 0x08 64 v :: rest →
    (s.busy = false → step s = .next { s with pending := rest, arg := v }) ∧
    (s.busy = true → step s = .next { s with pending := rest, status := { s.status with drop := true } })) ∧
  ∀ s : State, readValue 0x08 64 s = s.arg

/-- 10_state.md section 2: the register window. Writes to RES, STATUS and every unmapped access are ignored; reads
return the registers, 0 elsewhere, and change nothing of the core. -/
def Obligations.RegisterWindow : Prop :=
  (∀ (s : State) (off width : Nat) (v : Word) (rest : List HostAction),
    s.pending = .write off width v :: rest → (width ≠ 64 ∨ (off ≠ 0x00 ∧ off ≠ 0x08)) →
    step s = .next { s with pending := rest }) ∧
  (∀ (s : State) (off width : Nat) (rest : List HostAction),
    s.pending = .read off width :: rest → s.busy = false →
    step s = .next { s with pending := rest, reads := s.reads ++ [readValue off width s] }) ∧
  (∀ s : State, s.busy = false →
    readValue 0x00 64 s = 0 ∧ readValue 0x08 64 s = s.arg ∧ readValue 0x10 64 s = s.res ∧
    readValue 0x18 64 s = statusWord false s.status) ∧
  ∀ (s : State) (off width : Nat),
    (width ≠ 64 ∨ (off ≠ 0x00 ∧ off ≠ 0x08 ∧ off ≠ 0x10 ∧ off ≠ 0x18)) → readValue off width s = 0

/-- 10_state.md section 2 and 60_exceptions.md section 1: the places of the fields of STATUS. -/
def Obligations.StatusLayout : Prop :=
  ∀ (busy : Bool) (st : Status),
    (statusWord busy st).getLsbD 0 = busy ∧ (statusWord busy st).getLsbD 1 = st.tree ∧
    (statusWord busy st).getLsbD 2 = st.built ∧ (statusWord busy st).getLsbD 3 = st.codes ∧
    (statusWord busy st).getLsbD 4 = st.trunc ∧ (statusWord busy st).getLsbD 5 = st.drop ∧
    (statusWord busy st).getLsbD 6 = false ∧ (statusWord busy st).getLsbD 7 = false ∧
    (statusWord busy st).extractLsb' 8 8 = errField st.err ∧
    (∀ i, 16 ≤ i → (statusWord busy st).getLsbD i = false) ∧
    errField none = 0x00 ∧ errField (some .illegal) = 0x01 ∧ errField (some .range) = 0x02 ∧
    errField (some .seq) = 0x03 ∧ errField (some .buf) = 0x04 ∧ errField (some .wovf) = 0x05 ∧
    errField (some .format) = 0x10 ∧ errField (some .hdrTrunc) = 0x11 ∧ errField (some .tree) = 0x12

/-- Section 2 of 20_memory.md: between commands the host may attach any source of fewer than 2^64 bytes at any position of
it, replace the sink, and choose how many bytes the sink accepts; while a command runs the model refuses the first two, and
it refuses a position beyond the source's end (log entry 18). 30_encoding.md section 5, 60_exceptions.md section 3
and 70_reset_and_hazards.md section 1: between commands WAIT is over at once (as a host action that then
leaves `pending`: log entries 3 and 23), and a machine the host leaves alone keeps all its state. -/
def Obligations.PortAttachment : Prop :=
  (∀ (s : State) (bytes : List Byte) (p : Nat) (rest : List HostAction),
    s.pending = .attachSource bytes p :: rest →
    (s.busy = true → step s = .refused .sourceChangedWhileBusy) ∧
    (s.busy = false → w64 ≤ bytes.length → step s = .refused .sourceTooLong) ∧
    (s.busy = false → bytes.length < w64 → bytes.length < p → step s = .refused .sourcePosition) ∧
    (s.busy = false → bytes.length < w64 → p ≤ bytes.length →
      step s = .next { s with pending := rest, src := bytes, pos := p })) ∧
  (∀ (s : State) (bytes : List Byte) (rest : List HostAction), s.pending = .replaceSink bytes :: rest →
    (s.busy = true → step s = .refused .sinkReplacedWhileBusy) ∧
    (s.busy = false → step s = .next { s with pending := rest, snk := bytes })) ∧
  ∀ s : State, s.busy = false →
    (s.pending = [] → step s = .next s) ∧
    (∀ rest, s.pending = .wait :: rest → step s = .next { s with pending := rest }) ∧
    ∀ room rest, s.pending = .setRoom room :: rest → step s = .next { s with pending := rest, room := room }

/-- 20_memory.md section 5 and 10_state.md section 2: a read while BUSY = 1 shows BUSY, and the value from before or
from after the running command. -/
def Obligations.ReadsWhileBusy : Prop :=
  ∀ (s : State) (r : Running), s.running = some r →
    (readValue 0x18 64 s).getLsbD 0 = true ∧
    (readValue 0x10 64 s = s.res ∨ readValue 0x10 64 s = r.resAfter) ∧
    (readValue 0x18 64 s = statusWord true s.status ∨
     readValue 0x18 64 s = statusWord true { r.statusAfter with drop := s.status.drop })

/-! ### A sink that stalls, and reset -/

/-- 20_memory.md section 2 and 70_reset_and_hazards.md section 4: a command whose sink accepts too few bytes is held with
BUSY = 1, after the port accesses before the first byte that the sink does not accept, and the source stands where these
left it; the model keeps the core's registers as they were (log entry 7). A sink with room enough is no different from one
that accepts every byte. -/
def Obligations.SinkHoldsCommand : Prop :=
  ∀ (s u : State) (i : Instr) (r : Nat), writesSink i = true → s.running = none →
    exec i { s with room := none } = .next u →
    (s.snk.length + r < u.snk.length →
      ∃ t, exec i { s with room := some r } = .next t ∧ t.busy = true ∧ t.room = some 0 ∧
        t.snk = u.snk.take (s.snk.length + r) ∧
        (∃ es b rest, u.trace = s.trace ++ es ++ .snkWrite b :: rest ∧ t.trace = s.trace ++ es ∧
          t.pos = posAfter s.src.length s.pos es ∧ t.snk = s.snk ++ sentBytes es) ∧
        t = { s with pos := t.pos, snk := t.snk, room := t.room, running := t.running, trace := t.trace }) ∧
    (u.snk.length ≤ s.snk.length + r →
      exec i { s with room := some r } = .next { u with room := some (r - (u.snk.length - s.snk.length)) })

/-- 70_reset_and_hazards.md sections 3 and 4: a held command stays held, and nothing of it moves, whatever the host does
but give the sink room or assert reset. A dropped write, which sets DROP, is the only thing that changes the core, and an
idle step changes nothing. 30_encoding.md section 5 gives WAIT; that it is a host action which stays first in `pending` while
BUSY = 1, so that its step changes nothing at all, is the model's choice (log entry 23). -/
def Obligations.HeldCommandStaysHeld : Prop :=
  ∀ (s t : State), s.busy = true →
    (∀ room rest, s.pending ≠ .setRoom room :: rest) → (∀ rest, s.pending ≠ .reset :: rest) →
    (∀ v k rest, s.pending ≠ .commandReset v k :: rest) →
    (∀ room k rest, s.pending ≠ .roomReset room k :: rest) → step s = .next t →
    t.busy = true ∧
    t = { s with
      pending := t.pending, reads := t.reads, draws := t.draws
      status := { s.status with drop := t.status.drop } } ∧
    (∀ off v rest, s.pending = .write off 64 v :: rest → off = 0x00 ∨ off = 0x08 → t.status.drop = true) ∧
    ((∀ off v rest, s.pending = .write off 64 v :: rest → off ≠ 0x00 ∧ off ≠ 0x08) → t.status.drop = s.status.drop) ∧
    (s.pending = [] → t = s) ∧ ∀ rest, s.pending = .wait :: rest → t = s

/-- 20_memory.md section 2 and 70_reset_and_hazards.md sections 3 and 4: the sink may hold the core while it drains. A
command that stalls is held; the host may write (setting DROP), read and wait meanwhile; room given in parts lets it go on,
to a further stall or to its end; and it ends as it would have with a sink that accepts every byte, DROP recording the
writes lost. How a held command is kept and resumed is the model's choice (log entry 7). -/
def Obligations.HeldCommandResumes : Prop :=
  ∀ (i : Instr) (s u : State), writesSink i = true → s.running = none → s.trace = [] →
    exec i { s with room := none } = .next u →
    (∀ r t, exec i { s with room := some r } = .next t → t.busy = true → Held i s u t) ∧
    ∀ h, Held i s u h →
      (∀ t, (∀ room rest, h.pending ≠ .setRoom room :: rest) → (∀ rest, h.pending ≠ .reset :: rest) →
        (∀ v k rest, h.pending ≠ .commandReset v k :: rest) →
        (∀ room k rest, h.pending ≠ .roomReset room k :: rest) → step h = .next t → Held i s u t) ∧
      (∀ rest, h.pending = .setRoom none :: rest →
        step h = .next { u with
          pending := rest, reads := h.reads, draws := h.draws, status := { u.status with drop := h.status.drop } }) ∧
      ∀ k rest, h.pending = .setRoom (some k) :: rest →
        (u.snk.length ≤ h.snk.length + k →
          step h = .next { u with
            room := some (h.snk.length + k - u.snk.length), pending := rest, reads := h.reads, draws := h.draws
            status := { u.status with drop := h.status.drop } }) ∧
        (h.snk.length + k < u.snk.length →
          ∃ t, step h = .next t ∧ Held i s u t ∧ t.snk.length = h.snk.length + k ∧ t.pending = rest ∧
            t.reads = h.reads ∧ t.draws = h.draws ∧ t.status.drop = h.status.drop)

/-- R65: the reset state, reached by SRST and, from BUSY = 0 and from a held command alike, by a step that asserts the
reset input; the host's ports are not reset. -/
def Obligations.ResetValues : Prop :=
  ∀ s : State, ∃ t, exec .srst s = .next t ∧
    (∀ rest, s.pending = .reset :: rest → step s = .next { t with pending := rest, trace := [] }) ∧
    t.arg = 0 ∧ t.res = 0 ∧ t.busy = false ∧
    t.status = { tree := false, built := false, codes := false, trunc := false, drop := false, err := none } ∧
    (∀ i, i < nSym → t.freqAt i = 0) ∧ t.total = 0 ∧
    (∀ n, n ≤ root → t.nodeAt n = { sym := 0, weight := 0, left := 0, right := 0, parent := 0 }) ∧
    (∀ i, i < nSym → t.lenAt i = 0 ∧ t.codeAt i = 0) ∧
    t.wcur = ⟨0, 0⟩ ∧ t.rcur = ⟨0, 0⟩ ∧ t.ifill = 0 ∧ t.pq = [] ∧
    t = { State.reset with
      cfg := s.cfg, obuf := t.obuf, ibuf := t.ibuf, src := s.src, pos := s.pos, snk := s.snk, room := s.room
      trace := t.trace, pending := s.pending, reads := s.reads, draws := s.draws }

/-- 70_reset_and_hazards.md section 1: reset inside a command, whatever ERR is. The bytes its first `k` port accesses sent
stay sent and no other is, the source stands where those accesses left it, and the core is reset. The same holds of a
command that was held and goes on: `k` then counts the accesses it makes from there. The choice of `k` is the host's (log
entries 9 and 26). A write while BUSY = 1 is dropped, and the held command is aborted where it stalled. -/
def Obligations.ResetAbortsCommand : Prop :=
  (∀ (s : State) (v : Word) (k : Nat) (rest : List HostAction), s.pending = .commandReset v k :: rest →
    (s.busy = false → ∀ u, issue (v.setWidth 32) { s with pending := rest, trace := [] } = .next u →
      ∃ t, step s = .next t ∧ t.snk = s.snk ++ sentBytes (u.trace.take k) ∧
        t.pos = posAfter s.src.length s.pos (u.trace.take k) ∧
        (u.trace.length ≤ k → t.snk = u.snk ∧ t.pos = u.pos) ∧
        t = { State.reset with
          cfg := s.cfg, obuf := t.obuf, ibuf := t.ibuf, src := s.src, pos := t.pos, snk := t.snk
          room := s.room.map fun r => r - (sentBytes (u.trace.take k)).length
          pending := rest, reads := s.reads, draws := s.draws }) ∧
    (s.busy = true → ∃ t, exec .srst s = .next t ∧ step s = .next { t with pending := rest, trace := [] })) ∧
  (∀ (s : State) (room : Option Nat) (k : Nat) (rest : List HostAction), s.pending = .roomReset room k :: rest →
    s.busy = false →
    ∃ t, exec .srst { s with room := room } = .next t ∧ step s = .next { t with pending := rest, trace := [] }) ∧
  ∀ (i : Instr) (s u h : State), writesSink i = true → s.running = none → s.trace = [] →
    exec i { s with room := none } = .next u → Held i s u h →
    ∀ room k rest, h.pending = .roomReset room k :: rest →
      ∃ left made t, u.trace = h.trace ++ left ∧
        made = (match room with
          | none => left
          | some r => untilFull r left).take k ∧
        step h = .next t ∧ t.snk = h.snk ++ sentBytes made ∧ t.pos = posAfter s.src.length h.pos made ∧
        (room = none → left.length ≤ k → t.snk = u.snk ∧ t.pos = u.pos) ∧
        t = { State.reset with
          cfg := s.cfg, obuf := t.obuf, ibuf := t.ibuf, src := s.src, pos := t.pos, snk := t.snk
          room := room.map fun r => r - (sentBytes made).length
          pending := rest, reads := h.reads, draws := h.draws }

/-! ### Control -/

/-- R310: NOP, at the CMD register. -/
def Obligations.NopChangesNothing : Prop :=
  (∀ s : State, exec .nop s = .next s) ∧
  ∀ (s : State) (v : Word) (rest : List HostAction), s.pending = .write 0x00 64 v :: rest → s.busy = false →
    (v.setWidth 32 = (0x00000000 : BitVec 32) → step s = .next { s with pending := rest, trace := [] }) ∧
    (v.setWidth 32 ≠ (0x00000000 : BitVec 32) → opcOf (v.setWidth 32) = 0x00 →
      (s.status.err = none →
        step s = .next { s with pending := rest, trace := [], status := { s.status with err := some .illegal } }) ∧
      (s.status.err ≠ none → step s = .next { s with pending := rest }))

/-- R312: ECLR, at the CMD register, whatever ERR is. -/
def Obligations.EclrClearsTheError : Prop :=
  (∀ s : State, exec .eclr s = .next { s with status := { s.status with err := none, trunc := false, drop := false } }) ∧
  ∀ (s : State) (v : Word) (rest : List HostAction), s.pending = .write 0x00 64 v :: rest → s.busy = false →
    v.setWidth 32 = (0x02000000 : BitVec 32) →
    step s = .next
      { s with pending := rest, trace := [], status := { s.status with err := none, trunc := false, drop := false } }

/-! ### Checks -/

/-- R107: the range checks, before everything else the command does (60_exceptions.md R334). -/
def Obligations.RangeChecks : Prop :=
  ∀ (s : State) (imm : Nat),
    (255 < imm →
      exec (.fadd imm) s = .next (s.raise .range) ∧ exec (.frd imm) s = .next (s.raise .range) ∧
      exec (.fwr imm) s = .next (s.raise .range) ∧ exec (.clen imm) s = .next (s.raise .range) ∧
      (∀ w, w ≤ 3 → exec (.crd w imm) s = .next (s.raise .range)) ∧ exec (.sput imm) s = .next (s.raise .range)) ∧
    (510 < imm → ∀ f, exec (.nrd f imm) s = .next (s.raise .range)) ∧
    (1 < imm → exec (.bput imm) s = .next (s.raise .range))

/-- R108: the sequence checks. -/
def Obligations.SequenceChecks : Prop :=
  ∀ s : State,
    (s.status.built = false → exec .cgen s = .next (s.raise .seq)) ∧
    (s.status.codes = false → ∀ i, i ≤ 255 → exec (.sput i) s = .next (s.raise .seq)) ∧
    (s.status.tree = false → exec .sget s = .next (s.raise .seq)) ∧
    ∀ (i : Instr) (t : State), exec i s = .next t → s.status.err = none → t.status.err = some .seq →
      i = .cgen ∨ i = .sget ∨ ∃ sym, i = .sput sym

/-- 60_exceptions.md section 2: what raising an error records, and what it leaves. -/
def Obligations.RaiseKeepsFirstError : Prop :=
  ∀ (s : State) (e : Err),
    s.raise e = { s with status := { s.status with err := (s.raise e).status.err } } ∧
    (s.status.err = none → (s.raise e).status.err = some e) ∧
    ∀ e', s.status.err = some e' → (s.raise e).status.err = some e'

/-! ### Frequency table -/

/-- 42_frequency.md, FCLR and FreqClear. -/
def Obligations.FclrClearsTheTable : Prop :=
  ∀ s : State, ∃ t, exec .fclr s = .next t ∧ t = { s with freq := t.freq, total := 0 } ∧
    ∀ i, i < nSym → t.freqAt i = 0

/-- 42_frequency.md, FADD and Tally: one occurrence, or E_WOVF with nothing written. -/
def Obligations.FaddCountsOneByte : Prop :=
  ∀ (s : State) (b : Nat), b ≤ 255 →
    ((s.freqAt b).toNat + 1 < w64 → s.total.toNat + 1 < w64 →
      ∃ t, exec (.fadd b) s = .next t ∧ t = { s with freq := t.freq, total := t.total } ∧
        (t.freqAt b).toNat = (s.freqAt b).toNat + 1 ∧ t.total.toNat = s.total.toNat + 1 ∧
        ∀ i, i ≠ b → t.freqAt i = s.freqAt i) ∧
    (((s.freqAt b).toNat + 1 = w64 ∨ s.total.toNat + 1 = w64) → exec (.fadd b) s = .next (s.raise .wovf))

/-- 42_frequency.md, FCNT: every source byte is counted, whatever the position; the source ends at its start. -/
def Obligations.FcntCountsTheSource : Prop :=
  ∀ s : State, s.src.length < w64 →
    ∃ t, exec .fcnt s = .next t ∧
      t = { s with freq := t.freq, total := t.total, res := t.res, pos := 0, trace := t.trace } ∧
      (∀ b, b < nSym → (t.freqAt b).toNat = s.src.count (BitVec.ofNat 8 b)) ∧
      t.total.toNat = s.src.length ∧ t.res = t.total ∧
      t.trace = s.trace ++ [.srcRewind] ++ List.replicate (s.src.length + 1) .srcRead ++ [.srcRewind]

/-- 42_frequency.md, FWR: one count from ARG; TOTAL and the flags stay. -/
def Obligations.FwrLoadsOneCount : Prop :=
  ∀ (s : State) (i : Nat), i ≤ 255 →
    ∃ t, exec (.fwr i) s = .next t ∧ t = { s with freq := t.freq } ∧ t.freqAt i = s.arg ∧
      ∀ j, j ≠ i → t.freqAt j = s.freqAt j

/-- The read-back commands FRD, TRD, CLEN, CRD, WCRD and RCRD write RES and nothing else (41, 42 and 44, section 2).
A cursor whose number does not fit 64 bits is read as a free value (log entry 13). -/
def Obligations.ReadBackCommands : Prop :=
  ∀ s : State,
    (∀ i, i ≤ 255 → exec (.frd i) s = .next { s with res := s.freqAt i }) ∧
    exec .trd s = .next { s with res := s.total } ∧
    (∀ i, i ≤ 255 → exec (.clen i) s = .next { s with res := (s.lenAt i).setWidth 64 }) ∧
    (∀ w i, w ≤ 3 → i ≤ 255 → ∃ v, exec (.crd w i) s = .next { s with res := v } ∧
      ∀ k, k < 64 → v.getLsbD k = if 64 * w + k ≤ 254 then (s.codeAt i).getLsbD (64 * w + k) else false) ∧
    (s.wcur.bits < w64 → exec .wcrd s = .next { s with res := BitVec.ofNat 64 (s.wcur.byte * 8 + s.wcur.bit.val) }) ∧
    (s.rcur.bits < w64 → exec .rcrd s = .next { s with res := BitVec.ofNat 64 (s.rcur.byte * 8 + s.rcur.bit.val) }) ∧
    (∃ v, exec .wcrd s = .next { s with res := v }) ∧ ∃ v, exec .rcrd s = .next { s with res := v }

/-! ### Tree -/

/-- R66 and R200: a TBLD that does not overflow builds a complete tree over the counts; RES is its weight. -/
def Obligations.TbldBuildsTheTree : Prop :=
  ∀ s : State, s.freqSum < w64 →
    ∃ t, exec .tbld s = .next t ∧
      t = { s with
        node := t.node, res := t.res, pq := []
        status := { s.status with tree := true, built := true, codes := false } } ∧
      TreeShape t.node ∧ WeightsAdd t.node ∧ ArenaOk t.node ∧
      (∀ i, i < nSym → (nodeOf t.node i).weight = s.freqAt i ∧ (nodeOf t.node i).left = 0 ∧
        (nodeOf t.node i).right = 0) ∧
      t.res = (nodeOf t.node root).weight ∧ t.res.toNat = s.freqSum ∧
      ∀ i, i < nSym → ∃ p, codePath t.node i = some p ∧ 1 ≤ p.length ∧ p.length ≤ 255

/-- 43_tree.md, MergeStep, and 60_exceptions.md section 2: TBLD raises E_WOVF when the counts' sum passes 2^64 - 1, at
some step k: steps 0 to k - 1 have been made in full (nodes 256 to 255 + k joined, over the counts), step k has written
nothing, and its two least keys, the two least nodes without a parent, are what overflows. RES stays, the flags are 0. -/
def Obligations.TbldOverflow : Prop :=
  ∀ s : State, w64 ≤ s.freqSum →
    ∃ t k, exec .tbld s = .next t ∧ k ≤ 254 ∧
      t = { s with
        node := t.node, pq := []
        status :=
          { s.status with
            tree := false, built := false, codes := false, err := s.status.err.or (some .wovf) } } ∧
      (∃ v, mergeSteps (List.range k) s.clearTables.treeInit.pqSeed = .ok () v ∧ v.mergeStep k = .raised .wovf v ∧
        t.node = v.node) ∧
      (∀ n, n ≤ root → (nodeOf t.node n).sym.toNat = n) ∧
      (∀ i, i < nSym → (nodeOf t.node i).weight = s.freqAt i ∧ (nodeOf t.node i).left = 0 ∧
        (nodeOf t.node i).right = 0) ∧
      (∀ n, 256 ≤ n → n < 256 + k →
        (nodeOf t.node n).left.toNat < n ∧ (nodeOf t.node n).right.toNat < n ∧
        (nodeOf t.node n).left ≠ (nodeOf t.node n).right ∧
        (nodeOf t.node (nodeOf t.node n).left.toNat).parent.toNat = n ∧
        (nodeOf t.node (nodeOf t.node n).right.toNat).parent.toNat = n ∧
        (nodeOf t.node n).weight.toNat =
          (nodeOf t.node (nodeOf t.node n).left.toNat).weight.toNat +
          (nodeOf t.node (nodeOf t.node n).right.toNat).weight.toNat) ∧
      (∀ n, 256 + k ≤ n → n ≤ root →
        nodeOf t.node n = { sym := BitVec.ofNat 16 n, weight := 0, left := 0, right := 0, parent := 0 }) ∧
      (∀ n, n < 256 + k → (nodeOf t.node n).parent = 0 ∨
        (256 ≤ (nodeOf t.node n).parent.toNat ∧ (nodeOf t.node n).parent.toNat < 256 + k ∧
          ((nodeOf t.node (nodeOf t.node n).parent.toNat).left.toNat = n ∨
           (nodeOf t.node (nodeOf t.node n).parent.toNat).right.toNat = n))) ∧
      ∃ a b, a < 256 + k ∧ b < 256 + k ∧
        ((nodeOf t.node a).weight.toNat < (nodeOf t.node b).weight.toNat ∨
          ((nodeOf t.node a).weight = (nodeOf t.node b).weight ∧ a < b)) ∧
        (nodeOf t.node a).parent = 0 ∧ (nodeOf t.node b).parent = 0 ∧
        w64 ≤ (nodeOf t.node a).weight.toNat + (nodeOf t.node b).weight.toNat ∧
        ∀ n, n < 256 + k → (nodeOf t.node n).parent = 0 → n ≠ a → n ≠ b →
          (nodeOf t.node b).weight.toNat < (nodeOf t.node n).weight.toNat ∨
          ((nodeOf t.node b).weight = (nodeOf t.node n).weight ∧ b < n)

/-- R193, one step: the two extracted keys become the children of node 256 + k, or nothing is written. -/
def Obligations.MergeStepMergesTwoKeys : Prop :=
  ∀ (s : State) (k : Nat) (a b : Key) (q : List Key), k ≤ 254 → s.pq = a :: b :: q →
    a.index.toNat < 256 + k → b.index.toNat < 256 + k → a.index ≠ b.index → (∀ x ∈ q, x.index.toNat < 256 + k) →
    (w64 ≤ a.weight.toNat + b.weight.toNat → s.mergeStep k = .raised .wovf s) ∧
    (a.weight.toNat + b.weight.toNat < w64 →
      ∃ t, s.mergeStep k = .ok () t ∧ t = { s with node := t.node, pq := t.pq } ∧
        (t.nodeAt (256 + k)).weight.toNat = a.weight.toNat + b.weight.toNat ∧
        (t.nodeAt (256 + k)).left = a.index ∧ (t.nodeAt (256 + k)).right = b.index ∧
        (t.nodeAt (256 + k)).sym = (s.nodeAt (256 + k)).sym ∧
        (t.nodeAt (256 + k)).parent = (s.nodeAt (256 + k)).parent ∧
        t.nodeAt a.index.toNat = { s.nodeAt a.index.toNat with parent := BitVec.ofNat 16 (256 + k) } ∧
        t.nodeAt b.index.toNat = { s.nodeAt b.index.toNat with parent := BitVec.ofNat 16 (256 + k) } ∧
        (∀ n, n ≠ 256 + k → n ≠ a.index.toNat → n ≠ b.index.toNat → t.nodeAt n = s.nodeAt n) ∧
        t.pq.Perm (⟨a.weight + b.weight, BitVec.ofNat 16 (256 + k)⟩ :: q) ∧
        (q.Pairwise (fun x y => x.before y = true) → t.pq.Pairwise fun x y => x.before y = true))

/-- 43_tree.md section 1, the empty input and equal counts: the merge pairs are (2k, 2k + 1) and every leaf is at
depth 8. -/
def Obligations.EqualCountsTopology : Prop :=
  ∀ (s : State) (c : Word), (∀ i, i < nSym → s.freqAt i = c) → 256 * c.toNat < w64 →
    ∃ t, exec .tbld s = .next t ∧
      (∀ k, k ≤ 254 → (nodeOf t.node (256 + k)).left.toNat = 2 * k ∧
        (nodeOf t.node (256 + k)).right.toNat = 2 * k + 1) ∧
      ∀ i, i < nSym → ∃ p, codePath t.node i = some p ∧ p.length = 8

/-- 43_tree.md section 1, determinism: every field of NODE after TBLD is a function of FREQ alone. -/
def Obligations.TreeIsFunctionOfCounts : Prop :=
  ∀ (s s' t t' : State), s.freq = s'.freq → exec .tbld s = .next t → exec .tbld s' = .next t' →
    t.node = t'.node ∧ t.status.built = t'.status.built

/-- 43_tree.md section 1, the tie-break law: of two nodes, the one lower by weight, then by index, is extracted first: it
gets the earlier parent, or the left place under the same one. -/
def Obligations.TieBreakLaw : Prop :=
  ∀ (s t : State) (a b : Nat), s.freqSum < w64 → exec .tbld s = .next t → a < root → b < root →
    ((nodeOf t.node a).weight.toNat < (nodeOf t.node b).weight.toNat ∨
      ((nodeOf t.node a).weight = (nodeOf t.node b).weight ∧ a < b)) →
    (nodeOf t.node a).parent.toNat < (nodeOf t.node b).parent.toNat ∨
    ((nodeOf t.node a).parent = (nodeOf t.node b).parent ∧
      (nodeOf t.node (nodeOf t.node a).parent.toNat).left.toNat = a ∧
      (nodeOf t.node (nodeOf t.node a).parent.toNat).right.toNat = b)

/-- 43_tree.md section 2, NRD: the field, whatever TREE and BUILT are; the signed fields are sign-extended. -/
def Obligations.NrdReadsOneField : Prop :=
  ∀ (s : State) (n : Nat), n ≤ 510 →
    exec (.nrd .sym n) s = .next { s with res := (s.nodeAt n).sym.setWidth 64 } ∧
    exec (.nrd .weight n) s = .next { s with res := (s.nodeAt n).weight } ∧
    exec (.nrd .left n) s = .next { s with res := BitVec.ofInt 64 (s.nodeAt n).left.toInt } ∧
    exec (.nrd .right n) s = .next { s with res := BitVec.ofInt 64 (s.nodeAt n).right.toInt } ∧
    exec (.nrd .parent n) s = .next { s with res := BitVec.ofInt 64 (s.nodeAt n).parent.toInt }

/-! ### Codes -/

/-- 44_codes.md section 1 and CGEN: on a built tree CGEN completes, every code is the path from the root to its leaf,
its length is 1 to 255, the bits above it are 0, and RES is the greatest length. -/
def Obligations.CgenGeneratesTheCodes : Prop :=
  ∀ s : State, s.status.built = true → TreeShape s.node →
    ∃ t, exec .cgen s = .next t ∧
      t = { s with len := t.len, code := t.code, res := t.res, status := { s.status with codes := true } } ∧
      (∀ i, i < nSym →
        codePath s.node i = some (t.codeOf i) ∧ reachesLeaf s.node i root (t.codeOf i) ∧
        1 ≤ (t.lenAt i).toNat ∧ (t.lenAt i).toNat ≤ t.res.toNat ∧
        ∀ j, (t.lenAt i).toNat ≤ j → (t.codeAt i).getLsbD j = false) ∧
      ∃ i, i < nSym ∧ t.res.toNat = (t.lenAt i).toNat

/-- R223: when BUILT = 1, the codes CGEN leaves are prefix-free, each is as long as its leaf is deep (as many parent links
away from node 510), and following it from node 510 reaches its leaf and no leaf before it. -/
def Obligations.CodesArePrefixFree : Prop :=
  ∀ s t : State, s.status.built = true → TreeShape s.node → exec .cgen s = .next t →
    (∀ i, i < nSym →
      reachesLeaf t.node i root (t.codeOf i) ∧ descend t.node root (t.codeOf i) = i ∧
      (fun n => (nodeOf t.node n).parent.toNat)^[(t.lenAt i).toNat] i = root ∧
      ∀ k, k < (t.lenAt i).toNat → (fun n => (nodeOf t.node n).parent.toNat)^[k] i ≠ root) ∧
    ∀ i j, i < nSym → j < nSym → i ≠ j → ¬ t.codeOf i <+: t.codeOf j

/-- 44_codes.md, SPUT and EmitCode: the code's bits join the output stream in order, whole blocks go to the sink, one that
the code's last bit fills included, and nothing else changes. -/
def Obligations.SputAppendsTheCode : Prop :=
  ∀ (s : State) (i : Nat), i ≤ 255 → s.status.codes = true → s.room = none → BufInv s →
    ∃ t, exec (.sput i) s = .next t ∧
      t = { s with
        obuf := t.obuf, wcur := t.wcur, snk := t.snk, trace := t.trace, res := (s.lenAt i).setWidth 64 } ∧
      bytesBits t.snk ++ t.outBits = bytesBits s.snk ++ s.outBits ++ s.codeOf i ∧ s.snk <+: t.snk ∧
      (∃ m, t.snk.length = s.snk.length + m * s.cfg.blockBytes) ∧ BufInv t ∧
      (s.codeOf i ≠ [] → t.wcur.byte < s.cfg.blockBytes)

/-! ### Bit stream -/

/-- 41_bitstream.md, BPUT and WriteBit: one bit at the cursor, no other byte of the block touched; a full block raises
E_BUF with nothing done. -/
def Obligations.BputWritesOneBit : Prop :=
  ∀ (s : State) (bit : Nat), bit ≤ 1 → BufInv s →
    (s.wcur.byte < s.cfg.blockBytes →
      ∃ t, exec (.bput bit) s = .next t ∧ t = { s with obuf := t.obuf, wcur := t.wcur } ∧
        t.wcur.bits = s.wcur.bits + 1 ∧ t.outBits = s.outBits ++ [decide (bit = 1)] ∧
        (∀ a, a ≠ s.wcur.byte → t.obuf.read a = s.obuf.read a) ∧ BufInv t) ∧
    (s.wcur.byte = s.cfg.blockBytes → exec (.bput bit) s = .next (s.raise .buf))

/-- 41_bitstream.md, BGET and ReadBit: the bit at the cursor; a used-up block raises E_BUF with nothing done. -/
def Obligations.BgetReadsOneBit : Prop :=
  ∀ s : State, BufInv s →
    (s.rcur.byte < s.ifill →
      ∃ t b, exec .bget s = .next t ∧ t = { s with rcur := t.rcur, res := t.res } ∧ s.blockBits = b :: t.blockBits ∧
        t.rcur.bits = s.rcur.bits + 1 ∧ t.res = if b then 1 else 0) ∧
    (s.rcur.byte = s.ifill → exec .bget s = .next (s.raise .buf))

/-- 41_bitstream.md, BFLUSH and Flush: the bytes that hold a written bit go to the sink in index order, the last one
padded with zero bits, and the block is empty. -/
def Obligations.BflushSendsTheBlock : Prop :=
  ∀ s : State, s.room = none → BufInv s →
    ∃ t n, exec .bflush s = .next t ∧ n = (s.wcur.bits + 7) / 8 ∧
      t = { s with wcur := ⟨0, 0⟩, snk := t.snk, trace := t.trace, res := t.res } ∧
      t.snk = s.snk ++ (List.range n).map s.obuf.read ∧ t.snk = s.snk ++ packBits s.outBits ∧
      (n < w64 → t.res = BitVec.ofNat 64 n)

/-- 41_bitstream.md, BFILL and Refill: the next source bytes, at most a block of them, replace the input block. -/
def Obligations.BfillRefillsTheBlock : Prop :=
  ∀ s : State, BufInv s → PortInv s →
    ∃ t n, exec .bfill s = .next t ∧ n = min s.cfg.blockBytes (s.src.length - s.pos) ∧
      t = { s with
        ibuf := t.ibuf, ifill := n, rcur := ⟨0, 0⟩, pos := s.pos + n, res := BitVec.ofNat 64 n, trace := t.trace } ∧
      (∀ a, a < n → s.src[s.pos + a]? = some (t.ibuf.read a)) ∧
      ∀ a, n ≤ a → t.ibuf.read a = s.ibuf.read a

/-- R142: writing bits and reading them back returns them, within one block by WriteBit and ReadBit, and for any number
of bits by EmitBit and NextBit. -/
def Obligations.BitStreamSymmetry : Prop :=
  ∀ (s : State) (bits : List Bool), BufInv s → s.wcur = ⟨0, 0⟩ →
    (bits.length ≤ 8 * s.cfg.blockBytes →
      readBits bits.length (sinkAsSource s (bits.foldl State.writeBit s).flush.2).refill.2 = bits) ∧
    nextBits bits.length (sinkAsSource s (bits.foldl State.emitBit s).flush.2).refill.2 = bits.map some

/-! ### Encoder -/

/-- 20_memory.md section 4 and 45_encoder.md: ENCODE completes and writes the archive: MAGIC, the length, the tree table of
the tree it built, and the codes of the source bytes, packed and padded. No error arises. -/
def Obligations.EncodeWritesTheArchive : Prop :=
  ∀ s : State, s.src.length < w64 → s.room = none → BufInv s →
    ∃ t, exec .encode s = .next t ∧
      t = { s with
        freq := t.freq, total := t.total, node := t.node, len := t.len, code := t.code, obuf := t.obuf
        wcur := ⟨0, 0⟩, pq := [], pos := s.src.length, snk := t.snk, res := t.res, trace := t.trace
        status := { s.status with tree := true, built := true, codes := true } } ∧
      t.total.toNat = s.src.length ∧ TreeShape t.node ∧
      (∀ i, i < nSym → codePath t.node i = some (t.codeOf i)) ∧
      t.snk = s.snk ++ archiveOf s.cfg.magic s.src t ∧
      ((archiveOf s.cfg.magic s.src t).length < w64 →
        t.res.toNat = 1032 + ((s.src.map fun c => (t.lenAt c.toNat).toNat).sum + 7) / 8)

/-- 45_encoder.md section 1, steps 1 and 2: ENCODE has the effect of FCNT, TBLD and CGEN on FREQ, TOTAL, NODE, LEN, CODE
and the three flags. -/
def Obligations.EncodeCountsBuildsAndGenerates : Prop :=
  ∀ s t : State, s.src.length < w64 → s.room = none → exec .encode s = .next t →
    ∃ a b c, exec .fcnt s = .next a ∧ exec .tbld a = .next b ∧ exec .cgen b = .next c ∧
      t.freq = a.freq ∧ t.total = a.total ∧ t.node = b.node ∧ t.len = c.len ∧ t.code = c.code ∧
      t.status.tree = c.status.tree ∧ t.status.built = c.status.built ∧ t.status.codes = c.status.codes

/-- 45_encoder.md section 1, determinism and independence of BLOCK_BYTES: the bytes ENCODE appends depend on the source and
MAGIC alone, whatever the block size, the arrays, the cursors and unflushed bits. RES is equal too; for an archive of 2^64
bytes or more that rests on the model's choice of one free value for each such number (log entry 13). -/
def Obligations.EncodeDependsOnSourceOnly : Prop :=
  ∀ s s' t t' : State, s.src = s'.src → s.cfg.magic = s'.cfg.magic → s.src.length < w64 →
    BufInv s → BufInv s' → s.room = none → s'.room = none →
    exec .encode s = .next t → exec .encode s' = .next t' →
    t.snk.drop s.snk.length = t'.snk.drop s'.snk.length ∧ t.res = t'.res

/-- 70_reset_and_hazards.md section 4: ENCODE makes 2L + 2 SrcRead calls. -/
def Obligations.EncodeReadsSourceTwice : Prop :=
  ∀ s : State, s.src.length < w64 → s.room = none →
    ∃ t evs, exec .encode s = .next t ∧ t.trace = s.trace ++ evs ∧
      evs.count .srcRead = 2 * s.src.length + 2 ∧ evs.count .srcRewind = 2 ∧ t.snk = s.snk ++ sentBytes evs

/-! ### Decoder -/

/-- 46_decoder.md section 1 and 20_memory.md section 4: DECODE of an archive with a good header completes, whatever the
payload: it loads the tree and the length, writes the bytes the payload bits walk to until the length is reached, and sets
TRUNC if they end before. It has consumed the payload bits `p` and no bit more: every one of them was needed. Where it ended
for want of bits, the input block is empty and the source at its end; else the input block, the cursor and the source
position are those of as many refills as `p` takes. -/
def Obligations.DecodeExpandsTheArchive : Prop :=
  ∀ s : State, s.room = none → BufInv s → headOk s.cfg.magic s.src →
    ∃ t out p, exec .decode s = .next t ∧
      out = decodeBits t.node root (archiveLength s.src) (bytesBits (s.src.drop 1032)) ∧
      t = { s with
        node := archiveArena s.src, total := BitVec.ofNat 64 (archiveLength s.src), ibuf := t.ibuf, ifill := t.ifill
        rcur := t.rcur, pos := t.pos, snk := s.snk ++ out, res := BitVec.ofNat 64 out.length, trace := t.trace
        status :=
          { s.status with
            tree := true, built := false, codes := false
            trunc := s.status.trunc || decide (out.length < archiveLength s.src) } } ∧
      out.length ≤ archiveLength s.src ∧ BufInv t ∧
      bytesBits (s.src.drop 1032) = p ++ t.inBits ∧
      out = decodeBits t.node root (archiveLength s.src) p ∧
      (∀ q, q <+: p → q ≠ p → (decodeBits t.node root (archiveLength s.src) q).length < archiveLength s.src) ∧
      (out.length < archiveLength s.src →
        t.inBits = [] ∧ t.ifill = 0 ∧ t.rcur = ⟨0, 0⟩ ∧ t.pos = s.src.length) ∧
      (out.length = archiveLength s.src →
        ∃ m, m = (p.length + 8 * s.cfg.blockBytes - 1) / (8 * s.cfg.blockBytes) ∧
          t.pos = min (1032 + m * s.cfg.blockBytes) s.src.length ∧
          t.ifill = t.pos - (1032 + (m - 1) * s.cfg.blockBytes) ∧
          t.rcur.bits = p.length - (m - 1) * (8 * s.cfg.blockBytes))

/-- 46_decoder.md, CheckMagic: without MAGIC, E_FORMAT, and nothing but the input block and the source position has
changed: the source stands past the first byte that differs from MAGIC, or at its end if it has none. -/
def Obligations.DecodeRefusesBadMagic : Prop :=
  ∀ s : State, ¬ hasMagic s.cfg.magic s.src →
    ∃ t m, exec .decode s = .next t ∧
      t = { s with
        ifill := 0, rcur := ⟨0, 0⟩, pos := t.pos, trace := t.trace
        status := { s.status with err := s.status.err.or (some .format) } } ∧
      m < 4 ∧ s.src.take m = s.cfg.magic.toList.take m ∧
      ((s.src.length = m ∧ t.pos = m) ∨
       (m < s.src.length ∧ s.src[m]? ≠ s.cfg.magic.toList[m]? ∧ t.pos = m + 1))

/-- 46_decoder.md, LoadTree: with MAGIC, a bad entry read whole raises E_TREE; else a short header raises E_HDR_TRUNC; no
sink byte is written, TOTAL and RES stay, the three flags are 0, and just the entries before the bad one are loaded. The
source stands past the bad entry, or at its end. -/
def Obligations.DecodeRefusesBadHeader : Prop :=
  ∀ s : State, hasMagic s.cfg.magic s.src → ¬ headOk s.cfg.magic s.src →
    ∃ t e, exec .decode s = .next t ∧
      ((e = .tree ∧ ∃ k, k < 255 ∧ 16 + 4 * k ≤ s.src.length ∧ ¬ entryOk s.src k) ∨
       (e = .hdrTrunc ∧ s.src.length < 1032 ∧ ∀ k, k < 255 → 16 + 4 * k ≤ s.src.length → entryOk s.src k)) ∧
      t = { s with
        node := t.node, ifill := 0, rcur := ⟨0, 0⟩, pos := t.pos, trace := t.trace
        status :=
          { s.status with
            tree := false, built := false, codes := false, err := s.status.err.or (some e) } } ∧
      ∃ m, m < 255 ∧ (∀ k, k < m → 16 + 4 * k ≤ s.src.length ∧ entryOk s.src k) ∧
        (s.src.length < 16 + 4 * m ∨ ¬ entryOk s.src m) ∧
        (e = .tree → t.pos = 16 + 4 * m) ∧ (e = .hdrTrunc → t.pos = s.src.length) ∧
        ∀ n, n ≤ root → nodeOf t.node n =
          if n < 256 + m then nodeOf (archiveArena s.src) n
          else { sym := BitVec.ofNat 16 n, weight := 0, left := 0, right := 0, parent := 0 }

/-- R287: decoding what ENCODE wrote for a source gives the source back, for every source, the empty one included, on every
decoder with the same MAGIC and ERR = 0, whatever its block size and whatever it held before. -/
def Obligations.EncodeThenDecode : Prop :=
  ∀ s t d : State, s.src.length < w64 → BufInv s → s.room = none → exec .encode s = .next t →
    d.cfg.magic = s.cfg.magic → BufInv d → d.room = none → d.status.err = none →
    d.src = t.snk.drop s.snk.length →
    ∃ u, exec .decode d = .next u ∧ u.snk = d.snk ++ s.src ∧ u.res = BitVec.ofNat 64 s.src.length ∧
      u.status.trunc = d.status.trunc ∧ u.status.err = none

/-- 46_decoder.md section 2, SGET: when the bits to come begin with a path from the root to a leaf, SGET returns the leaf's
symbol and has consumed that path; the sink is not written. -/
def Obligations.SgetDecodesOneSymbol : Prop :=
  ∀ (s : State) (leaf : Nat) (p rest : List Bool), BufInv s → PortInv s → s.status.tree = true →
    s.inBits = p ++ rest → reachesLeaf s.node leaf root p →
    ∃ t, exec .sget s = .next t ∧
      t = { s with
        ibuf := t.ibuf, ifill := t.ifill, rcur := t.rcur, pos := t.pos, trace := t.trace
        res := BitVec.ofNat 64 leaf } ∧
      t.inBits = rest ∧ leaf < 256

/-- R292: when the bits to come end inside a symbol, they are lost, TRUNC is set, RES is 2^64 - 1, and no error is
raised. -/
def Obligations.SgetExhaustion : Prop :=
  ∀ s : State, BufInv s → PortInv s → s.status.tree = true →
    (∀ leaf p rest, s.inBits = p ++ rest → ¬ reachesLeaf s.node leaf root p) →
    ∃ t, exec .sget s = .next t ∧
      t = { s with
        ibuf := t.ibuf, ifill := 0, rcur := ⟨0, 0⟩, pos := s.src.length, trace := t.trace
        res := BitVec.ofNat 64 (2 ^ 64 - 1), status := { s.status with trunc := true } } ∧
      t.inBits = [] ∧ ∀ n, n < nSym → (BitVec.ofNat 64 n : Word) ≠ BitVec.ofNat 64 (2 ^ 64 - 1)

/-! ### The whole machine -/

/-- Every step keeps the invariant (10_state.md sections 2 to 8). -/
def Obligations.StepKeepsInv : Prop := ∀ s t : State, Inv s → step s = .next t → Inv t

/-- The reset state has the invariant. -/
def Obligations.ResetHasInv : Prop := Inv State.reset

/-- 44_codes.md section 1: the walk CGEN makes ends whenever BUILT = 1, so no step from a state with the invariant
faults. The model's one fault is CGEN's, on a tree whose walk does not end (log entry 12). -/
def Obligations.StepNeverFaults : Prop :=
  (∀ (s : State) (f : Fault), Inv s → step s ≠ .fault f) ∧
  ∀ s : State, s.status.built = true → walksEnd s.node = false → exec .cgen s = .fault .codeWalkUnending

/-- 10_state.md section 1 and 20_memory.md sections 1 and 2: no command writes ARG but SRST, the source's bytes or the
parameters, and the sink only grows. -/
def Obligations.CommandsLeaveHostStateAlone : Prop :=
  ∀ (i : Instr) (s t : State), exec i s = .next t →
    t.cfg = s.cfg ∧ t.src = s.src ∧ t.pending = s.pending ∧ t.reads = s.reads ∧ t.draws = s.draws ∧
    s.snk <+: t.snk ∧ (i ≠ .srst → t.arg = s.arg)

/-- 10_state.md section 2: which commands set TREE, BUILT and CODES. -/
def Obligations.FlagsSetOnlyByTheirCommands : Prop :=
  ∀ (i : Instr) (s t : State), exec i s = .next t →
    (s.status.built = false → t.status.built = true → i = .tbld ∨ i = .encode) ∧
    (s.status.codes = false → t.status.codes = true → i = .cgen ∨ i = .encode) ∧
    (s.status.tree = false → t.status.tree = true → i = .tbld ∨ i = .encode ∨ i = .decode) ∧
    (s.status.trunc = false → t.status.trunc = true → i = .decode ∨ i = .sget) ∧
    (s.status.drop = false → t.status.drop = false)

/-- 10_state.md section 2 and 60_exceptions.md section 2: TRUNC, DROP and ERR are sticky, and a command that raises an
error does not write RES. -/
def Obligations.StickyFieldsAndResOnError : Prop :=
  ∀ (i : Instr) (s t : State), exec i s = .next t → i ≠ .srst → i ≠ .eclr →
    (s.status.trunc = true → t.status.trunc = true) ∧ (s.status.drop = true → t.status.drop = true) ∧
    (∀ e, s.status.err = some e → t.status.err = some e) ∧
    (s.status.err = none → t.status.err ≠ none → t.res = s.res)

/-- 10_state.md section 6: the bytes of OBUF above the cursor and of IBUF outside its unread bits, which the spec leaves
unspecified, have no effect on anything the host can see. -/
def Obligations.UnspecifiedBlockBytesInvisible : Prop :=
  ∀ (i : Instr) (s t : State) (o b : Memory),
    BufInv s → BufInv { s with obuf := o, ibuf := b } →
    ({ s with obuf := o, ibuf := b } : State).outBits = s.outBits →
    ({ s with obuf := o, ibuf := b } : State).blockBits = s.blockBits →
    exec i s = .next t →
    ∃ o' b', exec i { s with obuf := o, ibuf := b } = .next { t with obuf := o', ibuf := b' } ∧
      ({ t with obuf := o', ibuf := b' } : State).outBits = t.outBits ∧
      ({ t with obuf := o', ibuf := b' } : State).blockBits = t.blockBits
end

