-- ==== Sys2Proof/Laws/State.lean ====
section
/-! SUPPORT. One lemma per field per update of State, each true by rfl: no proof unfolds a record update. -/

namespace Sys2Proof.Machine

/-! The fixed sizes as numerals, the spelling of every lemma below. -/

@[simp] theorem root_eq : root = 510 := rfl
@[simp] theorem nSym_eq : nSym = 256 := rfl
@[simp] theorem w64_eq : w64 = 18446744073709551616 := rfl

@[simp] theorem State.raise_cfg (s : State) (e : Err) : (s.raise e).cfg = s.cfg := rfl
@[simp] theorem State.raise_arg (s : State) (e : Err) : (s.raise e).arg = s.arg := rfl
@[simp] theorem State.raise_res (s : State) (e : Err) : (s.raise e).res = s.res := rfl
@[simp] theorem State.raise_status (s : State) (e : Err) : (s.raise e).status = { s.status with err := s.status.err.or (some e) } := rfl
@[simp] theorem State.raise_freq (s : State) (e : Err) : (s.raise e).freq = s.freq := rfl
@[simp] theorem State.raise_total (s : State) (e : Err) : (s.raise e).total = s.total := rfl
@[simp] theorem State.raise_node (s : State) (e : Err) : (s.raise e).node = s.node := rfl
@[simp] theorem State.raise_len (s : State) (e : Err) : (s.raise e).len = s.len := rfl
@[simp] theorem State.raise_code (s : State) (e : Err) : (s.raise e).code = s.code := rfl
@[simp] theorem State.raise_obuf (s : State) (e : Err) : (s.raise e).obuf = s.obuf := rfl
@[simp] theorem State.raise_wcur (s : State) (e : Err) : (s.raise e).wcur = s.wcur := rfl
@[simp] theorem State.raise_ibuf (s : State) (e : Err) : (s.raise e).ibuf = s.ibuf := rfl
@[simp] theorem State.raise_ifill (s : State) (e : Err) : (s.raise e).ifill = s.ifill := rfl
@[simp] theorem State.raise_rcur (s : State) (e : Err) : (s.raise e).rcur = s.rcur := rfl
@[simp] theorem State.raise_pq (s : State) (e : Err) : (s.raise e).pq = s.pq := rfl
@[simp] theorem State.raise_src (s : State) (e : Err) : (s.raise e).src = s.src := rfl
@[simp] theorem State.raise_pos (s : State) (e : Err) : (s.raise e).pos = s.pos := rfl
@[simp] theorem State.raise_snk (s : State) (e : Err) : (s.raise e).snk = s.snk := rfl
@[simp] theorem State.raise_room (s : State) (e : Err) : (s.raise e).room = s.room := rfl
@[simp] theorem State.raise_running (s : State) (e : Err) : (s.raise e).running = s.running := rfl
@[simp] theorem State.raise_trace (s : State) (e : Err) : (s.raise e).trace = s.trace := rfl
@[simp] theorem State.raise_pending (s : State) (e : Err) : (s.raise e).pending = s.pending := rfl
@[simp] theorem State.raise_reads (s : State) (e : Err) : (s.raise e).reads = s.reads := rfl
@[simp] theorem State.raise_draws (s : State) (e : Err) : (s.raise e).draws = s.draws := rfl

@[simp] theorem State.clearError_cfg (s : State) : (s.clearError).cfg = s.cfg := rfl
@[simp] theorem State.clearError_arg (s : State) : (s.clearError).arg = s.arg := rfl
@[simp] theorem State.clearError_res (s : State) : (s.clearError).res = s.res := rfl
@[simp] theorem State.clearError_status (s : State) : (s.clearError).status = { s.status with err := none, trunc := false, drop := false } := rfl
@[simp] theorem State.clearError_freq (s : State) : (s.clearError).freq = s.freq := rfl
@[simp] theorem State.clearError_total (s : State) : (s.clearError).total = s.total := rfl
@[simp] theorem State.clearError_node (s : State) : (s.clearError).node = s.node := rfl
@[simp] theorem State.clearError_len (s : State) : (s.clearError).len = s.len := rfl
@[simp] theorem State.clearError_code (s : State) : (s.clearError).code = s.code := rfl
@[simp] theorem State.clearError_obuf (s : State) : (s.clearError).obuf = s.obuf := rfl
@[simp] theorem State.clearError_wcur (s : State) : (s.clearError).wcur = s.wcur := rfl
@[simp] theorem State.clearError_ibuf (s : State) : (s.clearError).ibuf = s.ibuf := rfl
@[simp] theorem State.clearError_ifill (s : State) : (s.clearError).ifill = s.ifill := rfl
@[simp] theorem State.clearError_rcur (s : State) : (s.clearError).rcur = s.rcur := rfl
@[simp] theorem State.clearError_pq (s : State) : (s.clearError).pq = s.pq := rfl
@[simp] theorem State.clearError_src (s : State) : (s.clearError).src = s.src := rfl
@[simp] theorem State.clearError_pos (s : State) : (s.clearError).pos = s.pos := rfl
@[simp] theorem State.clearError_snk (s : State) : (s.clearError).snk = s.snk := rfl
@[simp] theorem State.clearError_room (s : State) : (s.clearError).room = s.room := rfl
@[simp] theorem State.clearError_running (s : State) : (s.clearError).running = s.running := rfl
@[simp] theorem State.clearError_trace (s : State) : (s.clearError).trace = s.trace := rfl
@[simp] theorem State.clearError_pending (s : State) : (s.clearError).pending = s.pending := rfl
@[simp] theorem State.clearError_reads (s : State) : (s.clearError).reads = s.reads := rfl
@[simp] theorem State.clearError_draws (s : State) : (s.clearError).draws = s.draws := rfl

@[simp] theorem State.clearTables_cfg (s : State) : (s.clearTables).cfg = s.cfg := rfl
@[simp] theorem State.clearTables_arg (s : State) : (s.clearTables).arg = s.arg := rfl
@[simp] theorem State.clearTables_res (s : State) : (s.clearTables).res = s.res := rfl
@[simp] theorem State.clearTables_status (s : State) : (s.clearTables).status = { s.status with tree := false, built := false, codes := false } := rfl
@[simp] theorem State.clearTables_freq (s : State) : (s.clearTables).freq = s.freq := rfl
@[simp] theorem State.clearTables_total (s : State) : (s.clearTables).total = s.total := rfl
@[simp] theorem State.clearTables_node (s : State) : (s.clearTables).node = s.node := rfl
@[simp] theorem State.clearTables_len (s : State) : (s.clearTables).len = s.len := rfl
@[simp] theorem State.clearTables_code (s : State) : (s.clearTables).code = s.code := rfl
@[simp] theorem State.clearTables_obuf (s : State) : (s.clearTables).obuf = s.obuf := rfl
@[simp] theorem State.clearTables_wcur (s : State) : (s.clearTables).wcur = s.wcur := rfl
@[simp] theorem State.clearTables_ibuf (s : State) : (s.clearTables).ibuf = s.ibuf := rfl
@[simp] theorem State.clearTables_ifill (s : State) : (s.clearTables).ifill = s.ifill := rfl
@[simp] theorem State.clearTables_rcur (s : State) : (s.clearTables).rcur = s.rcur := rfl
@[simp] theorem State.clearTables_pq (s : State) : (s.clearTables).pq = s.pq := rfl
@[simp] theorem State.clearTables_src (s : State) : (s.clearTables).src = s.src := rfl
@[simp] theorem State.clearTables_pos (s : State) : (s.clearTables).pos = s.pos := rfl
@[simp] theorem State.clearTables_snk (s : State) : (s.clearTables).snk = s.snk := rfl
@[simp] theorem State.clearTables_room (s : State) : (s.clearTables).room = s.room := rfl
@[simp] theorem State.clearTables_running (s : State) : (s.clearTables).running = s.running := rfl
@[simp] theorem State.clearTables_trace (s : State) : (s.clearTables).trace = s.trace := rfl
@[simp] theorem State.clearTables_pending (s : State) : (s.clearTables).pending = s.pending := rfl
@[simp] theorem State.clearTables_reads (s : State) : (s.clearTables).reads = s.reads := rfl
@[simp] theorem State.clearTables_draws (s : State) : (s.clearTables).draws = s.draws := rfl

@[simp] theorem State.markBuilt_cfg (s : State) : (s.markBuilt).cfg = s.cfg := rfl
@[simp] theorem State.markBuilt_arg (s : State) : (s.markBuilt).arg = s.arg := rfl
@[simp] theorem State.markBuilt_res (s : State) : (s.markBuilt).res = s.res := rfl
@[simp] theorem State.markBuilt_status (s : State) : (s.markBuilt).status = { s.status with tree := true, built := true } := rfl
@[simp] theorem State.markBuilt_freq (s : State) : (s.markBuilt).freq = s.freq := rfl
@[simp] theorem State.markBuilt_total (s : State) : (s.markBuilt).total = s.total := rfl
@[simp] theorem State.markBuilt_node (s : State) : (s.markBuilt).node = s.node := rfl
@[simp] theorem State.markBuilt_len (s : State) : (s.markBuilt).len = s.len := rfl
@[simp] theorem State.markBuilt_code (s : State) : (s.markBuilt).code = s.code := rfl
@[simp] theorem State.markBuilt_obuf (s : State) : (s.markBuilt).obuf = s.obuf := rfl
@[simp] theorem State.markBuilt_wcur (s : State) : (s.markBuilt).wcur = s.wcur := rfl
@[simp] theorem State.markBuilt_ibuf (s : State) : (s.markBuilt).ibuf = s.ibuf := rfl
@[simp] theorem State.markBuilt_ifill (s : State) : (s.markBuilt).ifill = s.ifill := rfl
@[simp] theorem State.markBuilt_rcur (s : State) : (s.markBuilt).rcur = s.rcur := rfl
@[simp] theorem State.markBuilt_pq (s : State) : (s.markBuilt).pq = s.pq := rfl
@[simp] theorem State.markBuilt_src (s : State) : (s.markBuilt).src = s.src := rfl
@[simp] theorem State.markBuilt_pos (s : State) : (s.markBuilt).pos = s.pos := rfl
@[simp] theorem State.markBuilt_snk (s : State) : (s.markBuilt).snk = s.snk := rfl
@[simp] theorem State.markBuilt_room (s : State) : (s.markBuilt).room = s.room := rfl
@[simp] theorem State.markBuilt_running (s : State) : (s.markBuilt).running = s.running := rfl
@[simp] theorem State.markBuilt_trace (s : State) : (s.markBuilt).trace = s.trace := rfl
@[simp] theorem State.markBuilt_pending (s : State) : (s.markBuilt).pending = s.pending := rfl
@[simp] theorem State.markBuilt_reads (s : State) : (s.markBuilt).reads = s.reads := rfl
@[simp] theorem State.markBuilt_draws (s : State) : (s.markBuilt).draws = s.draws := rfl

@[simp] theorem State.markTree_cfg (s : State) : (s.markTree).cfg = s.cfg := rfl
@[simp] theorem State.markTree_arg (s : State) : (s.markTree).arg = s.arg := rfl
@[simp] theorem State.markTree_res (s : State) : (s.markTree).res = s.res := rfl
@[simp] theorem State.markTree_status (s : State) : (s.markTree).status = { s.status with tree := true } := rfl
@[simp] theorem State.markTree_freq (s : State) : (s.markTree).freq = s.freq := rfl
@[simp] theorem State.markTree_total (s : State) : (s.markTree).total = s.total := rfl
@[simp] theorem State.markTree_node (s : State) : (s.markTree).node = s.node := rfl
@[simp] theorem State.markTree_len (s : State) : (s.markTree).len = s.len := rfl
@[simp] theorem State.markTree_code (s : State) : (s.markTree).code = s.code := rfl
@[simp] theorem State.markTree_obuf (s : State) : (s.markTree).obuf = s.obuf := rfl
@[simp] theorem State.markTree_wcur (s : State) : (s.markTree).wcur = s.wcur := rfl
@[simp] theorem State.markTree_ibuf (s : State) : (s.markTree).ibuf = s.ibuf := rfl
@[simp] theorem State.markTree_ifill (s : State) : (s.markTree).ifill = s.ifill := rfl
@[simp] theorem State.markTree_rcur (s : State) : (s.markTree).rcur = s.rcur := rfl
@[simp] theorem State.markTree_pq (s : State) : (s.markTree).pq = s.pq := rfl
@[simp] theorem State.markTree_src (s : State) : (s.markTree).src = s.src := rfl
@[simp] theorem State.markTree_pos (s : State) : (s.markTree).pos = s.pos := rfl
@[simp] theorem State.markTree_snk (s : State) : (s.markTree).snk = s.snk := rfl
@[simp] theorem State.markTree_room (s : State) : (s.markTree).room = s.room := rfl
@[simp] theorem State.markTree_running (s : State) : (s.markTree).running = s.running := rfl
@[simp] theorem State.markTree_trace (s : State) : (s.markTree).trace = s.trace := rfl
@[simp] theorem State.markTree_pending (s : State) : (s.markTree).pending = s.pending := rfl
@[simp] theorem State.markTree_reads (s : State) : (s.markTree).reads = s.reads := rfl
@[simp] theorem State.markTree_draws (s : State) : (s.markTree).draws = s.draws := rfl

@[simp] theorem State.markCodes_cfg (s : State) : (s.markCodes).cfg = s.cfg := rfl
@[simp] theorem State.markCodes_arg (s : State) : (s.markCodes).arg = s.arg := rfl
@[simp] theorem State.markCodes_res (s : State) : (s.markCodes).res = s.res := rfl
@[simp] theorem State.markCodes_status (s : State) : (s.markCodes).status = { s.status with codes := true } := rfl
@[simp] theorem State.markCodes_freq (s : State) : (s.markCodes).freq = s.freq := rfl
@[simp] theorem State.markCodes_total (s : State) : (s.markCodes).total = s.total := rfl
@[simp] theorem State.markCodes_node (s : State) : (s.markCodes).node = s.node := rfl
@[simp] theorem State.markCodes_len (s : State) : (s.markCodes).len = s.len := rfl
@[simp] theorem State.markCodes_code (s : State) : (s.markCodes).code = s.code := rfl
@[simp] theorem State.markCodes_obuf (s : State) : (s.markCodes).obuf = s.obuf := rfl
@[simp] theorem State.markCodes_wcur (s : State) : (s.markCodes).wcur = s.wcur := rfl
@[simp] theorem State.markCodes_ibuf (s : State) : (s.markCodes).ibuf = s.ibuf := rfl
@[simp] theorem State.markCodes_ifill (s : State) : (s.markCodes).ifill = s.ifill := rfl
@[simp] theorem State.markCodes_rcur (s : State) : (s.markCodes).rcur = s.rcur := rfl
@[simp] theorem State.markCodes_pq (s : State) : (s.markCodes).pq = s.pq := rfl
@[simp] theorem State.markCodes_src (s : State) : (s.markCodes).src = s.src := rfl
@[simp] theorem State.markCodes_pos (s : State) : (s.markCodes).pos = s.pos := rfl
@[simp] theorem State.markCodes_snk (s : State) : (s.markCodes).snk = s.snk := rfl
@[simp] theorem State.markCodes_room (s : State) : (s.markCodes).room = s.room := rfl
@[simp] theorem State.markCodes_running (s : State) : (s.markCodes).running = s.running := rfl
@[simp] theorem State.markCodes_trace (s : State) : (s.markCodes).trace = s.trace := rfl
@[simp] theorem State.markCodes_pending (s : State) : (s.markCodes).pending = s.pending := rfl
@[simp] theorem State.markCodes_reads (s : State) : (s.markCodes).reads = s.reads := rfl
@[simp] theorem State.markCodes_draws (s : State) : (s.markCodes).draws = s.draws := rfl

@[simp] theorem State.markTrunc_cfg (s : State) : (s.markTrunc).cfg = s.cfg := rfl
@[simp] theorem State.markTrunc_arg (s : State) : (s.markTrunc).arg = s.arg := rfl
@[simp] theorem State.markTrunc_res (s : State) : (s.markTrunc).res = s.res := rfl
@[simp] theorem State.markTrunc_status (s : State) : (s.markTrunc).status = { s.status with trunc := true } := rfl
@[simp] theorem State.markTrunc_freq (s : State) : (s.markTrunc).freq = s.freq := rfl
@[simp] theorem State.markTrunc_total (s : State) : (s.markTrunc).total = s.total := rfl
@[simp] theorem State.markTrunc_node (s : State) : (s.markTrunc).node = s.node := rfl
@[simp] theorem State.markTrunc_len (s : State) : (s.markTrunc).len = s.len := rfl
@[simp] theorem State.markTrunc_code (s : State) : (s.markTrunc).code = s.code := rfl
@[simp] theorem State.markTrunc_obuf (s : State) : (s.markTrunc).obuf = s.obuf := rfl
@[simp] theorem State.markTrunc_wcur (s : State) : (s.markTrunc).wcur = s.wcur := rfl
@[simp] theorem State.markTrunc_ibuf (s : State) : (s.markTrunc).ibuf = s.ibuf := rfl
@[simp] theorem State.markTrunc_ifill (s : State) : (s.markTrunc).ifill = s.ifill := rfl
@[simp] theorem State.markTrunc_rcur (s : State) : (s.markTrunc).rcur = s.rcur := rfl
@[simp] theorem State.markTrunc_pq (s : State) : (s.markTrunc).pq = s.pq := rfl
@[simp] theorem State.markTrunc_src (s : State) : (s.markTrunc).src = s.src := rfl
@[simp] theorem State.markTrunc_pos (s : State) : (s.markTrunc).pos = s.pos := rfl
@[simp] theorem State.markTrunc_snk (s : State) : (s.markTrunc).snk = s.snk := rfl
@[simp] theorem State.markTrunc_room (s : State) : (s.markTrunc).room = s.room := rfl
@[simp] theorem State.markTrunc_running (s : State) : (s.markTrunc).running = s.running := rfl
@[simp] theorem State.markTrunc_trace (s : State) : (s.markTrunc).trace = s.trace := rfl
@[simp] theorem State.markTrunc_pending (s : State) : (s.markTrunc).pending = s.pending := rfl
@[simp] theorem State.markTrunc_reads (s : State) : (s.markTrunc).reads = s.reads := rfl
@[simp] theorem State.markTrunc_draws (s : State) : (s.markTrunc).draws = s.draws := rfl

@[simp] theorem State.markDrop_cfg (s : State) : (s.markDrop).cfg = s.cfg := rfl
@[simp] theorem State.markDrop_arg (s : State) : (s.markDrop).arg = s.arg := rfl
@[simp] theorem State.markDrop_res (s : State) : (s.markDrop).res = s.res := rfl
@[simp] theorem State.markDrop_status (s : State) : (s.markDrop).status = { s.status with drop := true } := rfl
@[simp] theorem State.markDrop_freq (s : State) : (s.markDrop).freq = s.freq := rfl
@[simp] theorem State.markDrop_total (s : State) : (s.markDrop).total = s.total := rfl
@[simp] theorem State.markDrop_node (s : State) : (s.markDrop).node = s.node := rfl
@[simp] theorem State.markDrop_len (s : State) : (s.markDrop).len = s.len := rfl
@[simp] theorem State.markDrop_code (s : State) : (s.markDrop).code = s.code := rfl
@[simp] theorem State.markDrop_obuf (s : State) : (s.markDrop).obuf = s.obuf := rfl
@[simp] theorem State.markDrop_wcur (s : State) : (s.markDrop).wcur = s.wcur := rfl
@[simp] theorem State.markDrop_ibuf (s : State) : (s.markDrop).ibuf = s.ibuf := rfl
@[simp] theorem State.markDrop_ifill (s : State) : (s.markDrop).ifill = s.ifill := rfl
@[simp] theorem State.markDrop_rcur (s : State) : (s.markDrop).rcur = s.rcur := rfl
@[simp] theorem State.markDrop_pq (s : State) : (s.markDrop).pq = s.pq := rfl
@[simp] theorem State.markDrop_src (s : State) : (s.markDrop).src = s.src := rfl
@[simp] theorem State.markDrop_pos (s : State) : (s.markDrop).pos = s.pos := rfl
@[simp] theorem State.markDrop_snk (s : State) : (s.markDrop).snk = s.snk := rfl
@[simp] theorem State.markDrop_room (s : State) : (s.markDrop).room = s.room := rfl
@[simp] theorem State.markDrop_running (s : State) : (s.markDrop).running = s.running := rfl
@[simp] theorem State.markDrop_trace (s : State) : (s.markDrop).trace = s.trace := rfl
@[simp] theorem State.markDrop_pending (s : State) : (s.markDrop).pending = s.pending := rfl
@[simp] theorem State.markDrop_reads (s : State) : (s.markDrop).reads = s.reads := rfl
@[simp] theorem State.markDrop_draws (s : State) : (s.markDrop).draws = s.draws := rfl

@[simp] theorem State.freqClear_cfg (s : State) : (s.freqClear).cfg = s.cfg := rfl
@[simp] theorem State.freqClear_arg (s : State) : (s.freqClear).arg = s.arg := rfl
@[simp] theorem State.freqClear_res (s : State) : (s.freqClear).res = s.res := rfl
@[simp] theorem State.freqClear_status (s : State) : (s.freqClear).status = s.status := rfl
@[simp] theorem State.freqClear_freq (s : State) : (s.freqClear).freq = Vector.replicate 256 0 := rfl
@[simp] theorem State.freqClear_total (s : State) : (s.freqClear).total = 0 := rfl
@[simp] theorem State.freqClear_node (s : State) : (s.freqClear).node = s.node := rfl
@[simp] theorem State.freqClear_len (s : State) : (s.freqClear).len = s.len := rfl
@[simp] theorem State.freqClear_code (s : State) : (s.freqClear).code = s.code := rfl
@[simp] theorem State.freqClear_obuf (s : State) : (s.freqClear).obuf = s.obuf := rfl
@[simp] theorem State.freqClear_wcur (s : State) : (s.freqClear).wcur = s.wcur := rfl
@[simp] theorem State.freqClear_ibuf (s : State) : (s.freqClear).ibuf = s.ibuf := rfl
@[simp] theorem State.freqClear_ifill (s : State) : (s.freqClear).ifill = s.ifill := rfl
@[simp] theorem State.freqClear_rcur (s : State) : (s.freqClear).rcur = s.rcur := rfl
@[simp] theorem State.freqClear_pq (s : State) : (s.freqClear).pq = s.pq := rfl
@[simp] theorem State.freqClear_src (s : State) : (s.freqClear).src = s.src := rfl
@[simp] theorem State.freqClear_pos (s : State) : (s.freqClear).pos = s.pos := rfl
@[simp] theorem State.freqClear_snk (s : State) : (s.freqClear).snk = s.snk := rfl
@[simp] theorem State.freqClear_room (s : State) : (s.freqClear).room = s.room := rfl
@[simp] theorem State.freqClear_running (s : State) : (s.freqClear).running = s.running := rfl
@[simp] theorem State.freqClear_trace (s : State) : (s.freqClear).trace = s.trace := rfl
@[simp] theorem State.freqClear_pending (s : State) : (s.freqClear).pending = s.pending := rfl
@[simp] theorem State.freqClear_reads (s : State) : (s.freqClear).reads = s.reads := rfl
@[simp] theorem State.freqClear_draws (s : State) : (s.freqClear).draws = s.draws := rfl

@[simp] theorem State.setFreq_cfg (s : State) (i : Nat) (v : Word) : (s.setFreq i v).cfg = s.cfg := rfl
@[simp] theorem State.setFreq_arg (s : State) (i : Nat) (v : Word) : (s.setFreq i v).arg = s.arg := rfl
@[simp] theorem State.setFreq_res (s : State) (i : Nat) (v : Word) : (s.setFreq i v).res = s.res := rfl
@[simp] theorem State.setFreq_status (s : State) (i : Nat) (v : Word) : (s.setFreq i v).status = s.status := rfl
@[simp] theorem State.setFreq_freq (s : State) (i : Nat) (v : Word) : (s.setFreq i v).freq = s.freq.setIfInBounds i v := rfl
@[simp] theorem State.setFreq_total (s : State) (i : Nat) (v : Word) : (s.setFreq i v).total = s.total := rfl
@[simp] theorem State.setFreq_node (s : State) (i : Nat) (v : Word) : (s.setFreq i v).node = s.node := rfl
@[simp] theorem State.setFreq_len (s : State) (i : Nat) (v : Word) : (s.setFreq i v).len = s.len := rfl
@[simp] theorem State.setFreq_code (s : State) (i : Nat) (v : Word) : (s.setFreq i v).code = s.code := rfl
@[simp] theorem State.setFreq_obuf (s : State) (i : Nat) (v : Word) : (s.setFreq i v).obuf = s.obuf := rfl
@[simp] theorem State.setFreq_wcur (s : State) (i : Nat) (v : Word) : (s.setFreq i v).wcur = s.wcur := rfl
@[simp] theorem State.setFreq_ibuf (s : State) (i : Nat) (v : Word) : (s.setFreq i v).ibuf = s.ibuf := rfl
@[simp] theorem State.setFreq_ifill (s : State) (i : Nat) (v : Word) : (s.setFreq i v).ifill = s.ifill := rfl
@[simp] theorem State.setFreq_rcur (s : State) (i : Nat) (v : Word) : (s.setFreq i v).rcur = s.rcur := rfl
@[simp] theorem State.setFreq_pq (s : State) (i : Nat) (v : Word) : (s.setFreq i v).pq = s.pq := rfl
@[simp] theorem State.setFreq_src (s : State) (i : Nat) (v : Word) : (s.setFreq i v).src = s.src := rfl
@[simp] theorem State.setFreq_pos (s : State) (i : Nat) (v : Word) : (s.setFreq i v).pos = s.pos := rfl
@[simp] theorem State.setFreq_snk (s : State) (i : Nat) (v : Word) : (s.setFreq i v).snk = s.snk := rfl
@[simp] theorem State.setFreq_room (s : State) (i : Nat) (v : Word) : (s.setFreq i v).room = s.room := rfl
@[simp] theorem State.setFreq_running (s : State) (i : Nat) (v : Word) : (s.setFreq i v).running = s.running := rfl
@[simp] theorem State.setFreq_trace (s : State) (i : Nat) (v : Word) : (s.setFreq i v).trace = s.trace := rfl
@[simp] theorem State.setFreq_pending (s : State) (i : Nat) (v : Word) : (s.setFreq i v).pending = s.pending := rfl
@[simp] theorem State.setFreq_reads (s : State) (i : Nat) (v : Word) : (s.setFreq i v).reads = s.reads := rfl
@[simp] theorem State.setFreq_draws (s : State) (i : Nat) (v : Word) : (s.setFreq i v).draws = s.draws := rfl

@[simp] theorem State.modNode_cfg (s : State) (n : Nat) (f : Node → Node) : (s.modNode n f).cfg = s.cfg := rfl
@[simp] theorem State.modNode_arg (s : State) (n : Nat) (f : Node → Node) : (s.modNode n f).arg = s.arg := rfl
@[simp] theorem State.modNode_res (s : State) (n : Nat) (f : Node → Node) : (s.modNode n f).res = s.res := rfl
@[simp] theorem State.modNode_status (s : State) (n : Nat) (f : Node → Node) : (s.modNode n f).status = s.status := rfl
@[simp] theorem State.modNode_freq (s : State) (n : Nat) (f : Node → Node) : (s.modNode n f).freq = s.freq := rfl
@[simp] theorem State.modNode_total (s : State) (n : Nat) (f : Node → Node) : (s.modNode n f).total = s.total := rfl
@[simp] theorem State.modNode_node (s : State) (n : Nat) (f : Node → Node) : (s.modNode n f).node = setNode s.node n f := rfl
@[simp] theorem State.modNode_len (s : State) (n : Nat) (f : Node → Node) : (s.modNode n f).len = s.len := rfl
@[simp] theorem State.modNode_code (s : State) (n : Nat) (f : Node → Node) : (s.modNode n f).code = s.code := rfl
@[simp] theorem State.modNode_obuf (s : State) (n : Nat) (f : Node → Node) : (s.modNode n f).obuf = s.obuf := rfl
@[simp] theorem State.modNode_wcur (s : State) (n : Nat) (f : Node → Node) : (s.modNode n f).wcur = s.wcur := rfl
@[simp] theorem State.modNode_ibuf (s : State) (n : Nat) (f : Node → Node) : (s.modNode n f).ibuf = s.ibuf := rfl
@[simp] theorem State.modNode_ifill (s : State) (n : Nat) (f : Node → Node) : (s.modNode n f).ifill = s.ifill := rfl
@[simp] theorem State.modNode_rcur (s : State) (n : Nat) (f : Node → Node) : (s.modNode n f).rcur = s.rcur := rfl
@[simp] theorem State.modNode_pq (s : State) (n : Nat) (f : Node → Node) : (s.modNode n f).pq = s.pq := rfl
@[simp] theorem State.modNode_src (s : State) (n : Nat) (f : Node → Node) : (s.modNode n f).src = s.src := rfl
@[simp] theorem State.modNode_pos (s : State) (n : Nat) (f : Node → Node) : (s.modNode n f).pos = s.pos := rfl
@[simp] theorem State.modNode_snk (s : State) (n : Nat) (f : Node → Node) : (s.modNode n f).snk = s.snk := rfl
@[simp] theorem State.modNode_room (s : State) (n : Nat) (f : Node → Node) : (s.modNode n f).room = s.room := rfl
@[simp] theorem State.modNode_running (s : State) (n : Nat) (f : Node → Node) : (s.modNode n f).running = s.running := rfl
@[simp] theorem State.modNode_trace (s : State) (n : Nat) (f : Node → Node) : (s.modNode n f).trace = s.trace := rfl
@[simp] theorem State.modNode_pending (s : State) (n : Nat) (f : Node → Node) : (s.modNode n f).pending = s.pending := rfl
@[simp] theorem State.modNode_reads (s : State) (n : Nat) (f : Node → Node) : (s.modNode n f).reads = s.reads := rfl
@[simp] theorem State.modNode_draws (s : State) (n : Nat) (f : Node → Node) : (s.modNode n f).draws = s.draws := rfl

@[simp] theorem State.treeInit_cfg (s : State) : (s.treeInit).cfg = s.cfg := rfl
@[simp] theorem State.treeInit_arg (s : State) : (s.treeInit).arg = s.arg := rfl
@[simp] theorem State.treeInit_res (s : State) : (s.treeInit).res = s.res := rfl
@[simp] theorem State.treeInit_status (s : State) : (s.treeInit).status = s.status := rfl
@[simp] theorem State.treeInit_freq (s : State) : (s.treeInit).freq = s.freq := rfl
@[simp] theorem State.treeInit_total (s : State) : (s.treeInit).total = s.total := rfl
@[simp] theorem State.treeInit_len (s : State) : (s.treeInit).len = s.len := rfl
@[simp] theorem State.treeInit_code (s : State) : (s.treeInit).code = s.code := rfl
@[simp] theorem State.treeInit_obuf (s : State) : (s.treeInit).obuf = s.obuf := rfl
@[simp] theorem State.treeInit_wcur (s : State) : (s.treeInit).wcur = s.wcur := rfl
@[simp] theorem State.treeInit_ibuf (s : State) : (s.treeInit).ibuf = s.ibuf := rfl
@[simp] theorem State.treeInit_ifill (s : State) : (s.treeInit).ifill = s.ifill := rfl
@[simp] theorem State.treeInit_rcur (s : State) : (s.treeInit).rcur = s.rcur := rfl
@[simp] theorem State.treeInit_pq (s : State) : (s.treeInit).pq = s.pq := rfl
@[simp] theorem State.treeInit_src (s : State) : (s.treeInit).src = s.src := rfl
@[simp] theorem State.treeInit_pos (s : State) : (s.treeInit).pos = s.pos := rfl
@[simp] theorem State.treeInit_snk (s : State) : (s.treeInit).snk = s.snk := rfl
@[simp] theorem State.treeInit_room (s : State) : (s.treeInit).room = s.room := rfl
@[simp] theorem State.treeInit_running (s : State) : (s.treeInit).running = s.running := rfl
@[simp] theorem State.treeInit_trace (s : State) : (s.treeInit).trace = s.trace := rfl
@[simp] theorem State.treeInit_pending (s : State) : (s.treeInit).pending = s.pending := rfl
@[simp] theorem State.treeInit_reads (s : State) : (s.treeInit).reads = s.reads := rfl
@[simp] theorem State.treeInit_draws (s : State) : (s.treeInit).draws = s.draws := rfl

@[simp] theorem State.pqSeed_cfg (s : State) : (s.pqSeed).cfg = s.cfg := rfl
@[simp] theorem State.pqSeed_pq (s : State) : (s.pqSeed).pq = initialKeys s.freqAt := rfl
@[simp] theorem State.pqSeed_arg (s : State) : (s.pqSeed).arg = s.arg := rfl
@[simp] theorem State.pqSeed_res (s : State) : (s.pqSeed).res = s.res := rfl
@[simp] theorem State.pqSeed_status (s : State) : (s.pqSeed).status = s.status := rfl
@[simp] theorem State.pqSeed_freq (s : State) : (s.pqSeed).freq = s.freq := rfl
@[simp] theorem State.pqSeed_total (s : State) : (s.pqSeed).total = s.total := rfl
@[simp] theorem State.pqSeed_node (s : State) : (s.pqSeed).node = s.node := rfl
@[simp] theorem State.pqSeed_len (s : State) : (s.pqSeed).len = s.len := rfl
@[simp] theorem State.pqSeed_code (s : State) : (s.pqSeed).code = s.code := rfl
@[simp] theorem State.pqSeed_obuf (s : State) : (s.pqSeed).obuf = s.obuf := rfl
@[simp] theorem State.pqSeed_wcur (s : State) : (s.pqSeed).wcur = s.wcur := rfl
@[simp] theorem State.pqSeed_ibuf (s : State) : (s.pqSeed).ibuf = s.ibuf := rfl
@[simp] theorem State.pqSeed_ifill (s : State) : (s.pqSeed).ifill = s.ifill := rfl
@[simp] theorem State.pqSeed_rcur (s : State) : (s.pqSeed).rcur = s.rcur := rfl
@[simp] theorem State.pqSeed_src (s : State) : (s.pqSeed).src = s.src := rfl
@[simp] theorem State.pqSeed_pos (s : State) : (s.pqSeed).pos = s.pos := rfl
@[simp] theorem State.pqSeed_snk (s : State) : (s.pqSeed).snk = s.snk := rfl
@[simp] theorem State.pqSeed_room (s : State) : (s.pqSeed).room = s.room := rfl
@[simp] theorem State.pqSeed_running (s : State) : (s.pqSeed).running = s.running := rfl
@[simp] theorem State.pqSeed_trace (s : State) : (s.pqSeed).trace = s.trace := rfl
@[simp] theorem State.pqSeed_pending (s : State) : (s.pqSeed).pending = s.pending := rfl
@[simp] theorem State.pqSeed_reads (s : State) : (s.pqSeed).reads = s.reads := rfl
@[simp] theorem State.pqSeed_draws (s : State) : (s.pqSeed).draws = s.draws := rfl

@[simp] theorem State.treeFinish_cfg (s : State) : (s.treeFinish).cfg = s.cfg := rfl
@[simp] theorem State.treeFinish_arg (s : State) : (s.treeFinish).arg = s.arg := rfl
@[simp] theorem State.treeFinish_res (s : State) : (s.treeFinish).res = s.res := rfl
@[simp] theorem State.treeFinish_status (s : State) : (s.treeFinish).status = s.status := rfl
@[simp] theorem State.treeFinish_freq (s : State) : (s.treeFinish).freq = s.freq := rfl
@[simp] theorem State.treeFinish_total (s : State) : (s.treeFinish).total = s.total := rfl
@[simp] theorem State.treeFinish_len (s : State) : (s.treeFinish).len = s.len := rfl
@[simp] theorem State.treeFinish_code (s : State) : (s.treeFinish).code = s.code := rfl
@[simp] theorem State.treeFinish_obuf (s : State) : (s.treeFinish).obuf = s.obuf := rfl
@[simp] theorem State.treeFinish_wcur (s : State) : (s.treeFinish).wcur = s.wcur := rfl
@[simp] theorem State.treeFinish_ibuf (s : State) : (s.treeFinish).ibuf = s.ibuf := rfl
@[simp] theorem State.treeFinish_ifill (s : State) : (s.treeFinish).ifill = s.ifill := rfl
@[simp] theorem State.treeFinish_rcur (s : State) : (s.treeFinish).rcur = s.rcur := rfl
@[simp] theorem State.treeFinish_pq (s : State) : (s.treeFinish).pq = [] := rfl
@[simp] theorem State.treeFinish_src (s : State) : (s.treeFinish).src = s.src := rfl
@[simp] theorem State.treeFinish_pos (s : State) : (s.treeFinish).pos = s.pos := rfl
@[simp] theorem State.treeFinish_snk (s : State) : (s.treeFinish).snk = s.snk := rfl
@[simp] theorem State.treeFinish_room (s : State) : (s.treeFinish).room = s.room := rfl
@[simp] theorem State.treeFinish_running (s : State) : (s.treeFinish).running = s.running := rfl
@[simp] theorem State.treeFinish_trace (s : State) : (s.treeFinish).trace = s.trace := rfl
@[simp] theorem State.treeFinish_pending (s : State) : (s.treeFinish).pending = s.pending := rfl
@[simp] theorem State.treeFinish_reads (s : State) : (s.treeFinish).reads = s.reads := rfl
@[simp] theorem State.treeFinish_draws (s : State) : (s.treeFinish).draws = s.draws := rfl

@[simp] theorem State.merge_cfg (s : State) (i : Nat) (a b : Key) (q : List Key) : (s.merge i a b q).cfg = s.cfg := rfl
@[simp] theorem State.merge_node (s : State) (i : Nat) (a b : Key) (q : List Key) : (s.merge i a b q).node = mergeNodes s.node i a b := rfl
@[simp] theorem State.merge_arg (s : State) (i : Nat) (a b : Key) (q : List Key) : (s.merge i a b q).arg = s.arg := rfl
@[simp] theorem State.merge_res (s : State) (i : Nat) (a b : Key) (q : List Key) : (s.merge i a b q).res = s.res := rfl
@[simp] theorem State.merge_status (s : State) (i : Nat) (a b : Key) (q : List Key) : (s.merge i a b q).status = s.status := rfl
@[simp] theorem State.merge_freq (s : State) (i : Nat) (a b : Key) (q : List Key) : (s.merge i a b q).freq = s.freq := rfl
@[simp] theorem State.merge_total (s : State) (i : Nat) (a b : Key) (q : List Key) : (s.merge i a b q).total = s.total := rfl
@[simp] theorem State.merge_len (s : State) (i : Nat) (a b : Key) (q : List Key) : (s.merge i a b q).len = s.len := rfl
@[simp] theorem State.merge_code (s : State) (i : Nat) (a b : Key) (q : List Key) : (s.merge i a b q).code = s.code := rfl
@[simp] theorem State.merge_obuf (s : State) (i : Nat) (a b : Key) (q : List Key) : (s.merge i a b q).obuf = s.obuf := rfl
@[simp] theorem State.merge_wcur (s : State) (i : Nat) (a b : Key) (q : List Key) : (s.merge i a b q).wcur = s.wcur := rfl
@[simp] theorem State.merge_ibuf (s : State) (i : Nat) (a b : Key) (q : List Key) : (s.merge i a b q).ibuf = s.ibuf := rfl
@[simp] theorem State.merge_ifill (s : State) (i : Nat) (a b : Key) (q : List Key) : (s.merge i a b q).ifill = s.ifill := rfl
@[simp] theorem State.merge_rcur (s : State) (i : Nat) (a b : Key) (q : List Key) : (s.merge i a b q).rcur = s.rcur := rfl
@[simp] theorem State.merge_pq (s : State) (i : Nat) (a b : Key) (q : List Key) : (s.merge i a b q).pq = pqInsert ⟨a.weight + b.weight, BitVec.ofNat 16 i⟩ q := rfl
@[simp] theorem State.merge_src (s : State) (i : Nat) (a b : Key) (q : List Key) : (s.merge i a b q).src = s.src := rfl
@[simp] theorem State.merge_pos (s : State) (i : Nat) (a b : Key) (q : List Key) : (s.merge i a b q).pos = s.pos := rfl
@[simp] theorem State.merge_snk (s : State) (i : Nat) (a b : Key) (q : List Key) : (s.merge i a b q).snk = s.snk := rfl
@[simp] theorem State.merge_room (s : State) (i : Nat) (a b : Key) (q : List Key) : (s.merge i a b q).room = s.room := rfl
@[simp] theorem State.merge_running (s : State) (i : Nat) (a b : Key) (q : List Key) : (s.merge i a b q).running = s.running := rfl
@[simp] theorem State.merge_trace (s : State) (i : Nat) (a b : Key) (q : List Key) : (s.merge i a b q).trace = s.trace := rfl
@[simp] theorem State.merge_pending (s : State) (i : Nat) (a b : Key) (q : List Key) : (s.merge i a b q).pending = s.pending := rfl
@[simp] theorem State.merge_reads (s : State) (i : Nat) (a b : Key) (q : List Key) : (s.merge i a b q).reads = s.reads := rfl
@[simp] theorem State.merge_draws (s : State) (i : Nat) (a b : Key) (q : List Key) : (s.merge i a b q).draws = s.draws := rfl

@[simp] theorem State.arenaReset_cfg (s : State) : (s.arenaReset).cfg = s.cfg := rfl
@[simp] theorem State.arenaReset_arg (s : State) : (s.arenaReset).arg = s.arg := rfl
@[simp] theorem State.arenaReset_res (s : State) : (s.arenaReset).res = s.res := rfl
@[simp] theorem State.arenaReset_status (s : State) : (s.arenaReset).status = s.status := rfl
@[simp] theorem State.arenaReset_freq (s : State) : (s.arenaReset).freq = s.freq := rfl
@[simp] theorem State.arenaReset_total (s : State) : (s.arenaReset).total = s.total := rfl
@[simp] theorem State.arenaReset_len (s : State) : (s.arenaReset).len = s.len := rfl
@[simp] theorem State.arenaReset_code (s : State) : (s.arenaReset).code = s.code := rfl
@[simp] theorem State.arenaReset_obuf (s : State) : (s.arenaReset).obuf = s.obuf := rfl
@[simp] theorem State.arenaReset_wcur (s : State) : (s.arenaReset).wcur = s.wcur := rfl
@[simp] theorem State.arenaReset_ibuf (s : State) : (s.arenaReset).ibuf = s.ibuf := rfl
@[simp] theorem State.arenaReset_ifill (s : State) : (s.arenaReset).ifill = s.ifill := rfl
@[simp] theorem State.arenaReset_rcur (s : State) : (s.arenaReset).rcur = s.rcur := rfl
@[simp] theorem State.arenaReset_pq (s : State) : (s.arenaReset).pq = s.pq := rfl
@[simp] theorem State.arenaReset_src (s : State) : (s.arenaReset).src = s.src := rfl
@[simp] theorem State.arenaReset_pos (s : State) : (s.arenaReset).pos = s.pos := rfl
@[simp] theorem State.arenaReset_snk (s : State) : (s.arenaReset).snk = s.snk := rfl
@[simp] theorem State.arenaReset_room (s : State) : (s.arenaReset).room = s.room := rfl
@[simp] theorem State.arenaReset_running (s : State) : (s.arenaReset).running = s.running := rfl
@[simp] theorem State.arenaReset_trace (s : State) : (s.arenaReset).trace = s.trace := rfl
@[simp] theorem State.arenaReset_pending (s : State) : (s.arenaReset).pending = s.pending := rfl
@[simp] theorem State.arenaReset_reads (s : State) : (s.arenaReset).reads = s.reads := rfl
@[simp] theorem State.arenaReset_draws (s : State) : (s.arenaReset).draws = s.draws := rfl

@[simp] theorem State.codeWalks_cfg (s : State) : (s.codeWalks).cfg = s.cfg := rfl
@[simp] theorem State.codeWalks_arg (s : State) : (s.codeWalks).arg = s.arg := rfl
@[simp] theorem State.codeWalks_res (s : State) : (s.codeWalks).res = s.res := rfl
@[simp] theorem State.codeWalks_status (s : State) : (s.codeWalks).status = s.status := rfl
@[simp] theorem State.codeWalks_freq (s : State) : (s.codeWalks).freq = s.freq := rfl
@[simp] theorem State.codeWalks_total (s : State) : (s.codeWalks).total = s.total := rfl
@[simp] theorem State.codeWalks_node (s : State) : (s.codeWalks).node = s.node := rfl
@[simp] theorem State.codeWalks_obuf (s : State) : (s.codeWalks).obuf = s.obuf := rfl
@[simp] theorem State.codeWalks_wcur (s : State) : (s.codeWalks).wcur = s.wcur := rfl
@[simp] theorem State.codeWalks_ibuf (s : State) : (s.codeWalks).ibuf = s.ibuf := rfl
@[simp] theorem State.codeWalks_ifill (s : State) : (s.codeWalks).ifill = s.ifill := rfl
@[simp] theorem State.codeWalks_rcur (s : State) : (s.codeWalks).rcur = s.rcur := rfl
@[simp] theorem State.codeWalks_pq (s : State) : (s.codeWalks).pq = s.pq := rfl
@[simp] theorem State.codeWalks_src (s : State) : (s.codeWalks).src = s.src := rfl
@[simp] theorem State.codeWalks_pos (s : State) : (s.codeWalks).pos = s.pos := rfl
@[simp] theorem State.codeWalks_snk (s : State) : (s.codeWalks).snk = s.snk := rfl
@[simp] theorem State.codeWalks_room (s : State) : (s.codeWalks).room = s.room := rfl
@[simp] theorem State.codeWalks_running (s : State) : (s.codeWalks).running = s.running := rfl
@[simp] theorem State.codeWalks_trace (s : State) : (s.codeWalks).trace = s.trace := rfl
@[simp] theorem State.codeWalks_pending (s : State) : (s.codeWalks).pending = s.pending := rfl
@[simp] theorem State.codeWalks_reads (s : State) : (s.codeWalks).reads = s.reads := rfl
@[simp] theorem State.codeWalks_draws (s : State) : (s.codeWalks).draws = s.draws := rfl

@[simp] theorem State.srcRewind_cfg (s : State) : (s.srcRewind).cfg = s.cfg := rfl
@[simp] theorem State.srcRewind_arg (s : State) : (s.srcRewind).arg = s.arg := rfl
@[simp] theorem State.srcRewind_res (s : State) : (s.srcRewind).res = s.res := rfl
@[simp] theorem State.srcRewind_status (s : State) : (s.srcRewind).status = s.status := rfl
@[simp] theorem State.srcRewind_freq (s : State) : (s.srcRewind).freq = s.freq := rfl
@[simp] theorem State.srcRewind_total (s : State) : (s.srcRewind).total = s.total := rfl
@[simp] theorem State.srcRewind_node (s : State) : (s.srcRewind).node = s.node := rfl
@[simp] theorem State.srcRewind_len (s : State) : (s.srcRewind).len = s.len := rfl
@[simp] theorem State.srcRewind_code (s : State) : (s.srcRewind).code = s.code := rfl
@[simp] theorem State.srcRewind_obuf (s : State) : (s.srcRewind).obuf = s.obuf := rfl
@[simp] theorem State.srcRewind_wcur (s : State) : (s.srcRewind).wcur = s.wcur := rfl
@[simp] theorem State.srcRewind_ibuf (s : State) : (s.srcRewind).ibuf = s.ibuf := rfl
@[simp] theorem State.srcRewind_ifill (s : State) : (s.srcRewind).ifill = s.ifill := rfl
@[simp] theorem State.srcRewind_rcur (s : State) : (s.srcRewind).rcur = s.rcur := rfl
@[simp] theorem State.srcRewind_pq (s : State) : (s.srcRewind).pq = s.pq := rfl
@[simp] theorem State.srcRewind_src (s : State) : (s.srcRewind).src = s.src := rfl
@[simp] theorem State.srcRewind_pos (s : State) : (s.srcRewind).pos = 0 := rfl
@[simp] theorem State.srcRewind_snk (s : State) : (s.srcRewind).snk = s.snk := rfl
@[simp] theorem State.srcRewind_room (s : State) : (s.srcRewind).room = s.room := rfl
@[simp] theorem State.srcRewind_running (s : State) : (s.srcRewind).running = s.running := rfl
@[simp] theorem State.srcRewind_trace (s : State) : (s.srcRewind).trace = s.trace ++ [.srcRewind] := rfl
@[simp] theorem State.srcRewind_pending (s : State) : (s.srcRewind).pending = s.pending := rfl
@[simp] theorem State.srcRewind_reads (s : State) : (s.srcRewind).reads = s.reads := rfl
@[simp] theorem State.srcRewind_draws (s : State) : (s.srcRewind).draws = s.draws := rfl

@[simp] theorem State.snkWrite_cfg (s : State) (b : Byte) : (s.snkWrite b).cfg = s.cfg := rfl
@[simp] theorem State.snkWrite_arg (s : State) (b : Byte) : (s.snkWrite b).arg = s.arg := rfl
@[simp] theorem State.snkWrite_res (s : State) (b : Byte) : (s.snkWrite b).res = s.res := rfl
@[simp] theorem State.snkWrite_status (s : State) (b : Byte) : (s.snkWrite b).status = s.status := rfl
@[simp] theorem State.snkWrite_freq (s : State) (b : Byte) : (s.snkWrite b).freq = s.freq := rfl
@[simp] theorem State.snkWrite_total (s : State) (b : Byte) : (s.snkWrite b).total = s.total := rfl
@[simp] theorem State.snkWrite_node (s : State) (b : Byte) : (s.snkWrite b).node = s.node := rfl
@[simp] theorem State.snkWrite_len (s : State) (b : Byte) : (s.snkWrite b).len = s.len := rfl
@[simp] theorem State.snkWrite_code (s : State) (b : Byte) : (s.snkWrite b).code = s.code := rfl
@[simp] theorem State.snkWrite_obuf (s : State) (b : Byte) : (s.snkWrite b).obuf = s.obuf := rfl
@[simp] theorem State.snkWrite_wcur (s : State) (b : Byte) : (s.snkWrite b).wcur = s.wcur := rfl
@[simp] theorem State.snkWrite_ibuf (s : State) (b : Byte) : (s.snkWrite b).ibuf = s.ibuf := rfl
@[simp] theorem State.snkWrite_ifill (s : State) (b : Byte) : (s.snkWrite b).ifill = s.ifill := rfl
@[simp] theorem State.snkWrite_rcur (s : State) (b : Byte) : (s.snkWrite b).rcur = s.rcur := rfl
@[simp] theorem State.snkWrite_pq (s : State) (b : Byte) : (s.snkWrite b).pq = s.pq := rfl
@[simp] theorem State.snkWrite_src (s : State) (b : Byte) : (s.snkWrite b).src = s.src := rfl
@[simp] theorem State.snkWrite_pos (s : State) (b : Byte) : (s.snkWrite b).pos = s.pos := rfl
@[simp] theorem State.snkWrite_snk (s : State) (b : Byte) : (s.snkWrite b).snk = s.snk ++ [b] := rfl
@[simp] theorem State.snkWrite_room (s : State) (b : Byte) : (s.snkWrite b).room = s.room := rfl
@[simp] theorem State.snkWrite_running (s : State) (b : Byte) : (s.snkWrite b).running = s.running := rfl
@[simp] theorem State.snkWrite_trace (s : State) (b : Byte) : (s.snkWrite b).trace = s.trace ++ [.snkWrite b] := rfl
@[simp] theorem State.snkWrite_pending (s : State) (b : Byte) : (s.snkWrite b).pending = s.pending := rfl
@[simp] theorem State.snkWrite_reads (s : State) (b : Byte) : (s.snkWrite b).reads = s.reads := rfl
@[simp] theorem State.snkWrite_draws (s : State) (b : Byte) : (s.snkWrite b).draws = s.draws := rfl

@[simp] theorem State.writeBit_cfg (s : State) (b : Bool) : (s.writeBit b).cfg = s.cfg := rfl
@[simp] theorem State.writeBit_arg (s : State) (b : Bool) : (s.writeBit b).arg = s.arg := rfl
@[simp] theorem State.writeBit_res (s : State) (b : Bool) : (s.writeBit b).res = s.res := rfl
@[simp] theorem State.writeBit_status (s : State) (b : Bool) : (s.writeBit b).status = s.status := rfl
@[simp] theorem State.writeBit_freq (s : State) (b : Bool) : (s.writeBit b).freq = s.freq := rfl
@[simp] theorem State.writeBit_total (s : State) (b : Bool) : (s.writeBit b).total = s.total := rfl
@[simp] theorem State.writeBit_node (s : State) (b : Bool) : (s.writeBit b).node = s.node := rfl
@[simp] theorem State.writeBit_len (s : State) (b : Bool) : (s.writeBit b).len = s.len := rfl
@[simp] theorem State.writeBit_code (s : State) (b : Bool) : (s.writeBit b).code = s.code := rfl
@[simp] theorem State.writeBit_wcur (s : State) (b : Bool) : (s.writeBit b).wcur = s.wcur.next := rfl
@[simp] theorem State.writeBit_ibuf (s : State) (b : Bool) : (s.writeBit b).ibuf = s.ibuf := rfl
@[simp] theorem State.writeBit_ifill (s : State) (b : Bool) : (s.writeBit b).ifill = s.ifill := rfl
@[simp] theorem State.writeBit_rcur (s : State) (b : Bool) : (s.writeBit b).rcur = s.rcur := rfl
@[simp] theorem State.writeBit_pq (s : State) (b : Bool) : (s.writeBit b).pq = s.pq := rfl
@[simp] theorem State.writeBit_src (s : State) (b : Bool) : (s.writeBit b).src = s.src := rfl
@[simp] theorem State.writeBit_pos (s : State) (b : Bool) : (s.writeBit b).pos = s.pos := rfl
@[simp] theorem State.writeBit_snk (s : State) (b : Bool) : (s.writeBit b).snk = s.snk := rfl
@[simp] theorem State.writeBit_room (s : State) (b : Bool) : (s.writeBit b).room = s.room := rfl
@[simp] theorem State.writeBit_running (s : State) (b : Bool) : (s.writeBit b).running = s.running := rfl
@[simp] theorem State.writeBit_trace (s : State) (b : Bool) : (s.writeBit b).trace = s.trace := rfl
@[simp] theorem State.writeBit_pending (s : State) (b : Bool) : (s.writeBit b).pending = s.pending := rfl
@[simp] theorem State.writeBit_reads (s : State) (b : Bool) : (s.writeBit b).reads = s.reads := rfl
@[simp] theorem State.writeBit_draws (s : State) (b : Bool) : (s.writeBit b).draws = s.draws := rfl

@[simp] theorem State.resetCore_cfg (s : State) : s.resetCore.cfg = s.cfg := rfl
@[simp] theorem State.resetCore_arg (s : State) : s.resetCore.arg = State.reset.arg := rfl
@[simp] theorem State.resetCore_res (s : State) : s.resetCore.res = State.reset.res := rfl
@[simp] theorem State.resetCore_status (s : State) : s.resetCore.status = State.reset.status := rfl
@[simp] theorem State.resetCore_freq (s : State) : s.resetCore.freq = State.reset.freq := rfl
@[simp] theorem State.resetCore_total (s : State) : s.resetCore.total = State.reset.total := rfl
@[simp] theorem State.resetCore_node (s : State) : s.resetCore.node = State.reset.node := rfl
@[simp] theorem State.resetCore_len (s : State) : s.resetCore.len = State.reset.len := rfl
@[simp] theorem State.resetCore_code (s : State) : s.resetCore.code = State.reset.code := rfl
@[simp] theorem State.resetCore_obuf (s : State) : s.resetCore.obuf = State.reset.obuf := rfl
@[simp] theorem State.resetCore_wcur (s : State) : s.resetCore.wcur = State.reset.wcur := rfl
@[simp] theorem State.resetCore_ibuf (s : State) : s.resetCore.ibuf = State.reset.ibuf := rfl
@[simp] theorem State.resetCore_ifill (s : State) : s.resetCore.ifill = State.reset.ifill := rfl
@[simp] theorem State.resetCore_rcur (s : State) : s.resetCore.rcur = State.reset.rcur := rfl
@[simp] theorem State.resetCore_pq (s : State) : s.resetCore.pq = State.reset.pq := rfl
@[simp] theorem State.resetCore_src (s : State) : s.resetCore.src = s.src := rfl
@[simp] theorem State.resetCore_pos (s : State) : s.resetCore.pos = s.pos := rfl
@[simp] theorem State.resetCore_snk (s : State) : s.resetCore.snk = s.snk := rfl
@[simp] theorem State.resetCore_room (s : State) : s.resetCore.room = s.room := rfl
@[simp] theorem State.resetCore_running (s : State) : s.resetCore.running = State.reset.running := rfl
@[simp] theorem State.resetCore_trace (s : State) : s.resetCore.trace = s.trace := rfl
@[simp] theorem State.resetCore_pending (s : State) : s.resetCore.pending = s.pending := rfl
@[simp] theorem State.resetCore_reads (s : State) : s.resetCore.reads = s.reads := rfl
@[simp] theorem State.resetCore_draws (s : State) : s.resetCore.draws = s.draws := rfl

end Sys2Proof.Machine
end

