-- ==== Sys2Proof/Laws/Arrays.lean ====
section
/-! SUPPORT. The laws of the arrays, of the parts of a command and of its checks. -/

namespace Sys2Proof.Machine

/-! ### Arrays -/

theorem State.nodeAt_eq (s : State) (n : Nat) : s.nodeAt n = nodeOf s.node n := rfl

theorem nodeOf_arenaOf (f : Nat → Node) (n : Nat) (h : n ≤ root) : nodeOf (arenaOf f) n = f n := by
  have h' : n < 511 := Nat.lt_succ_of_le h
  unfold arenaOf
  simp [nodeOf, h']

theorem nodeOf_setNode (v : Vector Node 511) (n m : Nat) (f : Node → Node) :
    nodeOf (setNode v n f) m = if m = n ∧ n ≤ root then f (nodeOf v n) else nodeOf v m := by
  by_cases h : m = n
  · subst h
    by_cases hm : m < 511
    · have h' : m ≤ 510 := by omega
      simp [nodeOf, setNode, hm, h']
    · have h' : ¬ m ≤ 510 := by omega
      simp [nodeOf, setNode, hm, h']
  · simp [nodeOf, setNode, h, Ne.symm h]

theorem getElem?_symbolTable {α : Type} (f : Nat → α) (i : Nat) (h : i < nSym) : (symbolTable f)[i]? = some (f i) := by
  unfold symbolTable
  simp [show i < 256 by omega]

theorem State.freqAt_setFreq (s : State) (i j : Nat) (v : Word) :
    (s.setFreq i v).freqAt j = if j = i ∧ i < nSym then v else s.freqAt j := by
  by_cases h : j = i
  · subst h
    by_cases hj : j < 256
    · simp [State.freqAt, State.setFreq, hj]
    · simp [State.freqAt, State.setFreq, hj]
  · simp [State.freqAt, State.setFreq, h, Ne.symm h]

theorem State.freqAt_freqClear (s : State) (i : Nat) : s.freqClear.freqAt i = 0 := by
  by_cases h : i < 256 <;> simp [State.freqAt, h]

/-- What MergeStep writes, when both children are other nodes than node `i`. -/
theorem nodeOf_mergeNodes (v : Vector Node 511) (i m : Nat) (a b : Key) (hi : i ≤ root) (ha : a.index.toNat < i)
    (hb : b.index.toNat < i) (hab : a.index.toNat ≠ b.index.toNat) :
    nodeOf (mergeNodes v i a b) m =
      if m = i then
        { nodeOf v i with weight := a.weight + b.weight, left := a.index, right := b.index }
      else if m = a.index.toNat ∨ m = b.index.toNat then { nodeOf v m with parent := BitVec.ofNat 16 i }
      else nodeOf v m := by
  have hia : i ≠ a.index.toNat := by omega
  have hib : i ≠ b.index.toNat := by omega
  have hra : a.index.toNat ≤ root := by omega
  have hrb : b.index.toNat ≤ root := by omega
  simp only [mergeNodes, nodeOf_setNode]
  by_cases h1 : m = i
  · subst h1; simp [hia, hib, hi]
  · by_cases h2 : m = b.index.toNat
    · subst h2; simp [h1, hrb, Ne.symm hab]
    · by_cases h3 : m = a.index.toNat
      · subst h3; simp [h1, h2, hra]
      · simp [h1, h2, h3]

/-! ### Parts of a command -/

@[simp] theorem Flow.bind_ok {α β : Type} (a : α) (s : State) (f : α → State → Flow β) : (Flow.ok a s).bind f = f a s := rfl
@[simp] theorem Flow.bind_raised {α β : Type} (e : Err) (s : State) (f : α → State → Flow β) :
    (Flow.raised e s).bind f = .raised e s := rfl
@[simp] theorem Flow.close_ok (v : Word) (s : State) : (Flow.ok v s).close = { s with res := v } := rfl
@[simp] theorem Flow.close_raised (e : Err) (s : State) : (Flow.raised e s).close = s.raise e := rfl
@[simp] theorem Flow.closeUnit_ok (s : State) : (Flow.ok () s).closeUnit = s := rfl
@[simp] theorem Flow.closeUnit_raised (e : Err) (s : State) : (Flow.raised e s).closeUnit = s.raise e := rfl

/-- A part that went on after another went on after it did. -/
theorem Flow.bind_eq_ok {α β : Type} {x : Flow α} {f : α → State → Flow β} {b : β} {t : State} (h : x.bind f = .ok b t) :
    ∃ a s, x = .ok a s ∧ f a s = .ok b t := by
  cases x with
  | ok a s => exact ⟨a, s, rfl, h⟩
  | raised e s => cases h

/-- An error of two parts is the first's, or the second's after the first. -/
theorem Flow.bind_eq_raised {α β : Type} {x : Flow α} {f : α → State → Flow β} {e : Err} {t : State}
    (h : x.bind f = .raised e t) : x = .raised e t ∨ ∃ a s, x = .ok a s ∧ f a s = .raised e t := by
  cases x with
  | ok a s => exact .inr ⟨a, s, rfl, h⟩
  | raised e' s => exact .inl (by simpa using h)

/-! ### Checks and errors -/

theorem State.raise_eq (s : State) (e : Err) :
    s.raise e = { s with status := { s.status with err := s.status.err.or (some e) } } := rfl

theorem inRange_pass {limit imm : Nat} (s : State) (go : Out) (h : imm ≤ limit) : inRange limit imm s go = go := by
  simp [inRange, Nat.not_lt.mpr h]

theorem inRange_fail {limit imm : Nat} (s : State) (go : Out) (h : limit < imm) :
    inRange limit imm s go = .next (s.raise .range) := by simp [inRange, h]

theorem inWords_pass {w : Nat} (s : State) (go : Out) (h : w ≤ maxWord) : inWords w s go = go := by
  simp [inWords, Nat.not_lt.mpr h]

@[simp] theorem needs_true (s : State) (go : Out) : needs true s go = go := rfl
@[simp] theorem needs_false (s : State) (go : Out) : needs false s go = .next (s.raise .seq) := rfl

/-- A check ends in what it guards or in the error it raises. -/
theorem needs_cases (flag : Bool) (s : State) (go : Out) :
    (flag = true ∧ needs flag s go = go) ∨ (flag = false ∧ needs flag s go = .next (s.raise .seq)) := by
  cases flag
  · exact .inr ⟨rfl, rfl⟩
  · exact .inl ⟨rfl, rfl⟩

theorem resOfNat_eq {n : Nat} (h : n < w64) : resOfNat n = BitVec.ofNat 64 n := if_pos h

/-! ### How a command ends -/

theorem State.settle_none (i : Instr) (s t : State) (h : s.room = none) : s.settle i t = t := by
  simp [State.settle, h]

theorem State.settle_room (i : Instr) (s t : State) (r : Nat) (h : s.room = some r)
    (hn : t.snk.length - s.snk.length ≤ r) :
    s.settle i t = { t with room := some (r - (t.snk.length - s.snk.length)) } := by
  simp [State.settle, h, hn]

theorem State.settle_stall (i : Instr) (s t : State) (r : Nat) (h : s.room = some r)
    (hn : r < t.snk.length - s.snk.length) : s.settle i t = State.stall i s t := by
  simp [State.settle, h, Nat.not_le.mpr hn]

/-- Replaying port accesses moves the ports and nothing else. -/
theorem State.replay_frame (es : List PortEvent) (s : State) :
    s.replay es = { s with pos := (s.replay es).pos, snk := (s.replay es).snk, room := (s.replay es).room } := by
  induction es generalizing s with
  | nil => rfl
  | cons e es ih =>
    cases e <;> (simp only [State.replay]; rw [ih])

/-- Replaying port accesses appends the bytes they send. -/
theorem State.replay_snk (es : List PortEvent) (s : State) : (s.replay es).snk = s.snk ++ sentBytes es := by
  induction es generalizing s with
  | nil => simp [State.replay, sentBytes]
  | cons e es ih => cases e <;> simp [State.replay, sentBytes, ih]

/-- Replaying port accesses leaves the position where they leave it. -/
theorem State.replay_pos (es : List PortEvent) (s : State) :
    (s.replay es).pos = posAfter s.src.length s.pos es := by
  induction es generalizing s with
  | nil => rfl
  | cons e es ih => cases e <;> simp [State.replay, posAfter, ih]

/-- Replaying port accesses uses up room for the bytes they send. -/
theorem State.replay_room (es : List PortEvent) (s : State) :
    (s.replay es).room = s.room.map fun r => r - (sentBytes es).length := by
  induction es generalizing s with
  | nil => cases h : s.room <;> simp [State.replay, sentBytes, h]
  | cons e es ih =>
    cases e with
    | srcRead => simpa [State.replay, sentBytes] using ih _
    | srcRewind => simpa [State.replay, sentBytes] using ih _
    | snkWrite b =>
      simp only [State.replay, sentBytes, ih, List.length_cons]
      cases s.room with
      | none => rfl
      | some r => simp; omega

theorem sentBytes_append (a b : List PortEvent) : sentBytes (a ++ b) = sentBytes a ++ sentBytes b := by
  induction a with
  | nil => rfl
  | cons e a ih => cases e <;> simp [sentBytes, ih]

/-- The accesses before the first byte beyond the sink's room: just that byte comes next. -/
theorem untilFull_spec (es : List PortEvent) : ∀ r, r < (sentBytes es).length →
    ∃ b rest, es = untilFull r es ++ .snkWrite b :: rest ∧ (sentBytes (untilFull r es)).length = r := by
  induction es with
  | nil => intro r h; simp [sentBytes] at h
  | cons e es ih =>
    intro r h
    cases e with
    | srcRead =>
      obtain ⟨b, rest, e, hr⟩ := ih r h
      exact ⟨b, rest, by simpa [untilFull] using e, by simpa [untilFull, sentBytes] using hr⟩
    | srcRewind =>
      obtain ⟨b, rest, e, hr⟩ := ih r h
      exact ⟨b, rest, by simpa [untilFull] using e, by simpa [untilFull, sentBytes] using hr⟩
    | snkWrite c =>
      cases r with
      | zero => exact ⟨c, es, by simp [untilFull], by simp [untilFull, sentBytes]⟩
      | succ r =>
        obtain ⟨b, rest, e, hr⟩ := ih r (by simpa [sentBytes] using h)
        exact ⟨b, rest, by simpa [untilFull] using e, by simpa [untilFull, sentBytes] using hr⟩

/-- Room for what some accesses send and `r` bytes more takes in those accesses, and then what `r` allows. -/
theorem untilFull_append (as bs : List PortEvent) (r : Nat) :
    untilFull ((sentBytes as).length + r) (as ++ bs) = as ++ untilFull r bs := by
  induction as with
  | nil => simp [sentBytes]
  | cons e as ih =>
    cases e <;> simp [untilFull, sentBytes, Nat.add_right_comm, ih]

/-- With room enough, every access is made. -/
theorem untilFull_all (es : List PortEvent) : ∀ r, (sentBytes es).length ≤ r → untilFull r es = es := by
  intro r h
  obtain ⟨d, rfl⟩ := Nat.exists_eq_add_of_le h
  simpa [untilFull] using untilFull_append es [] d

theorem posAfter_append (len : Nat) (a b : List PortEvent) (p : Nat) :
    posAfter len p (a ++ b) = posAfter len (posAfter len p a) b := by
  induction a generalizing p with
  | nil => rfl
  | cons e a ih => cases e <;> simp [posAfter, ih]

/-! ### Steps -/

theorem step_eq (s : State) (a : HostAction) (rest : List HostAction) (h : s.pending = a :: rest) :
    step s = hostAct a { s with pending := rest } := by
  unfold step hostStep
  rw [h]

/-- A run aborted by reset: the ports stand where its first `k` new accesses leave them, and all else is reset. -/
theorem abortAfter_next (k : Nat) (s t : State) :
    ∃ u, abortAfter k s (.next t) = .next u ∧
      u.snk = s.snk ++ sentBytes ((t.trace.drop s.trace.length).take k) ∧
      u.pos = posAfter s.src.length s.pos ((t.trace.drop s.trace.length).take k) ∧
      u = { State.reset with
        cfg := s.cfg, src := s.src, pos := u.pos, snk := u.snk
        room := s.room.map fun r => r - (sentBytes ((t.trace.drop s.trace.length).take k)).length
        pending := s.pending, reads := s.reads, draws := s.draws } := by
  refine ⟨_, rfl, State.replay_snk _ s, State.replay_pos _ s, ?_⟩
  rw [s.replay_frame, s.replay_room]
  rfl

theorem step_idle (s : State) (h : s.pending = []) : step s = .next s := by
  unfold step hostStep
  rw [h]

end Sys2Proof.Machine
end

