-- ==== Sys2Proof/Laws/Memory.lean ====
section
/-! SUPPORT. The laws of a block's bytes: read after write, and every write keeps the canonical form. -/

namespace Sys2Proof.Machine

theorem Memory.read_of_wfFrom_lt (m : Memory) (lo a : Nat) (h : m.wfFrom lo = true) (ha : a < lo) :
    m.read a = Memory.unlisted := by
  induction m generalizing lo with
  | nil => rfl
  | cons c m ih =>
    obtain ⟨k, v⟩ := c
    simp only [Memory.wfFrom, Bool.and_eq_true, decide_eq_true_eq] at h
    have hk : a ≠ k := by omega
    simp only [Memory.read, hk, if_false]
    exact ih (k + 1) h.2 (by omega)

theorem Memory.wfFrom_mono (m : Memory) {lo lo' : Nat} (h : m.wfFrom lo = true) (hl : lo' ≤ lo) :
    m.wfFrom lo' = true := by
  cases m with
  | nil => rfl
  | cons c m =>
    simp only [Memory.wfFrom, Bool.and_eq_true, decide_eq_true_eq] at h ⊢
    exact ⟨⟨by omega, h.1.2⟩, h.2⟩

/-- A write keeps the canonical form above any bound at or below its address. -/
theorem Memory.write_wfFrom (m : Memory) (lo a : Nat) (b : Byte) (h : m.wfFrom lo = true) (ha : lo ≤ a) :
    (m.write a b).wfFrom lo = true := by
  induction m generalizing lo with
  | nil => by_cases hb : b = Memory.unlisted <;> simp [Memory.write, Memory.wfFrom, hb, ha]
  | cons c m ih =>
    obtain ⟨k, v⟩ := c
    have h0 := h
    simp only [Memory.wfFrom, Bool.and_eq_true, decide_eq_true_eq] at h
    obtain ⟨⟨hk, hv⟩, hm⟩ := h
    simp only [Memory.write]
    split_ifs with h1 h2 h3 h4
    · exact h0
    · simp [Memory.wfFrom, ha, h2, hv, hm, h1]
    · exact Memory.wfFrom_mono m hm (by omega)
    · subst h3; simp [Memory.wfFrom, ha, h4, hm]
    · simp [Memory.wfFrom, hk, hv, ih (k + 1) hm (by omega)]

/-- Every write keeps the canonical form. -/
theorem Memory.write_wf (m : Memory) (a : Nat) (b : Byte) (h : m.wf = true) : (m.write a b).wf = true :=
  Memory.write_wfFrom m 0 a b h (Nat.zero_le a)

theorem Memory.read_write_from (m : Memory) (lo a b : Nat) (v : Byte) (h : m.wfFrom lo = true) :
    (m.write a v).read b = if b = a then v else m.read b := by
  induction m generalizing lo with
  | nil => by_cases hv : v = Memory.unlisted <;> by_cases hb : b = a <;> simp [Memory.write, Memory.read, hv, hb]
  | cons c m ih =>
    obtain ⟨k, w⟩ := c
    simp only [Memory.wfFrom, Bool.and_eq_true, decide_eq_true_eq] at h
    obtain ⟨_, hm⟩ := h
    have below : ∀ x, x < k + 1 → Memory.read m x = Memory.unlisted :=
      fun x hx => Memory.read_of_wfFrom_lt m (k + 1) x hm hx
    have hread : ∀ x, Memory.read ((k, w) :: m) x = if x = k then w else Memory.read m x := fun _ => rfl
    have hcons : ∀ x, Memory.read ((a, v) :: m) x = if x = a then v else Memory.read m x := fun _ => rfl
    have hcons' : ∀ x, Memory.read ((a, v) :: (k, w) :: m) x = if x = a then v else Memory.read ((k, w) :: m) x :=
      fun _ => rfl
    simp only [Memory.write]
    by_cases h1 : a < k
    · by_cases h2 : v = Memory.unlisted
      · by_cases hb : b = a
        · have : a ≠ k := by omega
          simp [h1, h2, hread, hb, below a (by omega), this]
        · simp [h1, h2, hb]
      · simp [h1, h2, hcons']
    · by_cases h2 : a = k
      · by_cases h3 : v = Memory.unlisted
        · by_cases hb : b = k
          · simp [h2, h3, hb, below k (by omega)]
          · simp [h2, h3, hread, hb]
        · subst h2
          by_cases hb : b = a <;> simp [h3, hcons, hread, hb]
      · have hw : Memory.read ((k, w) :: Memory.write m a v) b =
            if b = k then w else Memory.read (Memory.write m a v) b := rfl
        simp only [h1, h2, if_false, hw, ih (k + 1) hm, hread]
        by_cases hb : b = a
        · simp [hb, h2]
        · simp [hb]

/-- A read after a write: the value written at that address, the old one elsewhere. -/
theorem Memory.read_write (m : Memory) (a b : Nat) (v : Byte) (h : m.wf = true) :
    (m.write a v).read b = if b = a then v else m.read b := Memory.read_write_from m 0 a b v h

theorem Memory.read_write_same (m : Memory) (a : Nat) (v : Byte) (h : m.wf = true) : (m.write a v).read a = v := by
  simp [Memory.read_write m a a v h]

theorem Memory.read_write_other (m : Memory) (a b : Nat) (v : Byte) (h : m.wf = true) (hb : b ≠ a) :
    (m.write a v).read b = m.read b := by simp [Memory.read_write m a b v h, hb]

/-- A write lists no address but its own and those listed before. -/
theorem Memory.mem_write (m : Memory) (a : Nat) (v : Byte) (c : Host.Cell) (h : c ∈ m.write a v) : c ∈ m ∨ c.1 = a := by
  induction m with
  | nil => by_cases hv : v = Memory.unlisted <;> simp_all [Memory.write]
  | cons d m ih =>
    obtain ⟨k, w⟩ := d
    simp only [Memory.write] at h
    split_ifs at h <;> simp_all
    · rcases h with h | h
      · right; rw [h]
      · left; exact h
    · rcases h with h | h
      · right; rw [h]
      · left; right; exact h
    · rcases h with h | h
      · left; left; exact h
      · rcases ih h with h | h
        · left; right; exact h
        · right; exact h

/-- The nil block is canonical. -/
@[simp] theorem Memory.wf_nil : Memory.wf [] = true := rfl

/-- OBUF and IBUF are canonical at reset. -/
theorem reset_blocks_wf : State.reset.obuf.wf = true ∧ State.reset.ibuf.wf = true := ⟨rfl, rfl⟩

end Sys2Proof.Machine
end

