-- ==== Sys2Proof/Laws/Ports.lean ====
section
/-! SUPPORT. The laws of the stream ports, the bit cursors and the bit-stream primitives. -/

namespace Sys2Proof.Machine

/-! ### Ports -/

theorem State.srcRead_some (s : State) (b : Byte) (h : s.src[s.pos]? = some b) :
    s.srcRead = (some b, { s with pos := s.pos + 1, trace := s.trace ++ [.srcRead] }) := by
  simp [State.srcRead, h]

theorem State.srcRead_none (s : State) (h : s.src[s.pos]? = none) :
    s.srcRead = (none, { s with trace := s.trace ++ [.srcRead] }) := by
  simp [State.srcRead, h]

/-- Everything SrcRead can do. -/
theorem State.srcRead_cases (s : State) :
    (∃ b, s.src[s.pos]? = some b ∧
      s.srcRead = (some b, { s with pos := s.pos + 1, trace := s.trace ++ [.srcRead] })) ∨
    (s.src.length ≤ s.pos ∧ s.srcRead = (none, { s with trace := s.trace ++ [.srcRead] })) := by
  cases h : s.src[s.pos]? with
  | some b => exact .inl ⟨b, rfl, s.srcRead_some b h⟩
  | none => exact .inr ⟨by simpa using h, s.srcRead_none h⟩

/-- SnkWrite of several bytes appends them and nothing else. -/
theorem State.snkWrites_eq (s : State) (bs : List Byte) :
    s.snkWrites bs = { s with snk := s.snk ++ bs, trace := s.trace ++ bs.map .snkWrite } := by
  induction bs generalizing s with
  | nil => simp [State.snkWrites]
  | cons b bs ih =>
    have : s.snkWrites (b :: bs) = (s.snkWrite b).snkWrites bs := rfl
    rw [this, ih]
    simp [State.snkWrite]

/-- Flush: the begun bytes are appended to the sink, and the cursor is back at (0, 0). -/
theorem State.flush_eq (s : State) :
    s.flush = (s.written,
      { s with
        snk := s.snk ++ (List.range s.written).map s.obuf.read
        trace := s.trace ++ ((List.range s.written).map s.obuf.read).map .snkWrite
        wcur := Cursor.zero }) := by
  simp [State.flush, State.snkWrites_eq]

theorem State.flush_snd (s : State) :
    s.flush.2 =
      { s with
        snk := s.snk ++ (List.range s.written).map s.obuf.read
        trace := s.trace ++ ((List.range s.written).map s.obuf.read).map .snkWrite
        wcur := Cursor.zero } := by rw [s.flush_eq]

/-! ### Cursors and bits -/

theorem putBit_getLsbD (v : Byte) (i : Fin 8) (b : Bool) (j : Nat) :
    (putBit v i b).getLsbD j = if j = i.val then b else v.getLsbD j := by
  have hi := i.isLt
  by_cases hj : j < 8
  · by_cases h : j = i.val
    · cases b <;> simp [putBit, h, hi]
    · by_cases hl : j < i.val
      · cases b <;> simp [putBit, h, hl, hj]
      · have h0 : j - i.val ≠ 0 := by omega
        cases b <;> simp [putBit, h, hj, h0]
  · have h : j ≠ i.val := by omega
    cases b <;> simp [putBit, h, BitVec.getLsbD_of_ge _ j (by omega : 8 ≤ j)]

theorem Cursor.bits_next (c : Cursor) : c.next.bits = c.bits + 1 := by
  unfold Cursor.next Cursor.bits
  have := c.bit.isLt
  by_cases h : c.bit = 7
  · simp [h]; omega
  · have h' : c.bit.val ≠ 7 := fun e => h (Fin.ext e)
    simp only [h, if_false]
    rw [Fin.val_add_one_of_lt' (by omega)]
    omega

theorem Cursor.div_bits (c : Cursor) : c.bits / 8 = c.byte := by
  have := c.bit.isLt
  unfold Cursor.bits; omega

theorem Cursor.mod_bits (c : Cursor) : c.bits % 8 = c.bit.val := by
  have := c.bit.isLt
  unfold Cursor.bits; omega

theorem Cursor.eq_of_bits {c d : Cursor} (h : c.bits = d.bits) : c = d := by
  have h1 := c.div_bits; have h2 := d.div_bits; have h3 := c.mod_bits; have h4 := d.mod_bits
  rw [h] at h1 h3
  obtain ⟨cb, ci⟩ := c; obtain ⟨db, di⟩ := d
  simp only at h1 h2 h3 h4
  have e1 : cb = db := by omega
  have e2 : ci = di := Fin.ext (by omega)
  rw [e1, e2]

/-- WriteBit changes no other byte of the block. -/
theorem State.writeBit_other (s : State) (b : Bool) (a : Nat) (hw : s.obuf.wf = true) (ha : a ≠ s.wcur.byte) :
    (s.writeBit b).obuf.read a = s.obuf.read a := by
  simp only [State.writeBit]
  split_ifs with h
  · rw [Memory.read_write_other _ _ _ _ (Memory.write_wf _ _ _ hw) ha, Memory.read_write_other _ _ _ _ hw ha]
  · rw [Memory.read_write_other _ _ _ _ hw ha]

/-- WriteBit's byte: the bit at the cursor, 0 above it in a new byte, the old bits elsewhere. -/
theorem State.writeBit_bit (s : State) (b : Bool) (j : Nat) (hw : s.obuf.wf = true) :
    ((s.writeBit b).obuf.read s.wcur.byte).getLsbD j =
      if j = s.wcur.bit.val then b else if s.wcur.bit = 0 then false else (s.obuf.read s.wcur.byte).getLsbD j := by
  simp only [State.writeBit]
  split_ifs with h h1 h2
  · rw [Memory.read_write_same _ _ _ (Memory.write_wf _ _ _ hw), putBit_getLsbD, if_pos h1]
  · rw [Memory.read_write_same _ _ _ (Memory.write_wf _ _ _ hw), putBit_getLsbD, if_neg h1,
      Memory.read_write_same _ _ _ hw]
    simp
  · rw [Memory.read_write_same _ _ _ hw, putBit_getLsbD, if_pos h2]
  · rw [Memory.read_write_same _ _ _ hw, putBit_getLsbD, if_neg h2]

theorem State.writeBit_wf (s : State) (b : Bool) (hw : s.obuf.wf = true) : (s.writeBit b).obuf.wf = true := by
  simp only [State.writeBit]
  split_ifs
  · exact Memory.write_wf _ _ _ (Memory.write_wf _ _ _ hw)
  · exact Memory.write_wf _ _ _ hw

/-- WriteBit appends its bit to the bits written. -/
theorem State.outBits_writeBit (s : State) (b : Bool) (hw : s.obuf.wf = true) :
    (s.writeBit b).outBits = s.outBits ++ [b] := by
  simp only [State.outBits, State.writeBit_wcur, Cursor.bits_next, List.range_succ, List.map_append, List.map_cons,
    List.map_nil]
  congr 1
  · apply List.map_congr_left
    intro j hj
    have hj : j < s.wcur.bits := by simpa using hj
    have hd := s.wcur.div_bits; have hm := s.wcur.mod_bits
    by_cases ha : j / 8 = s.wcur.byte
    · have hlt : j % 8 < s.wcur.bit.val := by omega
      have h0 : ¬ s.wcur.bit = 0 := fun e => by simp [e] at hlt
      rw [ha, s.writeBit_bit b _ hw, if_neg (by omega), if_neg h0]
    · rw [s.writeBit_other b _ hw ha]
  · rw [s.wcur.div_bits, s.wcur.mod_bits, s.writeBit_bit b _ hw, if_pos rfl]

end Sys2Proof.Machine
end

