-- ==== Sys2Proof/Laws/Blocks.lean ====
section
/-! SUPPORT. What Refill, NextBit and EmitBit do to the bit streams, and that they keep the blocks' invariant. -/

namespace Sys2Proof.Machine

/-- How many bytes Refill's loop takes, at most `k`. -/
abbrev State.taken (s : State) (k : Nat) : Nat := min k (s.src.length - s.pos)

/-- Everything Refill's loop does. -/
theorem refillLoop_spec (k : Nat) : ∀ (n : Nat) (s : State), s.ibuf.wf = true →
    ∃ ib, refillLoop k n s =
        (n + s.taken k,
          { s with
            ibuf := ib, pos := s.pos + s.taken k
            trace := s.trace ++ List.replicate (if s.taken k < k then s.taken k + 1 else k) .srcRead }) ∧
      ib.wf = true ∧
      (∀ a, n ≤ a → a < n + s.taken k → s.src[s.pos + (a - n)]? = some (ib.read a)) ∧
      (∀ a, a < n ∨ n + s.taken k ≤ a → ib.read a = s.ibuf.read a) ∧
      ∀ c ∈ ib, c ∈ s.ibuf ∨ (n ≤ c.1 ∧ c.1 < n + s.taken k) := by
  induction k with
  | zero =>
    intro n s hw
    exact ⟨s.ibuf, by simp [refillLoop], hw, fun a h1 h2 => by simp at h2; omega, fun _ _ => rfl, fun c hc => .inl hc⟩
  | succ k ih =>
    intro n s hw
    rcases s.srcRead_cases with ⟨b, hb, hr⟩ | ⟨hl, hr⟩
    · obtain ⟨hlt, hget⟩ := List.getElem?_eq_some_iff.mp hb
      obtain ⟨ib, e, h1, h2, h3, h4⟩ := ih (n + 1)
        { s with pos := s.pos + 1, trace := s.trace ++ [.srcRead], ibuf := s.ibuf.write n b }
        (Memory.write_wf _ _ _ hw)
      simp only at e h2 h3 h4
      have ht : s.taken (k + 1) = min k (s.src.length - (s.pos + 1)) + 1 := by
        simp only [State.taken]; omega
      rw [ht]
      simp only [State.taken] at e h2 h3 h4
      generalize min k (s.src.length - (s.pos + 1)) = m at e h2 h3 h4 ⊢
      refine ⟨ib, ?_, h1, ?_, ?_, ?_⟩
      · simp only [refillLoop, hr, e]
        have e1 : n + 1 + m = n + (m + 1) := by omega
        have e2 : s.pos + 1 + m = s.pos + (m + 1) := by omega
        rw [e1, e2]
        by_cases hm : m < k
        · have hm' : m + 1 < k + 1 := by omega
          simp [hm, List.replicate_succ]
        · have hm' : ¬ m + 1 < k + 1 := by omega
          simp [hm, List.replicate_succ]
      · intro a ha1 ha2
        by_cases ha : a = n
        · subst ha
          rw [h3 a (.inl (by omega)), Memory.read_write_same _ _ _ hw]
          simpa using hb
        · have := h2 a (by omega) (by omega)
          rwa [show s.pos + 1 + (a - (n + 1)) = s.pos + (a - n) by omega] at this
      · intro a ha
        rw [h3 a (by omega), Memory.read_write_other _ _ _ _ hw (by omega)]
      · intro c hc
        rcases h4 c hc with h | h
        · rcases Memory.mem_write _ _ _ _ h with h | h
          · exact .inl h
          · exact .inr (by omega)
        · exact .inr (by omega)
    · have ht : s.taken (k + 1) = 0 := by simp only [State.taken]; omega
      rw [ht]
      refine ⟨s.ibuf, ?_, hw, fun a h1 h2 => by omega, fun _ _ => rfl, fun c hc => .inl hc⟩
      simp [refillLoop, hr]

/-- Everything Refill does (R133). -/
theorem State.refill_spec (s : State) (hw : s.ibuf.wf = true) :
    ∃ ib tr, s.refill =
        (s.taken s.cfg.blockBytes,
          { s with
            ibuf := ib, ifill := s.taken s.cfg.blockBytes, rcur := Cursor.zero
            pos := s.pos + s.taken s.cfg.blockBytes, trace := tr }) ∧
      ib.wf = true ∧
      (∀ a, a < s.taken s.cfg.blockBytes → s.src[s.pos + a]? = some (ib.read a)) ∧
      (∀ a, s.taken s.cfg.blockBytes ≤ a → ib.read a = s.ibuf.read a) ∧
      ∀ c ∈ ib, c ∈ s.ibuf ∨ c.1 < s.taken s.cfg.blockBytes := by
  obtain ⟨ib, e, h1, h2, h3, h4⟩ := refillLoop_spec s.cfg.blockBytes 0 s hw
  refine ⟨ib, s.trace ++ List.replicate
      (if s.taken s.cfg.blockBytes < s.cfg.blockBytes then s.taken s.cfg.blockBytes + 1 else s.cfg.blockBytes) .srcRead,
    ?_, h1, ?_, ?_, ?_⟩
  · simp [State.refill, e]
  · intro a ha
    have := h2 a (Nat.zero_le a) (by omega)
    simpa using this
  · intro a ha
    exact h3 a (.inr (by omega))
  · intro c hc
    rcases h4 c hc with h | h
    · exact .inl h
    · exact .inr (by omega)

/-! ### The input stream -/

theorem bytesBits_cons (b : Byte) (bs : List Byte) : bytesBits (b :: bs) = byteBits b ++ bytesBits bs := by
  simp [bytesBits]

theorem bytesBits_append (a b : List Byte) : bytesBits (a ++ b) = bytesBits a ++ bytesBits b := by
  simp [bytesBits]

@[simp] theorem byteBits_length (b : Byte) : (byteBits b).length = 8 := by simp [byteBits]

@[simp] theorem bytesBits_length (bs : List Byte) : (bytesBits bs).length = 8 * bs.length := by
  induction bs with
  | nil => rfl
  | cons b bs ih => rw [bytesBits_cons, List.length_append, ih]; simp; omega

/-- Bit j of a byte sequence is bit (j mod 8) of byte (j div 8) (R86). -/
theorem bytesBits_get (bs : List Byte) (j : Nat) (h : j < 8 * bs.length) :
    (bytesBits bs)[j]? = some ((bs[j / 8]?.getD 0).getLsbD (j % 8)) := by
  induction bs generalizing j with
  | nil => simp at h
  | cons b bs ih =>
    rw [bytesBits_cons]
    by_cases hj : j < 8
    · rw [List.getElem?_append_left (by simpa using hj)]
      have h0 : j / 8 = 0 := by omega
      have h1 : j % 8 = j := by omega
      simp [byteBits, hj, h0, h1]
    · have hlen : j < 8 * (bs.length + 1) := by simpa using h
      have e : j / 8 = (j - 8) / 8 + 1 := by omega
      have e' : j % 8 = (j - 8) % 8 := by omega
      rw [List.getElem?_append_right (by simpa using hj), byteBits_length, ih (j - 8) (by omega), e, e']
      simp

/-- The bytes of a refilled block are the next source bytes. -/
theorem bits_of_read (m : Memory) (src : List Byte) (p n : Nat) (hn : p + n ≤ src.length)
    (h : ∀ a, a < n → src[p + a]? = some (m.read a)) :
    (List.range (8 * n)).map (fun j => (m.read (j / 8)).getLsbD (j % 8)) = bytesBits ((src.drop p).take n) := by
  apply List.ext_getElem?
  intro j
  have hl : ((src.drop p).take n).length = n := by simp; omega
  by_cases hj : j < 8 * n
  · rw [bytesBits_get _ _ (by omega)]
    have hd : j / 8 < n := by omega
    simp [hj, hd, h _ hd]
  · rw [List.getElem?_eq_none (by simp; omega), List.getElem?_eq_none (by simp; omega)]

theorem State.blockBits_empty (s : State) (h : s.ifill = s.rcur.byte) : s.blockBits = [] := by
  have : 8 * s.ifill - s.rcur.bits = 0 := by unfold Cursor.bits; omega
  simp [State.blockBits, this]

/-- ReadBit takes the first bit of the block's. -/
theorem State.blockBits_readBit (s : State) (h : s.rcur.byte < s.ifill) :
    s.blockBits = s.readBit.1 :: s.readBit.2.blockBits := by
  have hlt : s.rcur.bits < 8 * s.ifill := by have := s.rcur.bit.isLt; unfold Cursor.bits; omega
  have e : 8 * s.ifill - s.rcur.bits = (8 * s.ifill - (s.rcur.bits + 1)) + 1 := by omega
  simp only [State.blockBits, State.readBit, Cursor.bits_next]
  rw [e, List.range_succ_eq_map]
  simp only [List.map_cons, List.map_map, Nat.add_zero, s.rcur.div_bits, s.rcur.mod_bits]
  congr 1
  apply List.map_congr_left
  intro j _
  simp only [Function.comp, Nat.succ_eq_add_one]
  rw [show s.rcur.bits + (j + 1) = s.rcur.bits + 1 + j by omega]

theorem Cursor.next_le (c : Cursor) (n : Nat) (h : c.byte < n) :
    c.next.byte ≤ n ∧ (c.next.byte = n → c.next.bit = 0) := by
  unfold Cursor.next
  split_ifs
  · exact ⟨by simpa using h, fun _ => rfl⟩
  · exact ⟨by simpa using h.le, fun e => by simp at e; omega⟩

theorem BufInv.readBit {s : State} (hb : BufInv s) (h : s.rcur.byte < s.ifill) : BufInv s.readBit.2 :=
  have hn := s.rcur.next_le s.ifill h
  { block := hb.block, wcurByte := hb.wcurByte, wcurBit := hb.wcurBit, ifillMax := hb.ifillMax
    rcurByte := hn.1, rcurBit := hn.2, obufWf := hb.obufWf, obufIn := hb.obufIn, ibufWf := hb.ibufWf
    ibufIn := hb.ibufIn, begun := hb.begun }

/-- Refill empties the block's bits and takes its bits from the source (R133). -/
theorem State.refill_bits (s : State) (hb : BufInv s) (hp : s.pos ≤ s.src.length) :
    BufInv s.refill.2 ∧ s.refill.2.inBits = bytesBits (s.src.drop s.pos) ∧
    s.refill.1 = s.taken s.cfg.blockBytes ∧ s.refill.2.ifill = s.refill.1 ∧ s.refill.2.rcur = Cursor.zero ∧
    s.refill.2.pos = s.pos + s.refill.1 ∧
    s.refill.2 = { s with
      ibuf := s.refill.2.ibuf, ifill := s.refill.2.ifill, rcur := s.refill.2.rcur, pos := s.refill.2.pos
      trace := s.refill.2.trace } := by
  obtain ⟨ib, tr, e, h1, h2, -, h4⟩ := s.refill_spec hb.ibufWf
  have hm : s.pos + s.taken s.cfg.blockBytes ≤ s.src.length := by simp only [State.taken]; omega
  have hBB : s.taken s.cfg.blockBytes ≤ s.cfg.blockBytes := by simp only [State.taken]; omega
  rw [e]
  refine ⟨?_, ?_, rfl, rfl, rfl, rfl, rfl⟩
  · exact
      { block := hb.block, wcurByte := hb.wcurByte, wcurBit := hb.wcurBit, ifillMax := hBB
        rcurByte := Nat.zero_le _, rcurBit := fun _ => rfl, obufWf := hb.obufWf, obufIn := hb.obufIn, ibufWf := h1
        ibufIn := fun c hc => (h4 c hc).elim (hb.ibufIn c) fun h => lt_of_lt_of_le h hBB
        begun := hb.begun }
  · simp only [State.inBits, State.blockBits, Cursor.zero, Cursor.bits]
    rw [← List.drop_drop]
    conv_rhs => rw [← List.take_append_drop (s.taken s.cfg.blockBytes) (s.src.drop s.pos)]
    rw [bytesBits_append]
    congr 1
    have := bits_of_read ib s.src s.pos _ hm h2
    simpa using this

/-- Everything NextBit does (R141): it returns the first bit of the input stream, or EOF when there is none. -/
theorem State.nextBit_spec (s : State) (hb : BufInv s) (hp : s.pos ≤ s.src.length) :
    BufInv s.nextBit.2 ∧ s.nextBit.2.pos ≤ s.nextBit.2.src.length ∧
    s.nextBit.2 = { s with
      ibuf := s.nextBit.2.ibuf, ifill := s.nextBit.2.ifill, rcur := s.nextBit.2.rcur, pos := s.nextBit.2.pos
      trace := s.nextBit.2.trace } ∧
    ((∃ b, s.nextBit.1 = some b ∧ s.inBits = b :: s.nextBit.2.inBits) ∨
     (s.nextBit.1 = none ∧ s.inBits = [] ∧ s.nextBit.2.inBits = [] ∧ s.nextBit.2.ifill = 0 ∧
      s.nextBit.2.rcur = Cursor.zero ∧ s.nextBit.2.pos = s.src.length)) := by
  by_cases h : s.rcur.byte = s.ifill
  · obtain ⟨r1, r2, r3, r4, r5, r6, r7⟩ := s.refill_bits hb hp
    have hin : s.inBits = bytesBits (s.src.drop s.pos) := by simp [State.inBits, s.blockBits_empty h.symm]
    have hsrc : s.refill.2.src = s.src := by rw [r7]
    have hpos : s.refill.2.pos ≤ s.src.length := by rw [r6, r3]; simp only [State.taken]; omega
    by_cases h0 : s.refill.1 = 0
    · have e : s.nextBit = (none, s.refill.2) := by simp [State.nextBit, h, h0]
      have hend : s.pos = s.src.length := by
        have := hb.block; rw [r3] at h0; simp only [State.taken] at h0; omega
      have hnil : bytesBits (s.src.drop s.pos) = [] := by simp [hend, bytesBits]
      rw [e]
      exact ⟨r1, by rw [hsrc]; exact hpos, r7,
        .inr ⟨rfl, by rw [hin, hnil], by rw [r2, hnil], by rw [r4, h0], r5, by rw [r6, h0, hend]; rfl⟩⟩
    · have e : s.nextBit = (some s.refill.2.readBit.1, s.refill.2.readBit.2) := by simp [State.nextBit, h, h0]
      have hlt : s.refill.2.rcur.byte < s.refill.2.ifill := by
        rw [r5, r4]; exact Nat.pos_of_ne_zero h0
      rw [e]
      refine ⟨r1.readBit hlt, ?_, ?_, .inl ⟨_, rfl, ?_⟩⟩
      · simpa [State.readBit, hsrc] using hpos
      · conv_lhs => simp only [State.readBit]
        rw [r7]
        rfl
      · rw [hin, ← r2]
        simp only [State.inBits]
        rw [s.refill.2.blockBits_readBit hlt]
        rfl
  · have hlt : s.rcur.byte < s.ifill := lt_of_le_of_ne hb.rcurByte h
    have e : s.nextBit = (some s.readBit.1, s.readBit.2) := by simp [State.nextBit, h]
    rw [e]
    refine ⟨hb.readBit hlt, hp, rfl, .inl ⟨_, rfl, ?_⟩⟩
    simp only [State.inBits]
    rw [s.blockBits_readBit hlt]
    rfl

/-! ### The output stream -/

theorem BufInv.writeBit {s : State} (hb : BufInv s) (h : s.wcur.byte < s.cfg.blockBytes) (b : Bool) :
    BufInv (s.writeBit b) := by
  have hn := s.wcur.next_le s.cfg.blockBytes h
  refine
    { block := hb.block, wcurByte := hn.1, wcurBit := hn.2, ifillMax := hb.ifillMax, rcurByte := hb.rcurByte
      rcurBit := hb.rcurBit, obufWf := s.writeBit_wf b hb.obufWf, obufIn := ?_, ibufWf := hb.ibufWf
      ibufIn := hb.ibufIn, begun := ?_ }
  · intro c hc
    have step : ∀ (m : Memory) (v : Byte), (∀ c ∈ m, c.1 < s.cfg.blockBytes) →
        ∀ c ∈ m.write s.wcur.byte v, c.1 < s.cfg.blockBytes := by
      intro m v hm c hc
      rcases Memory.mem_write _ _ _ _ hc with h' | h'
      · exact hm c h'
      · rw [h']; exact h
    simp only [State.writeBit] at hc
    split_ifs at hc
    · exact step _ _ (step _ _ hb.obufIn) c hc
    · exact step _ _ hb.obufIn c hc
  · intro h0 j hj
    rw [State.writeBit_wcur] at h0 hj ⊢
    unfold Cursor.next at h0 hj ⊢
    split_ifs at h0 hj ⊢ with h7
    · simp at h0
    · have h7' : s.wcur.bit.val ≠ 7 := fun e => h7 (Fin.ext e)
      have hv : (s.wcur.bit + 1).val = s.wcur.bit.val + 1 := Fin.val_add_one_of_lt' (by omega)
      simp only [hv] at hj
      simp only
      rw [s.writeBit_bit b j hb.obufWf, if_neg (by omega)]
      split_ifs with hz
      · rfl
      · exact hb.begun hz j (by omega)

/-- Flush keeps the blocks' invariant. -/
theorem BufInv.flush {s : State} (hb : BufInv s) : BufInv s.flush.2 := by
  rw [s.flush_snd]
  exact
    { block := hb.block, wcurByte := Nat.zero_le _, wcurBit := fun _ => rfl, ifillMax := hb.ifillMax
      rcurByte := hb.rcurByte, rcurBit := hb.rcurBit, obufWf := hb.obufWf, obufIn := hb.obufIn, ibufWf := hb.ibufWf
      ibufIn := hb.ibufIn, begun := fun h => absurd rfl h }

/-- Flushing a full block sends exactly the bits written. -/
theorem State.flush_full (s : State) (h : s.wcur.bit = 0) :
    bytesBits s.flush.2.snk ++ s.flush.2.outBits = bytesBits s.snk ++ s.outBits ∧
    s.flush.2.snk.length = s.snk.length + s.wcur.byte := by
  rw [s.flush_snd]
  have hw : s.written = s.wcur.byte := by simp [State.written, h]
  have hbits : s.wcur.bits = 8 * s.wcur.byte := by simp [Cursor.bits, h]; omega
  refine ⟨?_, by simp [hw]⟩
  simp only [State.outBits, Cursor.zero, Cursor.bits, hw]
  simp only [Nat.zero_mul, Fin.val_zero, Nat.add_zero, List.range_zero, List.map_nil, List.append_nil, bytesBits_append]
  congr 1
  have key : bytesBits ((List.range s.wcur.byte).map s.obuf.read) =
      (List.range (8 * s.wcur.byte)).map fun j => (s.obuf.read (j / 8)).getLsbD (j % 8) := by
    apply List.ext_getElem?
    intro j
    by_cases hj : j < 8 * s.wcur.byte
    · rw [bytesBits_get _ _ (by simpa using hj)]
      have hd : j / 8 < s.wcur.byte := by omega
      simp [hj, hd]
    · rw [List.getElem?_eq_none (by simp; omega), List.getElem?_eq_none (by simp; omega)]
  rw [key]
  simp [h, Nat.mul_comm]

/-- Everything Flush-if-full does. -/
theorem State.flushIfFull_spec (s : State) (hb : BufInv s) :
    BufInv s.flushIfFull ∧ s.flushIfFull.wcur.byte < s.cfg.blockBytes ∧
    bytesBits s.flushIfFull.snk ++ s.flushIfFull.outBits = bytesBits s.snk ++ s.outBits ∧ s.snk <+: s.flushIfFull.snk ∧
    (s.flushIfFull.snk.length = s.snk.length ∨ s.flushIfFull.snk.length = s.snk.length + s.cfg.blockBytes) ∧
    s.flushIfFull = { s with
      wcur := s.flushIfFull.wcur, snk := s.flushIfFull.snk, trace := s.flushIfFull.trace } := by
  by_cases h : s.wcur.byte = s.cfg.blockBytes
  · have e : s.flushIfFull = s.flush.2 := by simp [State.flushIfFull, h]
    have hf := s.flush_full (hb.wcurBit h)
    rw [e]
    refine ⟨hb.flush, ?_, hf.1, ?_, .inr (by rw [hf.2, h]), ?_⟩
    · rw [s.flush_snd]; exact hb.block
    · rw [s.flush_snd]; exact List.prefix_append _ _
    · rw [s.flush_snd]
  · have e : s.flushIfFull = s := by simp [State.flushIfFull, h]
    rw [e]
    exact ⟨hb, lt_of_le_of_ne hb.wcurByte h, rfl, List.prefix_rfl, .inl rfl, rfl⟩

/-- Everything EmitBit does (R134): its bit joins the output stream, and whole blocks go to the sink. -/
theorem State.emitBit_spec (s : State) (b : Bool) (hb : BufInv s) :
    BufInv (s.emitBit b) ∧
    bytesBits (s.emitBit b).snk ++ (s.emitBit b).outBits = bytesBits s.snk ++ s.outBits ++ [b] ∧
    s.snk <+: (s.emitBit b).snk ∧ (∃ m, (s.emitBit b).snk.length = s.snk.length + m * s.cfg.blockBytes) ∧
    s.emitBit b = { s with
      obuf := (s.emitBit b).obuf, wcur := (s.emitBit b).wcur, snk := (s.emitBit b).snk
      trace := (s.emitBit b).trace } := by
  obtain ⟨a1, a2, a3, a4, a5, a6⟩ := s.flushIfFull_spec hb
  have hcfg : s.flushIfFull.cfg = s.cfg := by rw [a6]
  have hw := a1.writeBit (by rw [hcfg]; exact a2) b
  obtain ⟨c1, -, c3, c4, c5, c6⟩ := (s.flushIfFull.writeBit b).flushIfFull_spec hw
  have e : s.emitBit b = (s.flushIfFull.writeBit b).flushIfFull := rfl
  rw [e]
  refine ⟨c1, ?_, a4.trans c4, ?_, ?_⟩
  · rw [c3, State.outBits_writeBit _ _ a1.obufWf, State.writeBit_snk, ← List.append_assoc, a3]
  · have hc : (s.flushIfFull.writeBit b).cfg.blockBytes = s.cfg.blockBytes := by rw [State.writeBit_cfg, hcfg]
    rw [State.writeBit_snk, hc] at c5
    rcases a5 with a5 | a5 <;> rcases c5 with c5 | c5
    · exact ⟨0, by omega⟩
    · exact ⟨1, by omega⟩
    · exact ⟨1, by omega⟩
    · exact ⟨2, by omega⟩
  · rw [c6]
    simp only [State.writeBit]
    rw [a6]

/-- EmitBit leaves no full block unsent (R134). -/
theorem State.emitBit_wcur (s : State) (b : Bool) (hb : BufInv s) : (s.emitBit b).wcur.byte < s.cfg.blockBytes := by
  obtain ⟨a1, a2, -, -, -, a6⟩ := s.flushIfFull_spec hb
  have hcfg : s.flushIfFull.cfg = s.cfg := by rw [a6]
  obtain ⟨-, c2, -⟩ := (s.flushIfFull.writeBit b).flushIfFull_spec (a1.writeBit (by rw [hcfg]; exact a2) b)
  rwa [State.writeBit_cfg, hcfg] at c2

/-- Several EmitBits in order. -/
theorem State.emitBits_spec (bits : List Bool) (s : State) (hb : BufInv s) :
    BufInv (bits.foldl State.emitBit s) ∧
    bytesBits (bits.foldl State.emitBit s).snk ++ (bits.foldl State.emitBit s).outBits =
      bytesBits s.snk ++ s.outBits ++ bits ∧
    s.snk <+: (bits.foldl State.emitBit s).snk ∧
    (∃ m, (bits.foldl State.emitBit s).snk.length = s.snk.length + m * s.cfg.blockBytes) ∧
    bits.foldl State.emitBit s = { s with
      obuf := (bits.foldl State.emitBit s).obuf, wcur := (bits.foldl State.emitBit s).wcur
      snk := (bits.foldl State.emitBit s).snk, trace := (bits.foldl State.emitBit s).trace } := by
  induction bits generalizing s with
  | nil => exact ⟨hb, by simp, List.prefix_rfl, ⟨0, by simp⟩, rfl⟩
  | cons b bits ih =>
    obtain ⟨a1, a2, a3, ⟨m, a4⟩, a5⟩ := s.emitBit_spec b hb
    obtain ⟨c1, c2, c3, ⟨m', c4⟩, c5⟩ := ih (s.emitBit b) a1
    have hcfg : (s.emitBit b).cfg = s.cfg := by rw [a5]
    rw [List.foldl_cons]
    refine ⟨c1, ?_, a3.trans c3, ⟨m + m', ?_⟩, ?_⟩
    · rw [c2, a2]; simp
    · rw [c4, a4, hcfg, Nat.add_mul]; omega
    · rw [c5]
      rw [a5]

/-- Several EmitBits leave no full block unsent. -/
theorem State.emitBits_wcur (bits : List Bool) (s : State) (hb : BufInv s) (h : bits ≠ []) :
    (bits.foldl State.emitBit s).wcur.byte < s.cfg.blockBytes := by
  induction bits generalizing s with
  | nil => exact absurd rfl h
  | cons b bits ih =>
    obtain ⟨a1, -, -, -, a5⟩ := s.emitBit_spec b hb
    rw [List.foldl_cons]
    by_cases hn : bits = []
    · rw [hn]
      exact s.emitBit_wcur b hb
    · have := ih (s.emitBit b) a1 hn
      rwa [show (s.emitBit b).cfg = s.cfg by rw [a5]] at this

end Sys2Proof.Machine
end

