-- ==== Sys2Proof/Laws/Tables.lean ====
section
/-! SUPPORT. What the parts of the table commands do: counting, the priority structure and its merges, code walks,
and the bytes of an archive's header. -/

namespace Sys2Proof.Machine

/-! ### Counting -/

theorem allOnes64_toNat : allOnes64.toNat + 1 = w64 := by decide

theorem ne_allOnes_iff (v : Word) : v ≠ allOnes64 ↔ v.toNat + 1 < w64 := by
  have h := v.isLt
  have e := allOnes64_toNat
  constructor
  · intro hv
    have : v.toNat ≠ allOnes64.toNat := fun h' => hv (BitVec.eq_of_toNat_eq h')
    simp only [w64_eq] at e ⊢
    omega
  · rintro hv rfl
    omega

theorem add_one_toNat (v : Word) (h : v.toNat + 1 < w64) : (v + 1).toNat = v.toNat + 1 := by
  simp only [w64_eq] at h
  rw [BitVec.toNat_add]
  simp
  omega

/-- Everything Tally does (R168). -/
theorem State.tally_cases (s : State) (b : Nat) :
    ((s.freqAt b).toNat + 1 < w64 ∧ s.total.toNat + 1 < w64 ∧
      s.tally b = .ok () { s.setFreq b (s.freqAt b + 1) with total := s.total + 1 }) ∨
    (((s.freqAt b).toNat + 1 = w64 ∨ s.total.toNat + 1 = w64) ∧ s.tally b = .raised .wovf s) := by
  have h1 := ne_allOnes_iff (s.freqAt b)
  have h2 := ne_allOnes_iff s.total
  have b1 := (s.freqAt b).isLt
  have b2 := s.total.isLt
  unfold State.tally
  split_ifs with h
  · refine .inr ⟨?_, rfl⟩
    rcases h with h | h
    · exact .inl (by rw [h]; exact allOnes64_toNat)
    · exact .inr (by rw [h]; exact allOnes64_toNat)
  · have h := not_or.mp h
    exact .inl ⟨h1.mp h.1, h2.mp h.2, rfl⟩

/-- Everything the counting loop does when no count can reach 2^64 (R162). -/
theorem countLoop_spec (k : Nat) : ∀ s : State, s.src.length - s.pos < k →
    s.total.toNat + (s.src.length - s.pos) < w64 →
    (∀ b, b < nSym → (s.freqAt b).toNat + (s.src.drop s.pos).count (BitVec.ofNat 8 b) < w64) →
    ∃ t, countLoop k s = .ok () t ∧
      t = { s with freq := t.freq, total := t.total, pos := max s.pos s.src.length, trace := t.trace } ∧
      t.trace = s.trace ++ List.replicate (s.src.length - s.pos + 1) .srcRead ∧
      t.total.toNat = s.total.toNat + (s.src.length - s.pos) ∧
      ∀ b, b < nSym → (t.freqAt b).toNat = (s.freqAt b).toNat + (s.src.drop s.pos).count (BitVec.ofNat 8 b) := by
  induction k with
  | zero => intro s hk; omega
  | succ k ih =>
    intro s hk ht hf
    rcases s.srcRead_cases with ⟨c, hc, hr⟩ | ⟨hl, hr⟩
    · obtain ⟨hlt, hget⟩ := List.getElem?_eq_some_iff.mp hc
      have hd : s.src.drop s.pos = c :: s.src.drop (s.pos + 1) := by
        rw [List.drop_eq_getElem_cons hlt, hget]
      have hcn : c.toNat < nSym := c.isLt
      have hcc : BitVec.ofNat 8 c.toNat = c := by simp
      have hcnt := hf c.toNat hcn
      rw [hd, hcc, List.count_cons_self] at hcnt
      let s1 : State := { s with pos := s.pos + 1, trace := s.trace ++ [.srcRead] }
      have e1 : (s1.freqAt c.toNat).toNat + 1 < w64 := by
        show (s.freqAt c.toNat).toNat + 1 < w64
        omega
      have e2 : s1.total.toNat + 1 < w64 := by
        show s.total.toNat + 1 < w64
        omega
      have htally : s1.tally c.toNat =
          .ok () { s1.setFreq c.toNat (s1.freqAt c.toNat + 1) with total := s1.total + 1 } := by
        rcases s1.tally_cases c.toNat with ⟨-, -, h⟩ | ⟨h, -⟩
        · exact h
        · omega
      let s2 : State := { s1.setFreq c.toNat (s1.freqAt c.toNat + 1) with total := s1.total + 1 }
      have htot : s2.total.toNat = s.total.toNat + 1 := add_one_toNat _ e2
      have hfr : ∀ b, b < nSym → (s2.freqAt b).toNat = (s.freqAt b).toNat + if b = c.toNat then 1 else 0 := by
        intro b hb
        have h := State.freqAt_setFreq s1 c.toNat b (s1.freqAt c.toNat + 1)
        have h' : s2.freqAt b = (s1.setFreq c.toNat (s1.freqAt c.toNat + 1)).freqAt b := rfl
        rw [h', h]
        by_cases hbc : b = c.toNat
        · subst hbc
          rw [if_pos ⟨rfl, hcn⟩, if_pos rfl]
          exact add_one_toNat _ e1
        · rw [if_neg (fun h => hbc h.1), if_neg hbc]
          rfl
      have hcount : ∀ b, b < nSym → (s.src.drop s.pos).count (BitVec.ofNat 8 b) =
          (s.src.drop (s.pos + 1)).count (BitVec.ofNat 8 b) + if b = c.toNat then 1 else 0 := by
        intro b hb
        rw [hd, List.count_cons]
        congr 1
        have : (c == BitVec.ofNat 8 b) = decide (b = c.toNat) := by
          rw [Bool.eq_iff_iff]
          simp only [beq_iff_eq, decide_eq_true_eq]
          constructor
          · rintro rfl
            simp only [nSym_eq] at hb
            simp; omega
          · rintro rfl
            simp
        rw [this]
        simp
      have hsrc : s2.src = s.src := rfl
      have hpos : s2.pos = s.pos + 1 := rfl
      have htr : s2.trace = s.trace ++ [.srcRead] := rfl
      obtain ⟨t, f1, f2, f3, f4, f5⟩ := ih s2 (by rw [hsrc, hpos]; omega)
        (by rw [htot, hsrc, hpos]; omega)
        (fun b hb => by
          have h1 := hf b hb
          rw [hcount b hb] at h1
          rw [hsrc, hpos, hfr b hb]; omega)
      refine ⟨t, ?_, ?_, ?_, ?_, ?_⟩
      · show (match s.srcRead with
          | (none, s) => Flow.ok () s
          | (some c, s) => (s.tally c.toNat).bind fun _ s => countLoop k s) = _
        rw [hr]
        show (s1.tally c.toNat).bind (fun _ s => countLoop k s) = _
        rw [htally]
        exact f1
      · have : max s2.pos s2.src.length = max s.pos s.src.length := by rw [hsrc, hpos]; omega
        rw [this] at f2
        exact f2
      · rw [f3, htr, hsrc, hpos, show s.src.length - s.pos + 1 = (s.src.length - (s.pos + 1) + 1) + 1 by omega,
          List.replicate_succ (n := s.src.length - (s.pos + 1) + 1)]
        simp
      · rw [f4, htot, hsrc, hpos]; omega
      · intro b hb
        rw [f5 b hb, hfr b hb, hcount b hb, hsrc, hpos]; omega
    · have hnil : s.src.drop s.pos = [] := List.drop_eq_nil_of_le hl
      have hz : s.src.length - s.pos = 0 := by omega
      refine ⟨{ s with trace := s.trace ++ [.srcRead] }, ?_, ?_, ?_, ?_, ?_⟩
      · simp [countLoop, hr]
      · rw [Nat.max_eq_left hl]
      · simp [hz]
      · simp [hz]
      · intro b hb
        rw [hnil]
        rfl

/-! ### The priority structure -/

theorem Key.before_iff (a b : Key) :
    a.before b = true ↔
      a.weight.toNat < b.weight.toNat ∨ (a.weight.toNat = b.weight.toNat ∧ a.index.toNat < b.index.toNat) := by
  simp only [Key.before, Bool.or_eq_true, Bool.and_eq_true, decide_eq_true_eq, BitVec.lt_def]
  constructor
  · rintro (h | ⟨h, h'⟩)
    · exact .inl h
    · exact .inr ⟨by rw [h], h'⟩
  · rintro (h | ⟨h, h'⟩)
    · exact .inl h
    · exact .inr ⟨BitVec.eq_of_toNat_eq h, h'⟩

theorem Key.before_trans {a b c : Key} (h : a.before b = true) (h' : b.before c = true) : a.before c = true := by
  rw [Key.before_iff] at *
  omega

/-- Of two keys with different indices, one comes first. -/
theorem Key.before_total {a b : Key} (h : a.index ≠ b.index) : a.before b = true ∨ b.before a = true := by
  have : a.index.toNat ≠ b.index.toNat := fun e => h (BitVec.eq_of_toNat_eq e)
  simp only [Key.before_iff]
  omega

/-- Insertion adds its key and nothing else. -/
theorem pqInsert_perm (k : Key) (q : List Key) : (pqInsert k q).Perm (k :: q) := by
  induction q with
  | nil => exact List.Perm.refl _
  | cons x q ih =>
    simp only [pqInsert]
    split_ifs
    · exact List.Perm.refl _
    · exact (ih.cons x).trans (List.Perm.swap k x q)

/-- Insertion of a new index keeps the keys in rising order (R26, R192). -/
theorem pqInsert_pairwise (k : Key) (q : List Key) (hk : ∀ x ∈ q, x.index ≠ k.index)
    (hq : q.Pairwise fun x y => x.before y = true) : (pqInsert k q).Pairwise fun x y => x.before y = true := by
  induction q with
  | nil => simp [pqInsert]
  | cons x q ih =>
    obtain ⟨hx, hq'⟩ := List.pairwise_cons.mp hq
    simp only [pqInsert]
    split_ifs with h
    · refine List.pairwise_cons.mpr ⟨fun y hy => ?_, hq⟩
      rcases List.mem_cons.mp hy with rfl | hy
      · exact h
      · exact Key.before_trans h (hx y hy)
    · refine List.pairwise_cons.mpr ⟨fun y hy => ?_, ih (fun y hy => hk y (List.mem_cons_of_mem _ hy)) hq'⟩
      rcases List.mem_cons.mp ((pqInsert_perm k q).mem_iff.mp hy) with rfl | hy
      · exact (Key.before_total (hk x List.mem_cons_self)).resolve_right h
      · exact hx y hy

/-- Everything MergeStep can do (R193). -/
theorem State.mergeStep_cases (s : State) (k : Nat) (a b : Key) (q : List Key) (h : s.pq = a :: b :: q) :
    (w64 ≤ a.weight.toNat + b.weight.toNat ∧ s.mergeStep k = .raised .wovf s) ∨
    (a.weight.toNat + b.weight.toNat < w64 ∧ s.mergeStep k = .ok () (s.merge (256 + k) a b q)) := by
  unfold State.mergeStep
  rw [h]
  simp only
  split_ifs with hw
  · exact .inl ⟨hw, rfl⟩
  · exact .inr ⟨Nat.lt_of_not_le hw, rfl⟩

/-- A sum that fits is the sum of the numbers. -/
theorem add_toNat_of_lt (a b : Word) (h : a.toNat + b.toNat < w64) : (a + b).toNat = a.toNat + b.toNat := by
  simp only [w64_eq] at h
  rw [BitVec.toNat_add]
  omega

/-- Everything the tree build can do (R190, R193), by how its merges end. Cite this instead of unfolding treeBuild: the
kernel evaluates whatever a match stands on. -/
theorem State.treeBuild_cases (s : State) :
    (∃ t, mergeAll s.clearTables.treeInit.pqSeed = .ok () t ∧ s.treeBuild = .ok () t.treeFinish.markBuilt) ∨
    ∃ e t, mergeAll s.clearTables.treeInit.pqSeed = .raised e t ∧ s.treeBuild = .raised e { t with pq := [] } := by
  unfold State.treeBuild
  cases mergeAll s.clearTables.treeInit.pqSeed with
  | ok _ t => exact .inl ⟨t, rfl, rfl⟩
  | raised e t => exact .inr ⟨e, t, rfl, rfl⟩

/-! ### Codes -/

/-- A walk of at most `k` links finds at most `k` bits. -/
theorem pathUp_length (node : Vector Node 511) (k : Nat) : ∀ (n : Nat) (below p : List Bool),
    pathUp node k n below = some p → below.length ≤ p.length ∧ p.length ≤ below.length + k := by
  induction k with
  | zero =>
    intro n below p h
    simp only [pathUp] at h
    split_ifs at h
    cases h; omega
  | succ k ih =>
    intro n below p h
    simp only [pathUp] at h
    split_ifs at h
    · cases h; omega
    · have := ih _ _ _ h
      simp only [List.length_cons] at this
      omega

/-- A code is at most 255 bits long (R12). -/
theorem codePath_length (node : Vector Node 511) (i : Nat) (p : List Bool) (h : codePath node i = some p) :
    p.length ≤ codeMax := by
  have := (pathUp_length node codeMax i [] p h).2
  simpa using this

/-- Bit j of a code as CODE holds it (R54). -/
theorem codeBits_getLsbD (p : List Bool) (j : Nat) (hp : p.length ≤ 255) :
    (codeBits p).getLsbD j = p[j]?.getD false := by
  induction p generalizing j with
  | nil => simp [codeBits]
  | cons b p ih =>
    simp only [codeBits, BitVec.getLsbD_or, BitVec.getLsbD_shiftLeft, BitVec.getLsbD_setWidth]
    simp only [List.length_cons] at hp
    cases j with
    | zero => cases b <;> simp
    | succ j =>
      have h0 : (BitVec.ofBool b).getLsbD (j + 1) = false := BitVec.getLsbD_of_ge _ _ (by omega)
      simp only [Nat.add_sub_cancel, h0, ih j (by omega), List.getElem?_cons_succ]
      by_cases hj : j + 1 < 255
      · simp [hj]
      · have : p[j]? = none := by simp; omega
        simp [this]

theorem State.lenAt_codeWalks (s : State) (i : Nat) (h : i < nSym) :
    s.codeWalks.lenAt i = BitVec.ofNat 8 ((codePath s.node i).getD []).length := by
  simp [State.lenAt, State.codeWalks, getElem?_symbolTable _ i h]

theorem State.codeAt_codeWalks (s : State) (i : Nat) (h : i < nSym) :
    s.codeWalks.codeAt i = codeBits ((codePath s.node i).getD []) := by
  simp [State.codeAt, State.codeWalks, getElem?_symbolTable _ i h]

/-- The code CodeWalk leaves for a symbol is its path (R54, R221). -/
theorem State.codeOf_codeWalks (s : State) (i : Nat) (p : List Bool) (h : i < nSym) (hp : codePath s.node i = some p) :
    s.codeWalks.codeOf i = p := by
  have hl : p.length ≤ 255 := codePath_length _ _ _ hp
  unfold State.codeOf
  rw [s.lenAt_codeWalks i h, s.codeAt_codeWalks i h, hp]
  simp only [Option.getD_some]
  have hn : (BitVec.ofNat 8 p.length).toNat = p.length := by simp; omega
  rw [hn]
  apply List.ext_getElem?
  intro j
  by_cases hj : j < p.length
  · simp [hj, codeBits_getLsbD p j hl]
  · simp [hj]

/-! ### An archive's header -/

/-- A byte of the header is the next source byte, or E_HDR_TRUNC (R283, R284). -/
theorem State.headByte_cases (s : State) :
    (∃ b, s.src[s.pos]? = some b ∧
      s.headByte = .ok b { s with pos := s.pos + 1, trace := s.trace ++ [.srcRead] }) ∨
    (s.src.length ≤ s.pos ∧ s.headByte = .raised .hdrTrunc { s with trace := s.trace ++ [.srcRead] }) := by
  rcases s.srcRead_cases with ⟨b, hb, hr⟩ | ⟨hl, hr⟩
  · exact .inl ⟨b, hb, by simp [State.headByte, hr]⟩
  · exact .inr ⟨hl, by simp [State.headByte, hr]⟩

@[simp] theorem le16_length (v : Index) : (le16 v).length = 2 := rfl

@[simp] theorem le64_length (v : Word) : (le64 v).length = 8 := by simp [le64]

/-- The tree table is 1020 bytes (R90). -/
@[simp] theorem tableBytes_length (node : Vector Node 511) : (tableBytes node).length = 1020 := by
  simp only [tableBytes, List.length_flatMap, List.length_append, le16_length, List.map_const', List.sum_replicate,
    List.length_range]
  rfl

/-- Header and tree table are 1032 bytes (R90). -/
theorem State.headBytes_length (s : State) : s.headBytes.length = 1032 := by
  simp [State.headBytes]

end Sys2Proof.Machine
end

