-- ==== Sys2Proof/Laws/HostFields.lean ====
section
/-! SUPPORT. The commands that write the sink read neither DROP nor the host's actions, reads and draws, and leave them as
they are: they do the same whatever these hold. So a command held while the host writes and reads ends as if it had not. -/

namespace Sys2Proof.Machine

/-- `s` with other host's actions, reads, draws and another DROP. -/
def State.withHost (p : List HostAction) (r : List Word) (d : Nat) (b : Bool) (s : State) : State :=
  { s with pending := p, reads := r, draws := d, status := { s.status with drop := b } }

/-- A part of a command that goes on, or ends, in another state. -/
def Flow.map {α : Type} (g : State → State) : Flow α → Flow α
  | .ok a s => .ok a (g s)
  | .raised e s => .raised e (g s)

theorem Flow.bind_map {α β : Type} (g : State → State) (x : Flow α) (f : α → State → Flow β)
    (h : ∀ a s, f a (g s) = (f a s).map g) : (x.map g).bind f = (x.bind f).map g := by
  cases x with
  | ok a s => exact h a s
  | raised e s => rfl

section

variable (p : List HostAction) (r : List Word) (d : Nat) (b : Bool)

/-! ### Ports and bit stream -/

theorem State.srcRead_withHost (s : State) :
    (s.withHost p r d b).srcRead = (s.srcRead.1, s.srcRead.2.withHost p r d b) := by
  rcases s.srcRead_cases with ⟨c, hc, e⟩ | ⟨hl, e⟩
  · rw [e, State.srcRead_some (s.withHost p r d b) c hc]
    rfl
  · rw [e, State.srcRead_none (s.withHost p r d b) (List.getElem?_eq_none hl)]
    rfl

theorem State.snkWrites_withHost (bs : List Byte) (s : State) :
    (s.withHost p r d b).snkWrites bs = (s.snkWrites bs).withHost p r d b := by
  rw [State.snkWrites_eq, State.snkWrites_eq]
  rfl

theorem State.flush_withHost (s : State) :
    (s.withHost p r d b).flush = (s.flush.1, s.flush.2.withHost p r d b) := by
  rw [State.flush_eq, State.flush_eq]
  rfl

theorem State.flushIfFull_withHost (s : State) :
    (s.withHost p r d b).flushIfFull = s.flushIfFull.withHost p r d b := by
  by_cases h : s.wcur.byte = s.cfg.blockBytes
  · have e : s.flushIfFull = s.flush.2 := if_pos h
    have e' : (s.withHost p r d b).flushIfFull = (s.withHost p r d b).flush.2 := if_pos h
    rw [e, e', State.flush_withHost]
  · have e : s.flushIfFull = s := if_neg h
    have e' : (s.withHost p r d b).flushIfFull = s.withHost p r d b := if_neg h
    rw [e, e']

theorem State.writeBit_withHost (s : State) (c : Bool) :
    (s.withHost p r d b).writeBit c = (s.writeBit c).withHost p r d b := rfl

theorem State.emitBit_withHost (s : State) (c : Bool) :
    (s.withHost p r d b).emitBit c = (s.emitBit c).withHost p r d b := by
  unfold State.emitBit
  rw [State.flushIfFull_withHost, State.writeBit_withHost, State.flushIfFull_withHost]

theorem emitBits_withHost (bits : List Bool) (s : State) :
    bits.foldl State.emitBit (s.withHost p r d b) = (bits.foldl State.emitBit s).withHost p r d b := by
  induction bits generalizing s with
  | nil => rfl
  | cons c bits ih => rw [List.foldl_cons, List.foldl_cons, State.emitBit_withHost, ih]

theorem State.emitCode_withHost (s : State) (i : Nat) :
    (s.withHost p r d b).emitCode i = (s.emitCode i).withHost p r d b := emitBits_withHost p r d b (s.codeOf i) s

theorem refillLoop_withHost (k : Nat) : ∀ (n : Nat) (s : State),
    refillLoop k n (s.withHost p r d b) = ((refillLoop k n s).1, (refillLoop k n s).2.withHost p r d b) := by
  induction k with
  | zero => intro n s; rfl
  | succ k ih =>
    intro n s
    unfold refillLoop
    rw [State.srcRead_withHost]
    generalize s.srcRead = x
    obtain ⟨_ | c, t⟩ := x
    · rfl
    · exact ih (n + 1) { t with ibuf := t.ibuf.write n c }

theorem State.refill_withHost (s : State) :
    (s.withHost p r d b).refill = (s.refill.1, s.refill.2.withHost p r d b) := by
  unfold State.refill
  rw [show (s.withHost p r d b).cfg = s.cfg from rfl, refillLoop_withHost]
  rfl

theorem State.nextBit_withHost (s : State) :
    (s.withHost p r d b).nextBit = (s.nextBit.1, s.nextBit.2.withHost p r d b) := by
  unfold State.nextBit
  rw [show (s.withHost p r d b).rcur = s.rcur from rfl, show (s.withHost p r d b).ifill = s.ifill from rfl,
    State.refill_withHost]
  by_cases h : s.rcur.byte = s.ifill
  · rw [if_pos h, if_pos h]
    by_cases h0 : s.refill.1 = 0
    · simp only [h0, if_true]
    · simp only [h0, if_false]
      rfl
  · rw [if_neg h, if_neg h]
    rfl

/-! ### Frequency table and tree -/

theorem State.tally_withHost (s : State) (c : Nat) :
    (s.withHost p r d b).tally c = (s.tally c).map (State.withHost p r d b) := by
  unfold State.tally
  rw [show (s.withHost p r d b).freqAt c = s.freqAt c from rfl, show (s.withHost p r d b).total = s.total from rfl]
  split_ifs <;> rfl

theorem countLoop_withHost (k : Nat) : ∀ s : State,
    countLoop k (s.withHost p r d b) = (countLoop k s).map (State.withHost p r d b) := by
  induction k with
  | zero => intro s; rfl
  | succ k ih =>
    intro s
    unfold countLoop
    rw [State.srcRead_withHost]
    generalize s.srcRead = x
    obtain ⟨_ | c, t⟩ := x
    · rfl
    · show ((t.withHost p r d b).tally c.toNat).bind _ = Flow.map _ ((t.tally c.toNat).bind _)
      rw [State.tally_withHost]
      exact Flow.bind_map _ _ _ fun _ u => ih u

theorem State.freqPass_withHost (s : State) :
    (s.withHost p r d b).freqPass = s.freqPass.map (State.withHost p r d b) := by
  unfold State.freqPass
  show (countLoop (s.src.length + 1) (s.srcRewind.freqClear.withHost p r d b)).bind _ = _
  rw [countLoop_withHost]
  exact Flow.bind_map _ _ _ fun _ u => rfl

theorem State.mergeStep_withHost (s : State) (k : Nat) :
    (s.withHost p r d b).mergeStep k = (s.mergeStep k).map (State.withHost p r d b) := by
  unfold State.mergeStep
  rw [show (s.withHost p r d b).pq = s.pq from rfl]
  split
  · split_ifs <;> rfl
  · rfl

theorem mergeSteps_withHost (ks : List Nat) (s : State) :
    mergeSteps ks (s.withHost p r d b) = (mergeSteps ks s).map (State.withHost p r d b) := by
  induction ks generalizing s with
  | nil => rfl
  | cons k ks ih =>
    show ((s.withHost p r d b).mergeStep k).bind _ = Flow.map _ ((s.mergeStep k).bind _)
    rw [State.mergeStep_withHost]
    exact Flow.bind_map _ _ _ fun _ u => ih u

theorem mergeAll_withHost (s : State) : mergeAll (s.withHost p r d b) = (mergeAll s).map (State.withHost p r d b) := by
  unfold mergeAll
  exact mergeSteps_withHost p r d b _ s

theorem State.treeBuild_withHost (s : State) :
    (s.withHost p r d b).treeBuild = s.treeBuild.map (State.withHost p r d b) := by
  have h : mergeAll (s.withHost p r d b).clearTables.treeInit.pqSeed =
      (mergeAll s.clearTables.treeInit.pqSeed).map (State.withHost p r d b) :=
    mergeAll_withHost p r d b s.clearTables.treeInit.pqSeed
  rcases s.treeBuild_cases with ⟨t, e, e'⟩ | ⟨x, t, e, e'⟩ <;>
    rcases (s.withHost p r d b).treeBuild_cases with ⟨u, f, f'⟩ | ⟨y, u, f, f'⟩ <;>
    (rw [e, f] at h; cases h <;> (rw [e', f']; rfl))

/-! ### Encoder and decoder -/

theorem emitLoop_withHost (k : Nat) : ∀ s : State,
    emitLoop k (s.withHost p r d b) = (emitLoop k s).withHost p r d b := by
  induction k with
  | zero => intro s; rfl
  | succ k ih =>
    intro s
    unfold emitLoop
    rw [State.srcRead_withHost]
    generalize s.srcRead = x
    obtain ⟨_ | c, t⟩ := x
    · rfl
    · show emitLoop k ((t.withHost p r d b).emitCode c.toNat) = _
      rw [State.emitCode_withHost, ih]

theorem State.writeArchive_withHost (s : State) :
    (s.withHost p r d b).writeArchive = s.writeArchive.withHost p r d b := by
  unfold State.writeArchive
  rw [show (s.withHost p r d b).headBytes = s.headBytes from rfl, State.snkWrites_withHost]
  generalize s.snkWrites s.headBytes = x
  have h := emitLoop_withHost p r d b (x.src.length + 1) { x with wcur := Cursor.zero }
  exact (congrArg (fun y => y.flush.2) h).trans (by rw [State.flush_withHost])

theorem State.encode_withHost (s : State) :
    (s.withHost p r d b).encode = s.encode.map (State.withHost p r d b) := by
  unfold State.encode
  rw [State.freqPass_withHost]
  refine Flow.bind_map _ _ _ fun _ t => ?_
  rw [State.treeBuild_withHost]
  refine Flow.bind_map _ _ _ fun _ u => ?_
  have h : (u.withHost p r d b).codeWalks.markCodes = u.codeWalks.markCodes.withHost p r d b := rfl
  simp only [h, State.writeArchive_withHost]
  generalize u.codeWalks.markCodes.writeArchive = x
  rfl

theorem checkMagic_withHost (ms : List Byte) (s : State) :
    checkMagic ms (s.withHost p r d b) = (checkMagic ms s).map (State.withHost p r d b) := by
  induction ms generalizing s with
  | nil => rfl
  | cons m ms ih =>
    unfold checkMagic
    rw [State.srcRead_withHost]
    generalize s.srcRead = x
    obtain ⟨_ | c, t⟩ := x
    · rfl
    · show (if c = m then _ else _ : Flow Unit) = Flow.map _ (if c = m then _ else _)
      split_ifs
      · exact ih t
      · rfl

theorem State.headByte_withHost (s : State) :
    (s.withHost p r d b).headByte = s.headByte.map (State.withHost p r d b) := by
  unfold State.headByte
  rw [State.srcRead_withHost]
  generalize s.srcRead = x
  obtain ⟨_ | c, t⟩ := x <;> rfl

theorem readLen_withHost (k : Nat) : ∀ (j : Nat) (len : Word) (s : State),
    readLen k j len (s.withHost p r d b) = (readLen k j len s).map (State.withHost p r d b) := by
  induction k with
  | zero => intro j len s; rfl
  | succ k ih =>
    intro j len s
    unfold readLen
    rw [State.headByte_withHost]
    exact Flow.bind_map _ _ _ fun _ t => ih _ _ t

theorem State.readLE16_withHost (s : State) :
    (s.withHost p r d b).readLE16 = s.readLE16.map (State.withHost p r d b) := by
  unfold State.readLE16
  rw [State.headByte_withHost]
  refine Flow.bind_map _ _ _ fun _ t => ?_
  rw [State.headByte_withHost]
  exact Flow.bind_map _ _ _ fun _ _ => rfl

theorem State.loadEntry_withHost (s : State) (i : Nat) :
    (s.withHost p r d b).loadEntry i = (s.loadEntry i).map (State.withHost p r d b) := by
  unfold State.loadEntry
  rw [State.readLE16_withHost]
  refine Flow.bind_map _ _ _ fun _ t => ?_
  rw [State.readLE16_withHost]
  refine Flow.bind_map _ _ _ fun _ u => ?_
  split_ifs <;> rfl

theorem loadEntries_withHost (is : List Nat) (s : State) :
    loadEntries is (s.withHost p r d b) = (loadEntries is s).map (State.withHost p r d b) := by
  induction is generalizing s with
  | nil => rfl
  | cons i is ih =>
    unfold loadEntries
    rw [State.loadEntry_withHost]
    exact Flow.bind_map _ _ _ fun _ t => ih t

theorem State.loadTree_withHost (s : State) :
    (s.withHost p r d b).loadTree = s.loadTree.map (State.withHost p r d b) := by
  unfold State.loadTree
  rw [show (s.withHost p r d b).clearTables.arenaReset = s.clearTables.arenaReset.withHost p r d b from rfl,
    readLen_withHost]
  refine Flow.bind_map _ _ _ fun _ t => ?_
  rw [loadEntries_withHost]
  exact Flow.bind_map _ _ _ fun _ _ => rfl

theorem payloadLoop_withHost (len k : Nat) : ∀ (count n : Nat) (s : State),
    payloadLoop len k count n (s.withHost p r d b) =
      ((payloadLoop len k count n s).1, (payloadLoop len k count n s).2.withHost p r d b) := by
  induction k with
  | zero => intro count n s; rfl
  | succ k ih =>
    intro count n s
    unfold payloadLoop
    split_ifs
    · rw [State.nextBit_withHost]
      generalize s.nextBit = x
      obtain ⟨_ | c, t⟩ := x
      · rfl
      · show (if t.child n c < nSym then _ else _ : Nat × State) =
          ((if t.child n c < nSym then _ else _ : Nat × State).1, (if t.child n c < nSym then _ else _ : Nat × State).2.withHost p r d b)
        split_ifs
        · exact ih _ _ (t.snkWrite _)
        · exact ih _ _ t
    · rfl

theorem State.decode_withHost (s : State) :
    (s.withHost p r d b).decode = s.decode.map (State.withHost p r d b) := by
  unfold State.decode
  show (checkMagic s.cfg.magic.toList
    (({ s.srcRewind with ifill := 0, rcur := Cursor.zero } : State).withHost p r d b)).bind _ = _
  rw [checkMagic_withHost]
  refine Flow.bind_map _ _ _ fun _ t => ?_
  rw [State.loadTree_withHost]
  refine Flow.bind_map _ _ _ fun _ u => ?_
  have h : (u.withHost p r d b).rounds = u.rounds := rfl
  have h' : (u.withHost p r d b).total = u.total := rfl
  simp only [h, h', payloadLoop_withHost]
  rfl

theorem Flow.close_map (x : Flow Word) :
    (x.map (State.withHost p r d b)).close = x.close.withHost p r d b := by
  cases x <;> rfl

/-- A command that writes the sink, with a sink that accepts every byte, does the same whatever the host's fields hold. -/
theorem exec_withHost (i : Instr) (s u : State) (hi : writesSink i = true) (hr : s.room = none)
    (e : exec i s = .next u) : exec i (s.withHost p r d b) = .next (u.withHost p r d b) := by
  have hr' : (s.withHost p r d b).room = none := hr
  cases i <;> simp only [writesSink, Bool.false_eq_true] at hi
  case sput i =>
    simp only [exec, execSput, inRange] at e ⊢
    split_ifs at e ⊢
    · cases e; rfl
    · rw [show (s.withHost p r d b).status.codes = s.status.codes from rfl]
      rcases needs_cases s.status.codes s
        (.next (s.settle (.sput i) { s.emitCode i with res := (s.lenAt i).setWidth 64 })) with ⟨hc, h⟩ | ⟨hc, h⟩
      · rw [h] at e
        rw [hc, needs_true, State.settle_none _ _ _ hr', State.emitCode_withHost]
        rw [State.settle_none _ _ _ hr] at e
        cases e
        rfl
      · rw [h] at e
        rw [hc, needs_false]
        cases e
        rfl
  case bflush =>
    simp only [exec, execBflush] at e ⊢
    rw [State.settle_none _ _ _ hr] at e
    rw [State.settle_none _ _ _ hr', State.flush_withHost]
    cases e
    rfl
  case encode =>
    simp only [exec, execEncode] at e ⊢
    rw [State.settle_none _ _ _ hr] at e
    rw [State.settle_none _ _ _ hr', State.encode_withHost, Flow.close_map]
    cases e
    rfl
  case decode =>
    simp only [exec, execDecode] at e ⊢
    rw [State.settle_none _ _ _ hr] at e
    rw [State.settle_none _ _ _ hr', State.decode_withHost, Flow.close_map]
    cases e
    rfl

end

end Sys2Proof.Machine
end

