-- ==== Sys2Proof/Laws/PerInstr.lean ====
section
/-! SUPPORT. Statements for all instructions, made one constructor at a time. -/

namespace Sys2Proof.Laws

/-- 30_encoding.md R104: a command's word agrees with the command's mask and match. -/
def MatchMask.Statement (i : Instr) : Prop :=
  i.wf = true → Sys2Proof.encode i &&& maskOf i = matchOf i

/-- Under the mask that keeps OPC and SUB, when SUB is 0. -/
theorem mask_imm (opc : BitVec 8) (imm : BitVec 16) :
    (opc ++ (0 : BitVec 8) ++ imm) &&& 0xFFFF0000#32 = opc.setWidth 32 <<< 24 := by
  apply BitVec.eq_of_getLsbD_eq
  intro i hi
  have hm : ∀ i, i < 32 → (0xFFFF0000#32).getLsbD i = decide (16 ≤ i) := by decide
  simp only [BitVec.getLsbD_and, hm i hi, BitVec.getLsbD_append, BitVec.getLsbD_shiftLeft, BitVec.getLsbD_setWidth]
  by_cases h1 : i < 16
  · have h6 : ¬ 16 ≤ i := by omega
    have h7 : i < 24 := by omega
    simp [h6, h7]
  · by_cases h2 : i < 24
    · have h3 : i - 16 < 8 := by omega
      simp [h1, h2, h3]
    · have h3 : ¬ i - 16 < 8 := by omega
      have h4 : i - 16 - 8 = i - 24 := by omega
      have h5 : i - 24 < 32 := by omega
      have h6 : 16 ≤ i := by omega
      simp [h1, h2, h3, h4, h5, hi, h6]

/-- Under the mask that keeps OPC. -/
theorem mask_sub (opc sub : BitVec 8) (imm : BitVec 16) :
    (opc ++ sub ++ imm) &&& 0xFF000000#32 = opc.setWidth 32 <<< 24 := by
  apply BitVec.eq_of_getLsbD_eq
  intro i hi
  have hm : ∀ i, i < 32 → (0xFF000000#32).getLsbD i = decide (24 ≤ i) := by decide
  simp only [BitVec.getLsbD_and, hm i hi, BitVec.getLsbD_append, BitVec.getLsbD_shiftLeft, BitVec.getLsbD_setWidth]
  by_cases h2 : i < 24
  · have h3 : ¬ 24 ≤ i := by omega
    simp [h2, h3]
  · have h1 : ¬ i < 16 := by omega
    have h3 : ¬ i - 16 < 8 := by omega
    have h4 : i - 16 - 8 = i - 24 := by omega
    have h5 : i - 24 < 32 := by omega
    have h6 : 24 ≤ i := by omega
    simp [h1, h2, h3, h4, h5, hi, h6]

theorem MatchMask.nop : MatchMask.Statement (.nop) := fun _ => by decide
theorem MatchMask.srst : MatchMask.Statement (.srst) := fun _ => by decide
theorem MatchMask.eclr : MatchMask.Statement (.eclr) := fun _ => by decide
theorem MatchMask.fclr : MatchMask.Statement (.fclr) := fun _ => by decide
theorem MatchMask.fadd (b : Nat) : MatchMask.Statement (.fadd b) := fun _ => mask_imm _ _
theorem MatchMask.fcnt : MatchMask.Statement (.fcnt) := fun _ => by decide
theorem MatchMask.frd (s : Nat) : MatchMask.Statement (.frd s) := fun _ => mask_imm _ _
theorem MatchMask.fwr (s : Nat) : MatchMask.Statement (.fwr s) := fun _ => mask_imm _ _
theorem MatchMask.trd : MatchMask.Statement (.trd) := fun _ => by decide
theorem MatchMask.tbld : MatchMask.Statement (.tbld) := fun _ => by decide
theorem MatchMask.nrd (f : NodeField) (n : Nat) : MatchMask.Statement (.nrd f n) := fun _ => mask_sub _ _ _
theorem MatchMask.cgen : MatchMask.Statement (.cgen) := fun _ => by decide
theorem MatchMask.clen (s : Nat) : MatchMask.Statement (.clen s) := fun _ => mask_imm _ _
theorem MatchMask.crd (w s : Nat) : MatchMask.Statement (.crd w s) := fun _ => mask_sub _ _ _
theorem MatchMask.sput (s : Nat) : MatchMask.Statement (.sput s) := fun _ => mask_imm _ _
theorem MatchMask.bput (b : Nat) : MatchMask.Statement (.bput b) := fun _ => mask_imm _ _
theorem MatchMask.bget : MatchMask.Statement (.bget) := fun _ => by decide
theorem MatchMask.bflush : MatchMask.Statement (.bflush) := fun _ => by decide
theorem MatchMask.bfill : MatchMask.Statement (.bfill) := fun _ => by decide
theorem MatchMask.wcrd : MatchMask.Statement (.wcrd) := fun _ => by decide
theorem MatchMask.rcrd : MatchMask.Statement (.rcrd) := fun _ => by decide
theorem MatchMask.encode : MatchMask.Statement (.encode) := fun _ => by decide
theorem MatchMask.decode : MatchMask.Statement (.decode) := fun _ => by decide
theorem MatchMask.sget : MatchMask.Statement (.sget) := fun _ => by decide

end Sys2Proof.Laws
end

