-- ==== Sys2Proof/Laws/PortTrace.lean ====
section
/-! SUPPORT. Every command moves the ports by the accesses its trace records, and by nothing else: the source position and
the sink after it are those its port accesses leave (20_memory.md R80 to R83, R94). -/

namespace Sys2Proof.Machine

/-- `t` comes from `s` by some port accesses, in this order, as far as the ports go. -/
def Ported (s t : State) : Prop :=
  ∃ evs, t.trace = s.trace ++ evs ∧ t.src = s.src ∧ t.pos = posAfter s.src.length s.pos evs ∧
    t.snk = s.snk ++ sentBytes evs

/-- No port access. -/
theorem Ported.silent {s t : State} (h1 : t.trace = s.trace) (h2 : t.src = s.src) (h3 : t.pos = s.pos)
    (h4 : t.snk = s.snk) : Ported s t :=
  ⟨[], by simp [h1], h2, h3, by simp [h4, sentBytes]⟩

theorem Ported.refl (s : State) : Ported s s := .silent rfl rfl rfl rfl

theorem Ported.trans {s t u : State} (h : Ported s t) (h' : Ported t u) : Ported s u := by
  obtain ⟨e, a1, a2, a3, a4⟩ := h
  obtain ⟨e', b1, b2, b3, b4⟩ := h'
  exact ⟨e ++ e', by rw [b1, a1, List.append_assoc], b2.trans a2, by rw [b3, a2, a3, posAfter_append],
    by rw [b4, a4, sentBytes_append, List.append_assoc]⟩

/-- Whatever else a state holds. -/
theorem Ported.congr {s t u : State} (h : Ported s t) (h1 : u.trace = t.trace) (h2 : u.src = t.src) (h3 : u.pos = t.pos)
    (h4 : u.snk = t.snk) : Ported s u := h.trans (.silent h1 h2 h3 h4)

theorem State.srcRead_ported (s : State) : Ported s s.srcRead.2 := by
  rcases s.srcRead_cases with ⟨b, hb, e⟩ | ⟨hl, e⟩
  · have hlt := (List.getElem?_eq_some_iff.mp hb).1
    rw [e]
    exact ⟨[.srcRead], rfl, rfl, by simp [posAfter, hlt], by simp [sentBytes]⟩
  · rw [e]
    exact ⟨[.srcRead], rfl, rfl, by simp [posAfter, Nat.not_lt.mpr hl], by simp [sentBytes]⟩

theorem State.srcRewind_ported (s : State) : Ported s s.srcRewind :=
  ⟨[.srcRewind], rfl, rfl, rfl, by simp [State.srcRewind, sentBytes]⟩

theorem State.snkWrite_ported (s : State) (b : Byte) : Ported s (s.snkWrite b) := ⟨[.snkWrite b], rfl, rfl, rfl, rfl⟩

theorem State.snkWrites_ported (bs : List Byte) (s : State) : Ported s (s.snkWrites bs) := by
  induction bs generalizing s with
  | nil => exact .refl s
  | cons b bs ih => exact (s.snkWrite_ported b).trans (ih (s.snkWrite b))

/-! ### Bit stream -/

theorem State.flush_ported (s : State) : Ported s s.flush.2 :=
  (s.snkWrites_ported _).congr rfl rfl rfl rfl

theorem State.flushIfFull_ported (s : State) : Ported s s.flushIfFull := by
  unfold State.flushIfFull
  split_ifs
  · exact s.flush_ported
  · exact .refl s

theorem State.emitBit_ported (s : State) (b : Bool) : Ported s (s.emitBit b) :=
  (s.flushIfFull_ported.congr (u := s.flushIfFull.writeBit b) rfl rfl rfl rfl).trans (State.flushIfFull_ported _)

theorem emitBits_ported (bits : List Bool) (s : State) : Ported s (bits.foldl State.emitBit s) := by
  induction bits generalizing s with
  | nil => exact .refl s
  | cons b bits ih => exact (s.emitBit_ported b).trans (ih (s.emitBit b))

theorem State.emitCode_ported (s : State) (i : Nat) : Ported s (s.emitCode i) := emitBits_ported _ s

theorem refillLoop_ported (k : Nat) : ∀ (n : Nat) (s : State), Ported s (refillLoop k n s).2 := by
  induction k with
  | zero => intro n s; exact .refl s
  | succ k ih =>
    intro n s
    have h := s.srcRead_ported
    unfold refillLoop
    generalize s.srcRead = r at h ⊢
    obtain ⟨_ | c, t⟩ := r
    · exact h
    · exact (h.congr (u := { t with ibuf := t.ibuf.write n c }) rfl rfl rfl rfl).trans (ih (n + 1) _)

theorem State.refill_ported (s : State) : Ported s s.refill.2 :=
  (refillLoop_ported s.cfg.blockBytes 0 s).congr rfl rfl rfl rfl

theorem State.nextBit_ported (s : State) : Ported s s.nextBit.2 := by
  unfold State.nextBit
  split_ifs
  · show Ported s (if s.refill.1 = 0 then _ else _ : Option Bool × State).2
    split_ifs
    · exact s.refill_ported
    · exact s.refill_ported.congr rfl rfl rfl rfl
  · exact .silent rfl rfl rfl rfl

/-! ### Parts of a command -/

/-- Where a part of a command ends. -/
def Flow.state {α : Type} : Flow α → State
  | .ok _ s => s
  | .raised _ s => s

theorem Flow.bind_ported {α β : Type} {s : State} {x : Flow α} {f : α → State → Flow β} (h : Ported s x.state)
    (h' : ∀ a t, Ported t (f a t).state) : Ported s (x.bind f).state := by
  cases x with
  | ok a t => exact h.trans (h' a t)
  | raised e t => exact h

theorem Flow.close_ported {s : State} {x : Flow Word} (h : Ported s x.state) : Ported s x.close := by
  cases x with
  | ok a t => exact h.congr rfl rfl rfl rfl
  | raised e t => exact h.congr rfl rfl rfl rfl

theorem Flow.closeUnit_ported {s : State} {x : Flow Unit} (h : Ported s x.state) : Ported s x.closeUnit := by
  cases x with
  | ok a t => exact h
  | raised e t => exact h.congr rfl rfl rfl rfl

/-! ### Frequency table and tree -/

theorem State.tally_ported (s : State) (b : Nat) : Ported s (s.tally b).state := by
  rcases s.tally_cases b with ⟨-, -, e⟩ | ⟨-, e⟩ <;> (rw [e]; exact .silent rfl rfl rfl rfl)

theorem countLoop_ported (k : Nat) : ∀ s : State, Ported s (countLoop k s).state := by
  induction k with
  | zero => intro s; exact .refl s
  | succ k ih =>
    intro s
    have h := s.srcRead_ported
    unfold countLoop
    generalize s.srcRead = r at h ⊢
    obtain ⟨_ | c, t⟩ := r
    · exact h
    · exact h.trans (Flow.bind_ported (t.tally_ported c.toNat) fun _ u => ih u)

theorem State.freqPass_ported (s : State) : Ported s s.freqPass.state :=
  (s.srcRewind_ported.congr (u := s.srcRewind.freqClear) rfl rfl rfl rfl).trans
    (Flow.bind_ported (countLoop_ported _ _) fun _ t => t.srcRewind_ported)

theorem State.mergeStep_ported (s : State) (k : Nat) : Ported s (s.mergeStep k).state := by
  unfold State.mergeStep
  split
  · split_ifs <;> exact .silent rfl rfl rfl rfl
  · exact .refl s

theorem mergeSteps_ported (ks : List Nat) (s : State) : Ported s (mergeSteps ks s).state := by
  induction ks generalizing s with
  | nil => exact .refl s
  | cons k ks ih => exact Flow.bind_ported (s.mergeStep_ported k) fun _ t => ih t

theorem mergeAll_ported (s : State) : Ported s (mergeAll s).state := by
  unfold mergeAll
  exact mergeSteps_ported _ s

theorem State.treeBuild_ported (s : State) : Ported s s.treeBuild.state := by
  have h := (Ported.silent (s := s) (t := s.clearTables.treeInit.pqSeed) rfl rfl rfl rfl).trans (mergeAll_ported _)
  rcases s.treeBuild_cases with ⟨t, e, e'⟩ | ⟨r, t, e, e'⟩
  · rw [e] at h
    rw [e']
    exact h.congr rfl rfl rfl rfl
  · rw [e] at h
    rw [e']
    exact h.congr rfl rfl rfl rfl

/-! ### Encoder and decoder -/

theorem emitLoop_ported (k : Nat) : ∀ s : State, Ported s (emitLoop k s) := by
  induction k with
  | zero => intro s; exact .refl s
  | succ k ih =>
    intro s
    have h := s.srcRead_ported
    unfold emitLoop
    generalize s.srcRead = r at h ⊢
    obtain ⟨_ | c, t⟩ := r
    · exact h
    · exact (h.trans (t.emitCode_ported c.toNat)).trans (ih _)

theorem State.writeArchive_ported (s : State) : Ported s s.writeArchive :=
  (((s.snkWrites_ported s.headBytes).congr (u := { s.snkWrites s.headBytes with wcur := Cursor.zero })
    rfl rfl rfl rfl).trans (emitLoop_ported _ _)).trans (State.flush_ported _)

theorem State.encode_ported (s : State) : Ported s s.encode.state :=
  Flow.bind_ported s.freqPass_ported fun _ t =>
    Flow.bind_ported t.treeBuild_ported fun _ u =>
      (Ported.silent (s := u) (t := u.codeWalks.markCodes) rfl rfl rfl rfl).trans (State.writeArchive_ported _)

theorem checkMagic_ported (ms : List Byte) (s : State) : Ported s (checkMagic ms s).state := by
  induction ms generalizing s with
  | nil => exact .refl s
  | cons m ms ih =>
    have h := s.srcRead_ported
    unfold checkMagic
    generalize s.srcRead = r at h ⊢
    obtain ⟨_ | c, t⟩ := r
    · exact h
    · show Ported s (if c = m then checkMagic ms t else .raised .format t : Flow Unit).state
      split_ifs
      · exact h.trans (ih t)
      · exact h

theorem State.headByte_ported (s : State) : Ported s s.headByte.state := by
  have h := s.srcRead_ported
  unfold State.headByte
  generalize s.srcRead = r at h ⊢
  obtain ⟨_ | c, t⟩ := r <;> exact h

theorem readLen_ported (k : Nat) : ∀ (j : Nat) (len : Word) (s : State), Ported s (readLen k j len s).state := by
  induction k with
  | zero => intro j len s; exact .refl s
  | succ k ih => intro j len s; exact Flow.bind_ported s.headByte_ported fun _ t => ih _ _ t

theorem State.readLE16_ported (s : State) : Ported s s.readLE16.state :=
  Flow.bind_ported s.headByte_ported fun _ t => Flow.bind_ported t.headByte_ported fun _ _ => .silent rfl rfl rfl rfl

theorem State.loadEntry_ported (s : State) (i : Nat) : Ported s (s.loadEntry i).state :=
  Flow.bind_ported s.readLE16_ported fun _ t => Flow.bind_ported t.readLE16_ported fun _ _ => by
    split_ifs <;> exact .silent rfl rfl rfl rfl

theorem loadEntries_ported (is : List Nat) (s : State) : Ported s (loadEntries is s).state := by
  induction is generalizing s with
  | nil => exact .refl s
  | cons i is ih => exact Flow.bind_ported (s.loadEntry_ported i) fun _ t => ih t

theorem State.loadTree_ported (s : State) : Ported s s.loadTree.state :=
  (Ported.silent (s := s) (t := s.clearTables.arenaReset) rfl rfl rfl rfl).trans
    (Flow.bind_ported (readLen_ported _ _ _ _) fun _ t =>
      Flow.bind_ported (loadEntries_ported _ t) fun _ _ => .silent rfl rfl rfl rfl)

theorem payloadLoop_ported (len k : Nat) : ∀ (count n : Nat) (s : State), Ported s (payloadLoop len k count n s).2 := by
  induction k with
  | zero => intro count n s; exact .refl s
  | succ k ih =>
    intro count n s
    have h := s.nextBit_ported
    unfold payloadLoop
    split_ifs
    · generalize s.nextBit = r at h ⊢
      obtain ⟨_ | b, t⟩ := r
      · exact h.congr rfl rfl rfl rfl
      · show Ported s (if t.child n b < nSym then _ else _ : Nat × State).2
        split_ifs
        · exact (h.trans (t.snkWrite_ported _)).trans (ih _ _ _)
        · exact h.trans (ih _ _ _)
    · exact .refl s

theorem symbolLoop_ported (k : Nat) : ∀ (n : Nat) (s : State), Ported s (symbolLoop k n s).2 := by
  induction k with
  | zero => intro n s; exact .refl s
  | succ k ih =>
    intro n s
    have h := s.nextBit_ported
    unfold symbolLoop
    generalize s.nextBit = r at h ⊢
    obtain ⟨_ | b, t⟩ := r
    · exact h.congr rfl rfl rfl rfl
    · show Ported s (if t.child n b < nSym then _ else _ : Word × State).2
      split_ifs
      · exact h
      · exact h.trans (ih _ _)

theorem State.decode_ported (s : State) : Ported s s.decode.state :=
  (s.srcRewind_ported.congr (u := { s.srcRewind with ifill := 0, rcur := Cursor.zero }) rfl rfl rfl rfl).trans
    (Flow.bind_ported (checkMagic_ported _ _) fun _ t =>
      Flow.bind_ported t.loadTree_ported fun _ _ => payloadLoop_ported _ _ _ _ _)

/-! ### Every command -/

/-- A command that ends in `t`, or is held on the way to it, moves the ports by its accesses. -/
theorem State.settle_ported (i : Instr) {s t : State} (h : Ported s t) : Ported s (s.settle i t) := by
  unfold State.settle
  split
  · exact h
  · show Ported s (if _ then _ else _ : State)
    split_ifs
    · exact h.congr rfl rfl rfl rfl
    · refine ⟨_, rfl, ?_, ?_, ?_⟩
      · show (s.replay _).src = s.src
        rw [s.replay_frame]
      · exact s.replay_pos _
      · exact s.replay_snk _

theorem inRange_ported {limit imm : Nat} {s t : State} {go : Out} (h : ∀ t, go = .next t → Ported s t)
    (e : inRange limit imm s go = .next t) : Ported s t := by
  unfold inRange at e
  split_ifs at e
  · cases e
    exact .silent rfl rfl rfl rfl
  · exact h t e

theorem needs_ported {flag : Bool} {s t : State} {go : Out} (h : ∀ t, go = .next t → Ported s t)
    (e : needs flag s go = .next t) : Ported s t := by
  rcases needs_cases flag s go with ⟨-, e'⟩ | ⟨-, e'⟩
  · exact h t (e'.symm.trans e)
  · rw [e'] at e
    cases e
    exact .silent rfl rfl rfl rfl

/-- Every command moves the ports by the accesses its trace records. -/
theorem exec_ported (i : Instr) (s t : State) (e : exec i s = .next t) : Ported s t := by
  have next : ∀ {u : State}, exec i s = .next u → Ported s u → Ported s t := fun h h' => by
    rw [h] at e
    cases e
    exact h'
  cases i with
  | nop => exact next (u := s) rfl (.silent rfl rfl rfl rfl)
  | srst => exact next (u := s.resetCore) rfl (.silent rfl rfl rfl rfl)
  | eclr => exact next (u := s.clearError) rfl (.silent rfl rfl rfl rfl)
  | fclr => exact next (u := s.freqClear) rfl (.silent rfl rfl rfl rfl)
  | fadd b => exact inRange_ported (fun _ e => by cases e; exact Flow.closeUnit_ported (s.tally_ported b)) e
  | fcnt =>
    exact next (u := (s.freqPass.bind fun _ s => .ok s.total s).close) rfl
      (Flow.close_ported (Flow.bind_ported s.freqPass_ported fun _ _ => .silent rfl rfl rfl rfl))
  | frd i => exact inRange_ported (fun _ e => by cases e; exact .silent rfl rfl rfl rfl) e
  | fwr i => exact inRange_ported (fun _ e => by cases e; exact .silent rfl rfl rfl rfl) e
  | trd => exact next (u := { s with res := s.total }) rfl (.silent rfl rfl rfl rfl)
  | tbld =>
    exact next (u := (s.treeBuild.bind fun _ s => .ok (s.nodeAt root).weight s).close) rfl
      (Flow.close_ported (Flow.bind_ported s.treeBuild_ported fun _ _ => .silent rfl rfl rfl rfl))
  | nrd f n => exact inRange_ported (fun _ e => by cases e; exact .silent rfl rfl rfl rfl) e
  | cgen =>
    refine needs_ported (fun _ e => ?_) e
    split_ifs at e
    cases e
    exact .silent rfl rfl rfl rfl
  | clen i => exact inRange_ported (fun _ e => by cases e; exact .silent rfl rfl rfl rfl) e
  | crd w i =>
    change inWords w s _ = _ at e
    unfold inWords at e
    split_ifs at e
    · cases e
      exact .silent rfl rfl rfl rfl
    · exact inRange_ported (fun _ e => by cases e; exact .silent rfl rfl rfl rfl) e
  | sput i =>
    exact inRange_ported
      (fun _ e => needs_ported
        (fun _ e => by
          cases e
          exact State.settle_ported _ ((s.emitCode_ported i).congr rfl rfl rfl rfl)) e) e
  | bput b =>
    refine inRange_ported (fun _ e => ?_) e
    cases e
    refine Flow.closeUnit_ported ?_
    unfold State.bput
    split_ifs <;> exact .silent rfl rfl rfl rfl
  | bget =>
    refine next (u := s.bget.close) rfl (Flow.close_ported ?_)
    unfold State.bget
    split_ifs <;> exact .silent rfl rfl rfl rfl
  | bflush =>
    exact next (u := s.settle .bflush { s.flush.2 with res := resOfNat s.flush.1 }) rfl
      (State.settle_ported _ (s.flush_ported.congr rfl rfl rfl rfl))
  | bfill =>
    exact next (u := { s.refill.2 with res := resOfNat s.refill.1 }) rfl (s.refill_ported.congr rfl rfl rfl rfl)
  | wcrd => exact next (u := { s with res := resOfNat s.wcur.bits }) rfl (.silent rfl rfl rfl rfl)
  | rcrd => exact next (u := { s with res := resOfNat s.rcur.bits }) rfl (.silent rfl rfl rfl rfl)
  | encode =>
    exact next (u := s.settle .encode s.encode.close) rfl (State.settle_ported _ (Flow.close_ported s.encode_ported))
  | decode =>
    exact next (u := s.settle .decode s.decode.close) rfl (State.settle_ported _ (Flow.close_ported s.decode_ported))
  | sget =>
    exact needs_ported (fun _ e => by cases e; exact (symbolLoop_ported _ _ s).congr rfl rfl rfl rfl) e

end Sys2Proof.Machine
end

