-- ==== Sys2Proof/Tests/Slice0.lean ====
section
/-! SUPPORT. The model's own tests. Expected values are those of 95_test_vectors.md (named by their vector) or of the
rule a test names. Then one witness for every statement that has hypotheses. -/

namespace Sys2Proof.Tests

open Sys2Proof Sys2Proof.Machine

/-! ### WellFormed: each check refuses an ill-formed term (30_encoding.md R101, R102) -/

theorem test_wf_fadd : (Instr.fadd 65536).wf = false := by decide
theorem test_wf_frd : (Instr.frd 65536).wf = false := by decide
theorem test_wf_fwr : (Instr.fwr 65536).wf = false := by decide
theorem test_wf_nrd : (Instr.nrd .sym 65536).wf = false := by decide
theorem test_wf_clen : (Instr.clen 65536).wf = false := by decide
theorem test_wf_crd_word : (Instr.crd 4 0).wf = false := by decide
theorem test_wf_crd_symbol : (Instr.crd 0 65536).wf = false := by decide
theorem test_wf_sput : (Instr.sput 65536).wf = false := by decide
theorem test_wf_bput : (Instr.bput 65536).wf = false := by decide

/-! ### Decode: one word of every command, from R103's table and the listings of 95_test_vectors.md -/

theorem test_decode_nop : Sys2Proof.decode 0x00000000 = .ok .nop := by decide
theorem test_decode_srst : Sys2Proof.decode 0x01000000 = .ok .srst := by decide
theorem test_decode_eclr : Sys2Proof.decode 0x02000000 = .ok .eclr := by decide
theorem test_decode_fclr : Sys2Proof.decode 0x10000000 = .ok .fclr := by decide
theorem test_decode_fadd : Sys2Proof.decode 0x11000062 = .ok (.fadd 0x62) := by decide
theorem test_decode_fcnt : Sys2Proof.decode 0x12000000 = .ok .fcnt := by decide
theorem test_decode_frd : Sys2Proof.decode 0x1300FFFF = .ok (.frd 65535) := by decide
theorem test_decode_fwr : Sys2Proof.decode 0x14000007 = .ok (.fwr 7) := by decide
theorem test_decode_trd : Sys2Proof.decode 0x15000000 = .ok .trd := by decide
theorem test_decode_tbld : Sys2Proof.decode 0x20000000 = .ok .tbld := by decide
theorem test_decode_nrd_sym : Sys2Proof.decode 0x21000041 = .ok (.nrd .sym 0x41) := by decide
theorem test_decode_nrd_left : Sys2Proof.decode 0x210201FE = .ok (.nrd .left 510) := by decide
theorem test_decode_nrd_right : Sys2Proof.decode 0x21030100 = .ok (.nrd .right 256) := by decide
theorem test_decode_nrd_parent : Sys2Proof.decode 0x210401FE = .ok (.nrd .parent 510) := by decide
theorem test_decode_cgen : Sys2Proof.decode 0x30000000 = .ok .cgen := by decide
theorem test_decode_clen : Sys2Proof.decode 0x31000064 = .ok (.clen 0x64) := by decide
theorem test_decode_crd : Sys2Proof.decode 0x3201003F = .ok (.crd 1 0x3F) := by decide
theorem test_decode_sput : Sys2Proof.decode 0x33000061 = .ok (.sput 0x61) := by decide
theorem test_decode_bput : Sys2Proof.decode 0x40000000 = .ok (.bput 0) := by decide
theorem test_decode_bget : Sys2Proof.decode 0x41000000 = .ok .bget := by decide
theorem test_decode_bflush : Sys2Proof.decode 0x42000000 = .ok .bflush := by decide
theorem test_decode_bfill : Sys2Proof.decode 0x43000000 = .ok .bfill := by decide
theorem test_decode_wcrd : Sys2Proof.decode 0x44000000 = .ok .wcrd := by decide
theorem test_decode_rcrd : Sys2Proof.decode 0x45000000 = .ok .rcrd := by decide
theorem test_decode_encode : Sys2Proof.decode 0x50000000 = .ok .encode := by decide
theorem test_decode_decode : Sys2Proof.decode 0x51000000 = .ok .decode := by decide
theorem test_decode_sget : Sys2Proof.decode 0x52000000 = .ok .sget := by decide

/-- V-X1 to V-X7, V-X10 and V-X13. -/
theorem test_decode_illegal :
    [0x03000000, 0xFF000000, 0x53000000, 0x00000001, 0x00010000, 0x10000001, 0x11010041, 0x21050000, 0x32040000].map
        Sys2Proof.decode =
      [.error .opcode, .error .opcode, .error .opcode, .error .reservedImm, .error .reservedSub, .error .reservedImm,
        .error .reservedSub, .error .subRange, .error .subRange] := by decide

/-- R111's own listings, in decimal. -/
theorem test_listing :
    [Instr.tbld, .frd 97, .bput 1, .nrd .weight 510, .crd 0 97].map Instr.listing =
      ["TBLD", "FRD 97", "BPUT 1", "NRD weight, 510", "CRD 0, 97"] := by decide +kernel

theorem test_decodeTableWord : decodeTableWord 32 0x21030100 = some (.nrd .right 256) := by decide
theorem test_decodeTableWord_illegal : decodeTableWord 32 0x16000000 = none := by decide

/-! ### States -/

/-- Reset, with a block size of `n` bytes. -/
def tiny (n : Nat) : State := { State.reset with cfg := ⟨n, Config.default.magic⟩ }

/-- The outcome is a next state, and it is as `p` says. -/
def ends (o : Out) (p : State → Bool) : Bool :=
  match o with
  | .next t => p t
  | .fault _ => false
  | .refused _ => false

/-- The source "aaaabbbccd" of V-F1. -/
def sample : List Byte := [0x61, 0x61, 0x61, 0x61, 0x62, 0x62, 0x62, 0x63, 0x63, 0x64]

/-- Node n with these children. -/
def linked (v : Vector Node 511) (n l r : Nat) : Vector Node 511 :=
  setNode v n fun d => { d with left := BitVec.ofNat 16 l, right := BitVec.ofNat 16 r }

/-- The top of V-T2's tree. -/
def topTree : Vector Node 511 :=
  linked (linked (linked (linked State.reset.node 507 506 100) 508 507 99) 509 98 508) 510 97 509

/-! ### Commands -/

/-- V-X20: NOP executes while ERR is not 0, and changes nothing. -/
theorem test_nop : ends (issue 0x00000000 ((tiny 2).raise .illegal)) (fun t => t.status.err == some .illegal) = true := by
  decide

/-- P3 row 8, R65: SRST resets the core and leaves the sink. -/
theorem test_srst :
    ends (exec .srst { tiny 2 with arg := 5, ifill := 1, snk := [0x61] })
      (fun t => t.arg == 0 && t.ifill == 0 && t.snk == [0x61]) = true := by decide +kernel

/-- R312: ECLR clears ERR, TRUNC and DROP and no other flag. -/
theorem test_eclr :
    ends (exec .eclr { tiny 2 with
      status := { tree := true, built := true, codes := true, trunc := true, drop := true, err := some .buf } })
      (fun t => statusWord t.busy t.status == 0x0E) = true := by decide

/-- V-F6. -/
theorem test_fclr :
    ends (exec .fclr { (tiny 2).setFreq 0x61 4 with total := 10 })
      (fun t => t.freqAt 0x61 == 0 && t.total == 0) = true := by decide +kernel

/-- V-F3, the last FADD. -/
theorem test_fadd :
    ends (exec (.fadd 0x61) { (tiny 2).setFreq 0x61 3 with total := 3 })
      (fun t => t.freqAt 0x61 == 4 && t.freqAt 0x62 == 0 && t.total == 4) = true := by decide +kernel

/-- V-F5. -/
theorem test_fadd_overflow :
    ends (exec (.fadd 0x41) ((tiny 2).setFreq 0x41 0xFFFFFFFFFFFFFFFF))
      (fun t => t.freqAt 0x41 == 0xFFFFFFFFFFFFFFFF && t.total == 0 && statusWord false t.status == 0x0500) = true := by
  decide +kernel

/-- V-F1. -/
theorem test_fcnt :
    ends (exec .fcnt { tiny 2 with src := sample, pos := 7 })
      (fun t => t.freqAt 0x61 == 4 && t.freqAt 0x62 == 3 && t.freqAt 0x63 == 2 && t.freqAt 0x64 == 1 &&
        t.freqAt 0x65 == 0 && t.total == 10 && t.res == 10 && t.pos == 0) = true := by decide +kernel

theorem test_frd : ends (exec (.frd 7) ((tiny 2).setFreq 7 5)) (fun t => t.res == 5) = true := by decide +kernel

/-- V-X8. -/
theorem test_frd_range :
    ends (issue 0x13000100 (tiny 2)) (fun t => t.res == 0 && statusWord false t.status == 0x0200) = true := by decide

/-- V-F4. -/
theorem test_fwr :
    ends (exec (.fwr 7) { tiny 2 with arg := 5 }) (fun t => t.freqAt 7 == 5 && t.total == 0) = true := by
  decide +kernel

/-- P2 row 12. -/
theorem test_trd : ends (exec .trd { tiny 2 with total := 10 }) (fun t => t.res == 10) = true := by decide

/-- V-T3: node 508 joins 507 and 'A', and 'B' comes before 'C'. -/
theorem test_tbld_merge :
    (match ({ tiny 2 with pq := [⟨0, 507⟩, ⟨1, 65⟩, ⟨1, 66⟩, ⟨1, 67⟩] } : State).mergeStep 252 with
    | .ok _ t =>
      (t.nodeAt 508).left == 507 && (t.nodeAt 508).right == 65 && (t.nodeAt 508).weight == 1 &&
      (t.nodeAt 507).parent == 508 && (t.nodeAt 65).parent == 508 &&
      t.pq == [⟨1, 66⟩, ⟨1, 67⟩, ⟨1, 508⟩]
    | .raised _ _ => false) = true := by decide +kernel

/-- V-T5: the last merge overflows and writes nothing. -/
theorem test_tbld_overflow :
    (match ({ tiny 2 with pq := [⟨0x8000000000000000, 1⟩, ⟨0x8000000000000000, 509⟩] } : State).mergeStep 254 with
    | .ok _ _ => false
    | .raised e t => e == .wovf && t.nodeAt 510 == Node.zero && t.nodeAt 1 == Node.zero) = true := by decide +kernel

/-- V-T2: `NRD left, 510`. -/
theorem test_nrd_left :
    ends (issue 0x210201FE { tiny 2 with node := topTree }) (fun t => t.res == 97) = true := by decide +kernel

/-- R197: a signed field is sign-extended. -/
theorem test_nrd_sign :
    ends (exec (.nrd .parent 3) ((tiny 2).modNode 3 fun d => { d with parent := 0xFFFE }))
      (fun t => t.res == 0xFFFFFFFFFFFFFFFE) = true := by decide +kernel

/-- V-X16. -/
theorem test_cgen_seq : ends (issue 0x30000000 (tiny 2)) (fun t => statusWord false t.status == 0x0300) = true := by
  decide

/-- V-C2: the walks of a, b, c and d, upwards. -/
theorem test_cgen_walk :
    (let up := fun (v : Vector Node 511) (n p : Nat) => setNode v n fun d => { d with parent := BitVec.ofNat 16 p }
     let v := up (up (up (up (up (up (up topTree 97 510) 98 509) 99 508) 100 507) 507 508) 508 509) 509 510
     [0x61, 0x62, 0x63, 0x64].map (codePath v)) =
      [some [false], some [true, false], some [true, true, true], some [true, true, false, true]] := by decide +kernel

/-- V-C2: `CLEN 0x64`. -/
theorem test_clen :
    ends (issue 0x31000064 { tiny 2 with len := State.reset.len.setIfInBounds 0x64 4 }) (fun t => t.res == 4) = true := by
  decide +kernel

/-- V-C4's code of 0x3F: 64 zeros, six ones, a zero. -/
def deepCode : State :=
  { tiny 2 with
    code := State.reset.code.setIfInBounds 0x3F
      (codeBits (List.replicate 64 false ++ List.replicate 6 true ++ [false])) }

theorem test_crd : ends (issue 0x3201003F deepCode) (fun t => t.res == 0x3F) = true := by decide +kernel
theorem test_crd_ends :
    (ends (exec (.crd 0 0x3F) deepCode) (fun t => t.res == 0) &&
      ends (exec (.crd 3 0x3F) deepCode) (fun t => t.res == 0)) = true := by decide +kernel

/-- V-C6 before `SPUT 0x62`. -/
def packed : State :=
  { tiny 1 with
    obuf := [(0, 0x5F)], wcur := ⟨0, 7⟩, len := State.reset.len.setIfInBounds 0x62 2
    code := State.reset.code.setIfInBounds 0x62 1
    status := { Status.reset with tree := true, built := true, codes := true } }

theorem test_sput :
    ends (exec (.sput 0x62) packed)
      (fun t => t.snk == [0xDF] && t.res == 2 && t.wcur == ⟨0, 1⟩ && t.outBits == [false]) = true := by decide +kernel

/-- R134, R226: a code whose last bit fills the block sends it. -/
theorem test_sput_fills :
    ends (exec (.sput 0x61) { packed with len := State.reset.len.setIfInBounds 0x61 1 })
      (fun t => t.snk == [0x5F] && t.res == 1 && t.wcur == ⟨0, 0⟩) = true := by decide +kernel

/-- V-B1, the last BPUT. -/
theorem test_bput :
    ends (exec (.bput 1) { tiny 2 with obuf := [(0, 0x05)], wcur := ⟨0, 3⟩ })
      (fun t => t.obuf.read 0 == 0x0D && t.wcur == ⟨0, 4⟩) = true := by decide

/-- V-B3a. -/
theorem test_bput_full :
    ends (exec (.bput 1) { tiny 1 with obuf := [(0, 0xFF)], wcur := ⟨1, 0⟩ })
      (fun t => t.wcur == ⟨1, 0⟩ && statusWord false t.status == 0x0400) = true := by decide

/-- V-B2a, the third BGET. -/
theorem test_bget :
    ends (exec .bget { tiny 2 with ibuf := [(0, 0x0D)], ifill := 1, rcur := ⟨0, 2⟩ })
      (fun t => t.res == 1 && t.rcur == ⟨0, 3⟩) = true := by decide

/-- V-B2b. -/
theorem test_bget_empty :
    ends (exec .bget { tiny 2 with ibuf := [(0, 0x0D)], ifill := 1, rcur := ⟨1, 0⟩, res := 8 })
      (fun t => t.res == 8 && t.rcur == ⟨1, 0⟩ && statusWord false t.status == 0x0400) = true := by decide

/-- V-B1a. -/
theorem test_bflush :
    ends (exec .bflush { tiny 2 with obuf := [(0, 0x0D)], wcur := ⟨0, 4⟩ })
      (fun t => t.snk == [0x0D] && t.res == 1 && t.wcur == ⟨0, 0⟩) = true := by decide

/-- R386: the sink takes one byte of two and holds BFLUSH with BUSY = 1. -/
theorem test_bflush_held :
    ends (exec .bflush { tiny 2 with obuf := [(0, 0x0D), (1, 0x01)], wcur := ⟨1, 1⟩, room := some 1 })
      (fun t => t.snk == [0x0D] && t.busy && t.res == 0) = true := by decide

/-- V-B2. -/
theorem test_bfill :
    ends (exec .bfill { tiny 2 with src := [0x0D] })
      (fun t => t.ibuf.read 0 == 0x0D && t.ifill == 1 && t.rcur == ⟨0, 0⟩ && t.res == 1 && t.pos == 1) = true := by decide

/-- V-B2c. -/
theorem test_bfill_eof :
    ends (exec .bfill { tiny 2 with src := [0x0D], pos := 1, ifill := 1, res := 3 })
      (fun t => t.ifill == 0 && t.rcur == ⟨0, 0⟩ && t.res == 0) = true := by decide

/-- V-B4. -/
theorem test_wcrd : ends (exec .wcrd { tiny 3 with wcur := ⟨2, 3⟩ }) (fun t => t.res == 19) = true := by decide +kernel

/-- V-B2a: RCRD at (1, 0). -/
theorem test_rcrd : ends (exec .rcrd { tiny 3 with ifill := 1, rcur := ⟨1, 0⟩ }) (fun t => t.res == 8) = true := by
  decide +kernel

/-- V-E2: the header, and entry 254 of the tree table. -/
theorem test_encode_head :
    (let a := ({ tiny 2 with node := topTree, total := 10 } : State).headBytes
     a.take 12 == [0x48, 0x46, 0x4D, 0x4E, 0x0A, 0, 0, 0, 0, 0, 0, 0] &&
       (tableBytes topTree).drop 1016 == [0x61, 0x00, 0xFD, 0x01]) = true := by decide +kernel

/-- V-E3's payload: A = 01, B = 10, C = 11. -/
theorem test_encode_payload :
    (let s := { tiny 1 with
      src := [65, 66, 67], len := ((State.reset.len.setIfInBounds 65 2).setIfInBounds 66 2).setIfInBounds 67 2
      code := ((State.reset.code.setIfInBounds 65 2).setIfInBounds 66 1).setIfInBounds 67 3 }
     (emitLoop 4 s).flush.2.snk == [0x36]) = true := by decide +kernel

/-- V-D4. -/
theorem test_decode_magic :
    ends (exec .decode { tiny 2 with src := [0x48, 0x46, 0x4D, 0x58, 0x0A] })
      (fun t => t.snk == [] && t.res == 0 && statusWord false t.status == 0x1000 && t.pos == 4) = true := by
  decide +kernel

/-- V-D1's payload, under the top of its tree. -/
theorem test_decode_payload :
    (let r := payloadLoop 10 25 0 root { tiny 4 with node := topTree, src := [0x50, 0xFD, 0x0B] }
     r.1 == 10 && r.2.snk == sample && r.2.ifill == 3 && r.2.rcur == ⟨2, 4⟩ && r.2.pos == 3 && !r.2.status.trunc) =
      true := by decide +kernel

/-- V-G2. -/
theorem test_sget :
    ends (exec .sget { tiny 2 with node := topTree, src := [0x0B], status := { Status.reset with tree := true } })
      (fun t => t.res == 0x64 && t.rcur == ⟨0, 4⟩) = true := by decide +kernel

/-- V-G1, the last SGET. -/
theorem test_sget_end :
    ends (exec .sget { tiny 2 with node := topTree, status := { Status.reset with tree := true } })
      (fun t => t.res == 0xFFFFFFFFFFFFFFFF && t.status.trunc) = true := by decide +kernel

/-! ### The flat tree of V-T1 -/

/-- V-T1's arena: node 256 + k has the children 2k and 2k + 1. -/
def flatArena : Vector Node 511 :=
  arenaOf fun n =>
    { sym := BitVec.ofNat 16 n, weight := 0
      left := BitVec.ofNat 16 (if n < 256 then 0 else 2 * (n - 256))
      right := BitVec.ofNat 16 (if n < 256 then 0 else 2 * (n - 256) + 1)
      parent := BitVec.ofNat 16 (if n = 510 then 510 else 256 + n / 2) }

theorem flat_parent (n : Nat) (h : n ≤ 510) :
    (nodeOf flatArena n).parent.toNat = if n = 510 then 510 else 256 + n / 2 := by
  rw [flatArena, nodeOf_arenaOf _ _ h, BitVec.toNat_ofNat, Nat.mod_eq_of_lt (by split_ifs <;> omega)]

theorem flat_left (n : Nat) (h : 256 ≤ n) (h' : n ≤ 510) : (nodeOf flatArena n).left.toNat = 2 * (n - 256) := by
  rw [flatArena, nodeOf_arenaOf _ _ h', BitVec.toNat_ofNat, if_neg (by omega), Nat.mod_eq_of_lt (by omega)]

theorem flat_right (n : Nat) (h : 256 ≤ n) (h' : n ≤ 510) :
    (nodeOf flatArena n).right.toNat = 2 * (n - 256) + 1 := by
  rw [flatArena, nodeOf_arenaOf _ _ h', BitVec.toNat_ofNat, if_neg (by omega), Nat.mod_eq_of_lt (by omega)]

theorem flat_weight (n : Nat) (h : n ≤ 510) : (nodeOf flatArena n).weight = 0 := by
  rw [flatArena, nodeOf_arenaOf _ _ h]

theorem flat_shape : TreeShape flatArena where
  rootParent := flat_parent 510 (Nat.le_refl _)
  leftBelow n h h' := by rw [flat_left n h h']; simp only [nSym_eq, root_eq] at h h'; omega
  rightBelow n h h' := by rw [flat_right n h h']; simp only [nSym_eq, root_eq] at h h'; omega
  childrenDiffer n h h' e := by
    have := congrArg BitVec.toNat e
    rw [flat_left n h h', flat_right n h h'] at this
    omega
  leftParent n h h' := by
    simp only [nSym_eq, root_eq] at h h'
    rw [flat_left n h h', flat_parent _ (by omega), if_neg (by omega)]; omega
  rightParent n h h' := by
    simp only [nSym_eq, root_eq] at h h'
    rw [flat_right n h h', flat_parent _ (by omega), if_neg (by omega)]; omega
  isChild n h := by
    simp only [root_eq] at h
    simp only [nSym_eq, root_eq]
    rw [flat_parent n (by omega), if_neg (by omega), flat_left _ (by omega) (by omega),
      flat_right _ (by omega) (by omega)]
    omega

theorem flat_weights : WeightsAdd flatArena := by
  intro n h h'
  simp only [nSym_eq, root_eq] at h h'
  rw [flat_left n h h', flat_right n h h', flat_weight _ h', flat_weight _ (by omega), flat_weight _ (by omega)]
  rfl

theorem flat_arena : ArenaOk flatArena := by
  refine ⟨fun n h => ?_, fun n h h' => ?_⟩
  · simp only [root_eq] at h
    rw [flatArena, nodeOf_arenaOf _ _ h, BitVec.toNat_ofNat, Nat.mod_eq_of_lt (by omega)]
  · simp only [nSym_eq, root_eq] at *
    rw [flat_left n h h', flat_right n h h']; omega

theorem flat_walk (k : Nat) : ∀ (n : Nat) (below : List Bool), n ≤ 510 → 510 - n < 2 ^ k →
    (pathUp flatArena k n below).isSome = true := by
  induction k with
  | zero =>
    intro n below h hk
    have : n = root := by simp only [root_eq]; omega
    simp [pathUp, this]
  | succ k ih =>
    intro n below h hk
    by_cases hn : n = root
    · simp [pathUp, hn]
    · simp only [pathUp, if_neg hn]
      simp only [root_eq] at hn
      have hp : (flatArena[n]?.getD Node.zero).parent.toNat = 256 + n / 2 := by
        have := flat_parent n h
        rwa [if_neg hn] at this
      rw [hp]
      exact ih _ _ (by omega) (by rw [Nat.pow_succ] at hk; omega)

theorem flat_path (i : Nat) (h : i < nSym) : ∃ p, codePath flatArena i = some p := by
  have hk : 510 - i < 2 ^ 255 := lt_of_le_of_lt (Nat.sub_le _ _) (by norm_num)
  simp only [nSym_eq] at h
  exact Option.isSome_iff_exists.mp (flat_walk 255 i [] (by omega) hk)

/-- The flat tree, built, with its codes. -/
def coded : State :=
  ({ tiny 2 with
    node := flatArena, status := { Status.reset with tree := true, built := true, codes := true } } : State).codeWalks

/-- A state with nothing in its blocks has sound blocks. -/
theorem fresh_blocks (s : State) (hb : 1 ≤ s.cfg.blockBytes) (ho : s.obuf = []) (hw : s.wcur = Cursor.zero)
    (hi : s.ibuf = []) (hf : s.ifill = 0) (hr : s.rcur = Cursor.zero) : BufInv s where
  block := hb
  wcurByte := by rw [hw]; exact Nat.zero_le _
  wcurBit := fun _ => by rw [hw]; rfl
  ifillMax := by rw [hf]; exact Nat.zero_le _
  rcurByte := by rw [hr]; exact Nat.zero_le _
  rcurBit := fun _ => by rw [hr]; rfl
  obufWf := by rw [ho]; rfl
  obufIn := by rw [ho]; simp
  ibufWf := by rw [hi]; rfl
  ibufIn := by rw [hi]; simp
  begun := fun h => absurd (by rw [hw]; rfl) h

/-- It has the invariant. -/
theorem coded_inv : Inv coded where
  buf := fresh_blocks _ (by decide) rfl rfl rfl rfl rfl
  port := ⟨by decide, by decide⟩
  table :=
    { treeOk := fun _ => flat_arena
      builtTree := fun _ => rfl
      builtShape := fun _ => ⟨flat_shape, flat_weights⟩
      codesBuilt := fun _ => rfl
      codesOk := fun _ i hi => by
        obtain ⟨p, hp⟩ := flat_path i hi
        have h := State.codeOf_codeWalks
          { tiny 2 with
            node := flatArena, status := { Status.reset with tree := true, built := true, codes := true } } i p hi hp
        rw [show coded.codeOf i = p from h]
        exact hp
      codeTail := fun i hi j hj => by
        obtain ⟨p, hp⟩ := flat_path i hi
        have hlen : p.length ≤ 255 := codePath_length _ _ _ hp
        have hl := State.lenAt_codeWalks
          { tiny 2 with
            node := flatArena, status := { Status.reset with tree := true, built := true, codes := true } } i hi
        have hc := State.codeAt_codeWalks
          { tiny 2 with
            node := flatArena, status := { Status.reset with tree := true, built := true, codes := true } } i hi
        rw [show ({ tiny 2 with
            node := flatArena, status := { Status.reset with tree := true, built := true, codes := true } } : State).node
          = flatArena from rfl, hp, Option.getD_some] at hl hc
        rw [show coded.codeAt i = codeBits p from hc, codeBits_getLsbD p j hlen]
        rw [show coded.lenAt i = BitVec.ofNat 8 p.length from hl, BitVec.toNat_ofNat,
          Nat.mod_eq_of_lt (by omega)] at hj
        simp [hj]
      pqEmpty := rfl }
  run := fun r hr => by cases hr

/-! ### TBLD with every count 0 succeeds -/

theorem seedKeys_zero (is : List Nat) (q : List Key) (h : ∀ x ∈ q, x.weight = 0) :
    ∀ x ∈ seedKeys (fun _ => 0) is q, x.weight = 0 := by
  induction is generalizing q with
  | nil => exact h
  | cons i is ih =>
    refine ih _ fun x hx => ?_
    rcases List.mem_cons.mp ((pqInsert_perm _ _).mem_iff.mp hx) with rfl | hx
    · rfl
    · exact h x hx

theorem mergeSteps_zero (ks : List Nat) (s : State) (h : ∀ x ∈ s.pq, x.weight = 0) :
    ∃ t, mergeSteps ks s = .ok () t := by
  induction ks generalizing s with
  | nil => exact ⟨s, rfl⟩
  | cons k ks ih =>
    match hq : s.pq with
    | [] =>
      have e : s.mergeStep k = .ok () s := by unfold State.mergeStep; rw [hq]
      obtain ⟨t, ht⟩ := ih s h
      exact ⟨t, by simp only [mergeSteps, e, Flow.bind_ok]; exact ht⟩
    | [a] =>
      have e : s.mergeStep k = .ok () s := by unfold State.mergeStep; rw [hq]
      obtain ⟨t, ht⟩ := ih s h
      exact ⟨t, by simp only [mergeSteps, e, Flow.bind_ok]; exact ht⟩
    | a :: b :: q =>
      rw [hq] at h
      have ha : a.weight = 0 := h a (by simp)
      have hb : b.weight = 0 := h b (by simp)
      have e : s.mergeStep k = .ok () (s.merge (256 + k) a b q) := by
        rcases s.mergeStep_cases k a b q hq with ⟨hw, -⟩ | ⟨-, e⟩
        · rw [ha, hb] at hw
          exact absurd hw (by decide)
        · exact e
      obtain ⟨t, ht⟩ := ih (s.merge (256 + k) a b q) (fun x hx => by
        rcases List.mem_cons.mp ((pqInsert_perm _ _).mem_iff.mp hx) with rfl | hx
        · show a.weight + b.weight = 0
          rw [ha, hb]; rfl
        · exact h x (by simp [hx]))
      exact ⟨t, by simp only [mergeSteps, e, Flow.bind_ok]; exact ht⟩

/-- TBLD right after reset ends with TREE = BUILT = 1 (V-T1). -/
theorem tbld_zero : ∃ t, exec .tbld (tiny 2) = .next t ∧ t.status.tree = true ∧ t.status.built = true := by
  have hf : (tiny 2).freqAt = fun _ => 0 := by
    funext i
    by_cases h : i < 256 <;> simp [State.freqAt, tiny, State.reset, h]
  obtain ⟨t, ht⟩ := mergeSteps_zero (List.range 255) (tiny 2).clearTables.treeInit.pqSeed (by
    have e : (tiny 2).clearTables.treeInit.freqAt = fun _ => 0 := by
      rw [← hf]
      funext i
      simp only [State.freqAt, State.treeInit_freq, State.clearTables_freq]
    rw [State.pqSeed_pq, e]
    unfold initialKeys
    exact seedKeys_zero _ _ (by simp))
  have ht' : mergeAll (tiny 2).clearTables.treeInit.pqSeed = .ok () t := by unfold mergeAll; exact ht
  have hb : (tiny 2).treeBuild = .ok () t.treeFinish.markBuilt := by
    rcases (tiny 2).treeBuild_cases with ⟨u, hu, e⟩ | ⟨_, u, hu, -⟩
    · rw [ht'] at hu
      cases hu
      exact e
    · rw [ht'] at hu
      cases hu
  refine ⟨{ t.treeFinish.markBuilt with res := (t.treeFinish.markBuilt.nodeAt root).weight }, ?_, rfl, rfl⟩
  simp only [exec, execTbld, hb, Flow.bind_ok, Flow.close_ok]

/-- CGEN on the flat tree completes. -/
theorem cgen_flat : ∃ t, exec .cgen { tiny 2 with
      node := flatArena, status := { Status.reset with tree := true, built := true } } = .next t ∧
    t.status.codes = true := by
  have h : walksEnd flatArena = true := by
    unfold walksEnd
    rw [List.all_eq_true]
    intro i hi
    obtain ⟨p, hp⟩ := flat_path i (List.mem_range.mp hi)
    rw [hp]
    rfl
  exact ⟨_, by
    show execCgen _ = _
    unfold execCgen
    rw [show ({ tiny 2 with
      node := flatArena, status := { Status.reset with tree := true, built := true } } : State).node = flatArena from rfl,
      h]
    rfl, rfl⟩

/-! ### Witnesses: for every statement with hypotheses, something that meets them -/

/-- A state whose next host action writes `v` to CMD. -/
def cmdNext (s : State) (v : Word) : State := { s with pending := [.write 0x00 64 v] }

/-- BFLUSH of two bytes, held by a sink that has taken one. -/
def held : State :=
  { tiny 2 with
    obuf := [(0, 0x0D), (1, 0x01)], wcur := ⟨1, 1⟩, snk := [0x0D], room := some 0
    running := some { instr := .bflush, pos := 0, snkLen := 0, resAfter := 2, statusAfter := Status.reset } }

theorem witness_DecodeEncodeRoundTrip :
    (Instr.nrd .parent 65535).wf = true ∧ (Instr.crd 3 65535).wf = true ∧ (Instr.bput 0).wf = true := by decide

theorem witness_LegalWordsHaveOneMeaning : Sys2Proof.decode 0x2104FFFF = .ok (.nrd .parent 65535) := by decide

/-- The ends of every range of illegal words, and their legal neighbours. -/
theorem witness_IllegalEncodings :
    (tiny 2).status.err = none ∧
    ([0x03000000, 0x0F000000, 0x16000000, 0x1F000000, 0x22000000, 0x2F000000, 0x34000000, 0x3F000000, 0x46000000,
      0x4F000000, 0x53000000, 0xFF000000, 0x00010000, 0x21050000, 0x21FF0000, 0x32040000, 0x32FF0000,
      0x00000001].all fun w => (Sys2Proof.decode w).toOption.isNone) = true ∧
    ([0x02000000, 0x10000000, 0x15000000, 0x20000000, 0x21040000, 0x30000000, 0x32030000, 0x33000000, 0x40000000,
      0x45000000, 0x50000000, 0x52000000].all fun w => (Sys2Proof.decode w).toOption.isSome) = true := by decide

/-- With ERR = 0, and with ERR not 0. -/
theorem witness_StepRunsDecodedCommand :
    (cmdNext (tiny 2) 0x11000061).pending = .write 0x00 64 0x11000061 :: [] ∧
    (cmdNext (tiny 2) 0x11000061).busy = false ∧ (cmdNext (tiny 2) 0x11000061).status.err = none ∧
    Sys2Proof.decode ((0x11000061 : Word).setWidth 32) = .ok (.fadd 0x61) ∧
    runsInError ((0x02000000 : Word).setWidth 32) = true ∧
    Sys2Proof.decode ((0x02000000 : Word).setWidth 32) = .ok .eclr := by decide

theorem witness_CmdRegister :
    (cmdNext (tiny 2) 0xFFFFFFFF12000000).busy = false ∧ (cmdNext held 0x12000000).busy = true ∧
    (cmdNext held 0x12000000).pending = .write 0x00 64 0x12000000 :: [] := by decide

theorem witness_IllegalWordsRaise :
    (cmdNext (tiny 2) 0x03000000).busy = false ∧ (cmdNext (tiny 2) 0x03000000).status.err = none ∧
    Sys2Proof.decode ((0x03000000 : Word).setWidth 32) = .error .opcode := by decide

/-- V-X20: a blocked word, and the three that run. -/
theorem witness_ErrorBlocksCommands :
    ((tiny 2).raise .illegal).status.err ≠ none ∧ ((tiny 2).raise .illegal).busy = false ∧
    (0x00000001 : Word).setWidth 32 ≠ (0x00000000 : BitVec 32) ∧
    (0x00000001 : Word).setWidth 32 ≠ (0x01000000 : BitVec 32) ∧
    (0x00000001 : Word).setWidth 32 ≠ (0x02000000 : BitVec 32) ∧
    (0xFFFFFFFF00000000 : Word).setWidth 32 = (0x00000000 : BitVec 32) ∧
    (0x01000000 : Word).setWidth 32 = (0x01000000 : BitVec 32) ∧
    (0x02000000 : Word).setWidth 32 = (0x02000000 : BitVec 32) := by decide

theorem witness_ArgRegister :
    ({ tiny 2 with pending := [.write 0x08 64 5] } : State).busy = false ∧
    ({ held with pending := [.write 0x08 64 5] } : State).busy = true ∧
    ({ held with pending := [.write 0x08 64 5] } : State).pending = .write 0x08 64 5 :: [] := by decide

/-- Writes to RES, to STATUS, to a hole and of another width; a read; unmapped reads. -/
theorem witness_RegisterWindow :
    (tiny 2).busy = false ∧ ((0x10 ≠ 0x00 ∧ 0x10 ≠ 0x08) ∧ (0x20 ≠ 0x00 ∧ 0x20 ≠ 0x08) ∧ 32 ≠ 64) ∧
    ({ tiny 2 with pending := [.write 0x10 64 1] } : State).pending = .write 0x10 64 1 :: [] ∧
    ({ tiny 2 with pending := [.read 0x18 64] } : State).pending = .read 0x18 64 :: [] ∧
    (0x20 ≠ 0x00 ∧ 0x20 ≠ 0x08 ∧ 0x20 ≠ 0x10 ∧ 0x20 ≠ 0x18) := by decide

/-- The least and the greatest reserved bit of the upper field. -/
theorem witness_StatusLayout : 16 ≤ 16 ∧ 16 ≤ 63 := by decide

/-- Each clause: while BUSY = 1, the least length refused, the least position refused, the greatest position taken. -/
theorem witness_PortAttachment :
    held.busy = true ∧ (tiny 2).busy = false ∧ w64 ≤ (List.replicate w64 (0 : Byte)).length ∧
    (sample.length < w64 ∧ sample.length < 11) ∧ (sample.length < w64 ∧ 10 ≤ sample.length) ∧
    ({ tiny 2 with pending := [.attachSource sample 10] } : State).pending = .attachSource sample 10 :: [] ∧
    ({ tiny 2 with pending := [.replaceSink []] } : State).pending = .replaceSink [] :: [] ∧ (tiny 2).pending = [] ∧
    ({ tiny 2 with pending := [.wait] } : State).pending = .wait :: [] ∧
    ({ tiny 2 with pending := [.setRoom (some 0)] } : State).pending = .setRoom (some 0) :: [] := by
  refine ⟨by decide, by decide, ?_, by decide, by decide, by decide, by decide, by decide, by decide, by decide⟩
  rw [List.length_replicate]

theorem witness_ReadsWhileBusy : ∃ r, held.running = some r := ⟨_, rfl⟩

/-- A sink that takes one byte of BFLUSH's two, and one that takes just both. -/
theorem witness_SinkHoldsCommand :
    writesSink .bflush = true ∧ ({ held with snk := [], running := none } : State).running = none ∧
    ∃ u, exec .bflush { held with snk := [], running := none, room := none } = .next u ∧
      ({ held with snk := [], running := none } : State).snk.length + 1 < u.snk.length ∧
      u.snk.length ≤ ({ held with snk := [], running := none } : State).snk.length + 2 :=
  ⟨rfl, rfl, _, rfl, by decide, by decide⟩

/-- An idle step, one that waits, one that reads, and one that writes ARG. -/
theorem witness_HeldCommandStaysHeld :
    held.busy = true ∧ (held.pending = [] ∧ step held = .next held) ∧
    (∀ room rest, held.pending ≠ .setRoom room :: rest) ∧ (∀ rest, held.pending ≠ .reset :: rest) ∧
    (∀ v k rest, held.pending ≠ .commandReset v k :: rest) ∧
    (∀ room k rest, held.pending ≠ .roomReset room k :: rest) ∧
    (∃ t, step { held with pending := [.wait] } = .next t) ∧
    (∃ t, step { held with pending := [.read 0x18 64] } = .next t ∧
      ∀ off v rest, ({ held with pending := [.read 0x18 64] } : State).pending ≠ .write off 64 v :: rest) ∧
    ∃ t, step { held with pending := [.write 0x08 64 5] } = .next t :=
  ⟨rfl, ⟨rfl, rfl⟩, fun _ _ h => (List.cons_ne_nil _ _ h.symm), fun _ h => (List.cons_ne_nil _ _ h.symm),
    fun _ _ _ h => (List.cons_ne_nil _ _ h.symm), fun _ _ _ h => (List.cons_ne_nil _ _ h.symm), ⟨_, rfl⟩,
    ⟨_, rfl, fun _ _ _ h => HostAction.noConfusion (List.cons.inj h).1⟩, ⟨_, rfl⟩⟩

/-- BFLUSH of three bytes, begun in `issued`; a sink that takes one byte of them, and then room for one and for two more. -/
def issued : State := { tiny 3 with obuf := [(0, 0x0D), (1, 0x01), (2, 0x01)], wcur := ⟨2, 1⟩ }

def stalled : State :=
  { issued with
    snk := [0x0D], room := some 0, trace := [.snkWrite 0x0D], status := { Status.reset with drop := true }
    running := some { instr := .bflush, pos := 0, snkLen := 0, resAfter := 3, statusAfter := Status.reset } }

theorem stalled_held :
    ∃ u, exec .bflush { issued with room := none } = .next u ∧ Held .bflush issued u stalled ∧
      stalled.snk.length + 1 < u.snk.length ∧ u.snk.length ≤ stalled.snk.length + 2 :=
  ⟨_, rfl,
    { running := ⟨false, rfl⟩, room := rfl, unsent := by decide, sent := by decide, before := by decide
      accesses := ⟨[.snkWrite 0x0D], 0x01, [.snkWrite 0x01], by decide, rfl, rfl, rfl⟩, frame := rfl },
    by decide, by decide⟩

/-- R370: BFLUSH of three bytes, held after its first and given room again, is aborted after one byte more. -/
theorem test_resetInsideResumedCommand :
    ∃ t, step { stalled with pending := [.roomReset none 1] } = .next t ∧ t.snk = [0x0D, 0x01] ∧ t.busy = false :=
  ⟨_, rfl, by decide, rfl⟩

/-- The run with a sink that accepts every byte, a first stall, and a held state with DROP set, before room for one byte
(a further stall), for just the two left, and for every byte. -/
theorem witness_HeldCommandResumes :
    writesSink .bflush = true ∧ issued.running = none ∧ issued.trace = [] ∧
    (∃ t, exec .bflush { issued with room := some 1 } = .next t ∧ t.busy = true) ∧
    (∃ u, exec .bflush { issued with room := none } = .next u ∧ Held .bflush issued u stalled ∧
      stalled.snk.length + 1 < u.snk.length ∧ u.snk.length ≤ stalled.snk.length + 2) ∧
    ({ stalled with pending := [.setRoom (some 1)] } : State).pending = .setRoom (some 1) :: [] ∧
    ({ stalled with pending := [.setRoom none] } : State).pending = .setRoom none :: [] ∧
    stalled.pending = [] ∧ step stalled = .next stalled :=
  ⟨rfl, rfl, rfl, ⟨_, rfl, by decide⟩, stalled_held, rfl, rfl, rfl, rfl⟩

/-- The last symbol and the last node; the reset input with BUSY = 0 and with a held command. -/
theorem witness_ResetValues :
    (∃ u, exec .srst (tiny 2) = .next u) ∧ 255 < nSym ∧ 510 ≤ root ∧
    ({ tiny 2 with pending := [.reset] } : State).pending = .reset :: [] ∧
    ({ held with pending := [.reset] } : State).pending = .reset :: [] :=
  ⟨⟨_, rfl⟩, by decide, by decide, rfl, rfl⟩

/-- Inside FCNT, after the whole of it, with ERR not 0, and with a held command; giving the sink room with no command held,
and with one. -/
theorem witness_ResetAbortsCommand :
    ({ tiny 2 with pending := [.commandReset 0x12000000 2] } : State).pending = .commandReset 0x12000000 2 :: [] ∧
    (tiny 2).busy = false ∧
    (∃ u, issue ((0x12000000 : Word).setWidth 32) { tiny 2 with pending := [], trace := [] } = .next u ∧
      2 < u.trace.length ∧ u.trace.length ≤ 3) ∧
    ((tiny 2).raise .buf).busy = false ∧
    (∃ u, issue ((0x12000000 : Word).setWidth 32) { (tiny 2).raise .buf with pending := [], trace := [] } = .next u ∧
      u.trace.length ≤ 0) ∧
    ({ held with pending := [.commandReset 0x12000000 2] } : State).busy = true ∧
    ({ tiny 2 with pending := [.roomReset none 0] } : State).pending = .roomReset none 0 :: [] ∧
    writesSink .bflush = true ∧ issued.running = none ∧ issued.trace = [] ∧
    (∃ u, exec .bflush { issued with room := none } = .next u ∧
      Held .bflush issued u { stalled with pending := [.roomReset none 2] }) ∧
    ({ stalled with pending := [.roomReset none 2] } : State).pending = .roomReset none 2 :: [] :=
  ⟨rfl, rfl, ⟨_, rfl, by decide, by decide⟩, rfl, ⟨_, rfl, by decide⟩, rfl, rfl, rfl, rfl, rfl,
    stalled_held.imp fun _ h =>
      ⟨h.1, { h.2.1 with running := h.2.1.running, accesses := h.2.1.accesses, frame := rfl }⟩, rfl⟩

/-- The word 0, and a word of NOP's opcode that is not 0. -/
theorem witness_NopChangesNothing :
    (tiny 2).busy = false ∧ (tiny 2).status.err = none ∧ ((tiny 2).raise .buf).status.err ≠ none ∧
    (0x00000000 : Word).setWidth 32 = (0x00000000 : BitVec 32) ∧
    (0x00000001 : Word).setWidth 32 ≠ (0x00000000 : BitVec 32) ∧ opcOf ((0x00000001 : Word).setWidth 32) = 0x00 := by
  decide

theorem witness_EclrClearsTheError :
    (cmdNext ((tiny 2).raise .buf) 0x02000000).busy = false ∧
    (0x02000000 : Word).setWidth 32 = (0x02000000 : BitVec 32) := by decide

/-- The least operand out of each range. -/
theorem witness_RangeChecks : 255 < 256 ∧ 3 ≤ 3 ∧ 510 < 511 ∧ 1 < 2 := by decide

theorem witness_SequenceChecks :
    (tiny 2).status.built = false ∧ (tiny 2).status.codes = false ∧ 255 ≤ 255 ∧ (tiny 2).status.tree = false ∧
    ∃ t, exec .cgen (tiny 2) = .next t ∧ (tiny 2).status.err = none ∧ t.status.err = some .seq :=
  ⟨rfl, rfl, by decide, rfl, _, rfl, rfl, rfl⟩

theorem witness_RaiseKeepsFirstError :
    (tiny 2).status.err = none ∧ ((tiny 2).raise .buf).status.err = some .buf := by decide

theorem witness_FclrClearsTheTable : 255 < nSym := by decide

/-- The greatest count that can still rise, and the two that cannot. -/
theorem witness_FaddCountsOneByte :
    255 ≤ 255 ∧
    ((({ (tiny 2).setFreq 255 0xFFFFFFFFFFFFFFFE with total := 0xFFFFFFFFFFFFFFFE } : State).freqAt 255).toNat + 1
      < w64) ∧
    ({ (tiny 2).setFreq 255 0xFFFFFFFFFFFFFFFE with total := 0xFFFFFFFFFFFFFFFE } : State).total.toNat + 1 < w64 ∧
    (((tiny 2).setFreq 255 0xFFFFFFFFFFFFFFFF).freqAt 255).toNat + 1 = w64 ∧
    ({ tiny 2 with total := 0xFFFFFFFFFFFFFFFF } : State).total.toNat + 1 = w64 ∧ 254 ≠ 255 := by decide +kernel

theorem witness_FcntCountsTheSource : ({ tiny 2 with src := sample } : State).src.length < w64 ∧ 255 < nSym := by decide

theorem witness_FwrLoadsOneCount : 255 ≤ 255 ∧ 0 ≠ 255 := by decide

/-- The last word's last bit, which lies beyond the code, among them. -/
theorem witness_ReadBackCommands :
    255 ≤ 255 ∧ 3 ≤ 3 ∧ 63 < 64 ∧ ¬ 64 * 3 + 63 ≤ 254 ∧ 64 * 3 + 62 ≤ 254 ∧
    ({ tiny 3 with wcur := ⟨2, 3⟩ } : State).wcur.bits < w64 ∧
    ({ tiny 3 with ifill := 3, rcur := ⟨2, 7⟩ } : State).rcur.bits < w64 := by decide

theorem freqAt_replicate (c : Word) (i : Nat) (h : i < nSym) :
    ({ tiny 2 with freq := Vector.replicate 256 c } : State).freqAt i = c := by
  simp [State.freqAt, show i < 256 from h]

theorem freqSum_replicate (c : Word) :
    ({ tiny 2 with freq := Vector.replicate 256 c } : State).freqSum = 256 * c.toNat := by
  unfold State.freqSum
  have h : (List.range nSym).map (fun i => (({ tiny 2 with freq := Vector.replicate 256 c } : State).freqAt i).toNat) =
      List.replicate 256 c.toNat := by
    apply List.eq_replicate_iff.mpr
    refine ⟨by simp, fun x hx => ?_⟩
    obtain ⟨i, hi, rfl⟩ := List.mem_map.mp hx
    rw [freqAt_replicate c i (List.mem_range.mp hi)]
  rw [h, List.sum_replicate]
  rfl

theorem freqSum_zero : (tiny 2).freqSum < w64 := by
  have h := freqSum_replicate 0
  rw [show ({ tiny 2 with freq := Vector.replicate 256 0 } : State) = tiny 2 from rfl] at h
  rw [h]
  decide

/-- Every count 0, and every count 2^56 - 1. -/
theorem witness_TbldBuildsTheTree :
    (tiny 2).freqSum < w64 ∧
    ({ tiny 2 with freq := Vector.replicate 256 0x00FFFFFFFFFFFFFF } : State).freqSum < w64 ∧ 255 < nSym := by
  refine ⟨freqSum_zero, ?_, by decide⟩
  rw [freqSum_replicate]
  decide

/-- Every count 2^56: a sum of 2^64. -/
theorem witness_TbldOverflow :
    w64 ≤ ({ tiny 2 with freq := Vector.replicate 256 0x0100000000000000 } : State).freqSum ∧ 255 < nSym ∧
    510 ≤ root := by
  refine ⟨?_, by decide⟩
  rw [freqSum_replicate]
  decide

/-- V-T3's merge, the last merge of V-T5, and a sum of 2^64 - 1. -/
theorem witness_MergeStepMergesTwoKeys :
    (252 ≤ 254 ∧ (507 : Index).toNat < 256 + 252 ∧ (65 : Index).toNat < 256 + 252 ∧ (507 : Index) ≠ 65 ∧
      (∀ x ∈ ([⟨1, 66⟩, ⟨1, 67⟩] : List Key), x.index.toNat < 256 + 252) ∧
      (0 : Word).toNat + (1 : Word).toNat < w64 ∧ 510 ≠ 256 + 252 ∧ 510 ≠ (507 : Index).toNat ∧
      510 ≠ (65 : Index).toNat ∧ ([⟨1, 66⟩, ⟨1, 67⟩] : List Key).Pairwise (fun x y => x.before y = true)) ∧
    (254 ≤ 254 ∧ (1 : Index).toNat < 256 + 254 ∧ (509 : Index).toNat < 256 + 254 ∧ (1 : Index) ≠ 509 ∧
      w64 ≤ (0x8000000000000000 : Word).toNat + (0x8000000000000000 : Word).toNat ∧
      (0x8000000000000000 : Word).toNat + (0x7FFFFFFFFFFFFFFF : Word).toNat < w64) ∧
    ({ tiny 2 with pq := [⟨0, 507⟩, ⟨1, 65⟩, ⟨1, 66⟩, ⟨1, 67⟩] } : State).pq =
      (⟨0, 507⟩ : Key) :: ⟨1, 65⟩ :: [⟨1, 66⟩, ⟨1, 67⟩] := by decide

/-- The least and the greatest equal count. -/
theorem witness_EqualCountsTopology :
    (∀ i, i < nSym → ({ tiny 2 with freq := Vector.replicate 256 0 } : State).freqAt i = 0) ∧
    256 * (0 : Word).toNat < w64 ∧
    (∀ i, i < nSym →
      ({ tiny 2 with freq := Vector.replicate 256 0x00FFFFFFFFFFFFFF } : State).freqAt i = 0x00FFFFFFFFFFFFFF) ∧
    256 * (0x00FFFFFFFFFFFFFF : Word).toNat < w64 ∧ 254 ≤ 254 ∧ 255 < nSym :=
  ⟨freqAt_replicate 0, by decide, freqAt_replicate _, by decide, by decide, by decide⟩

theorem witness_TreeIsFunctionOfCounts :
    (tiny 2).freq = ({ tiny 3 with arg := 1 } : State).freq ∧ (∃ t, exec .tbld (tiny 2) = .next t) ∧
    ∃ t, exec .tbld { tiny 3 with arg := 1 } = .next t := ⟨rfl, ⟨_, rfl⟩, ⟨_, rfl⟩⟩

/-- Of any two nodes one comes first. -/
theorem lower_or_higher (node : Vector Node 511) (a b : Nat) (h : a < b) :
    (((nodeOf node a).weight.toNat < (nodeOf node b).weight.toNat ∨
      ((nodeOf node a).weight = (nodeOf node b).weight ∧ a < b))) ∨
    (nodeOf node b).weight.toNat < (nodeOf node a).weight.toNat := by
  rcases Nat.lt_trichotomy (nodeOf node a).weight.toNat (nodeOf node b).weight.toNat with h' | h' | h'
  · exact .inl (.inl h')
  · exact .inl (.inr ⟨BitVec.eq_of_toNat_eq h', h⟩)
  · exact .inr h'

/-- Two nodes of the tree of the counts, the greatest indices: one of them is the lower. -/
theorem witness_TieBreakLaw :
    (tiny 2).freqSum < w64 ∧ ∃ t a b, exec .tbld (tiny 2) = .next t ∧ a < root ∧ b < root ∧
      ((nodeOf t.node a).weight.toNat < (nodeOf t.node b).weight.toNat ∨
        ((nodeOf t.node a).weight = (nodeOf t.node b).weight ∧ a < b)) := by
  refine ⟨witness_TbldBuildsTheTree.1, ?_⟩
  obtain ⟨t, ht, -⟩ := tbld_zero
  rcases lower_or_higher t.node 508 509 (by decide) with h | h
  · exact ⟨t, 508, 509, ht, by decide, by decide, h⟩
  · exact ⟨t, 509, 508, ht, by decide, by decide, .inl h⟩

theorem witness_NrdReadsOneField : 510 ≤ 510 := Nat.le_refl 510

theorem witness_CgenGeneratesTheCodes : coded.status.built = true ∧ TreeShape coded.node ∧ 255 < nSym :=
  ⟨rfl, flat_shape, by decide⟩

theorem witness_CodesArePrefixFree :
    (∃ s t, exec .cgen s = .next t ∧ s.status.built = true ∧ TreeShape s.node) ∧ 0 < nSym ∧ 255 < nSym ∧ 0 ≠ 255 := by
  obtain ⟨t, ht, -⟩ := cgen_flat
  exact ⟨⟨_, t, ht, rfl, flat_shape⟩, by decide, by decide, by decide⟩

/-- A begun block of one byte. -/
theorem begun_blocks : BufInv { tiny 1 with obuf := [(0, 0x5F)], wcur := ⟨0, 7⟩ } where
  block := by decide
  wcurByte := by decide
  wcurBit := by decide
  ifillMax := by decide
  rcurByte := by decide
  rcurBit := by decide
  obufWf := by decide
  obufIn := by decide
  ibufWf := by decide
  ibufIn := by decide
  begun := fun _ j hj => by
    by_cases h : j = 7
    · rw [h]; decide
    · exact BitVec.getLsbD_of_ge _ _ (by have : 7 ≤ j := hj; omega)

/-- V-C6's state before `SPUT 0x62`: a begun block and a code that is not empty. -/
theorem witness_SputAppendsTheCode :
    255 ≤ 255 ∧ packed.status.codes = true ∧ packed.room = none ∧ BufInv packed ∧ packed.codeOf 0x62 ≠ [] :=
  ⟨by decide, rfl, rfl, { begun_blocks with }, by decide +kernel⟩

/-- A full output block and a used-up input block. -/
theorem full_blocks : BufInv { tiny 1 with
    obuf := [(0, 0xFF)], wcur := ⟨1, 0⟩, ibuf := [(0, 0x0D)], ifill := 1, rcur := ⟨1, 0⟩ } where
  block := by decide
  wcurByte := by decide
  wcurBit := by decide
  ifillMax := by decide
  rcurByte := by decide
  rcurBit := by decide
  obufWf := by decide
  obufIn := by decide
  ibufWf := by decide
  ibufIn := by decide
  begun := fun h => absurd rfl h

/-- The last bit of a block, and a full block. -/
theorem witness_BputWritesOneBit :
    1 ≤ 1 ∧ (BufInv { tiny 1 with obuf := [(0, 0x5F)], wcur := ⟨0, 7⟩ } ∧ 0 < 1) ∧
    BufInv { tiny 1 with obuf := [(0, 0xFF)], wcur := ⟨1, 0⟩, ibuf := [(0, 0x0D)], ifill := 1, rcur := ⟨1, 0⟩ } ∧
    1 = (tiny 1).cfg.blockBytes := ⟨by decide, ⟨begun_blocks, by decide⟩, full_blocks, rfl⟩

/-- An input block with one bit unread. -/
theorem last_bit : BufInv { tiny 1 with ibuf := [(0, 0x0D)], ifill := 1, rcur := ⟨0, 7⟩ } where
  block := by decide
  wcurByte := by decide
  wcurBit := by decide
  ifillMax := by decide
  rcurByte := by decide
  rcurBit := by decide
  obufWf := by decide
  obufIn := by decide
  ibufWf := by decide
  ibufIn := by decide
  begun := fun h => absurd rfl h

/-- The last bit of a block, and a used-up block. -/
theorem witness_BgetReadsOneBit :
    (BufInv { tiny 1 with ibuf := [(0, 0x0D)], ifill := 1, rcur := ⟨0, 7⟩ } ∧ (⟨0, 7⟩ : Cursor).byte < 1) ∧
    BufInv { tiny 1 with obuf := [(0, 0xFF)], wcur := ⟨1, 0⟩, ibuf := [(0, 0x0D)], ifill := 1, rcur := ⟨1, 0⟩ } ∧
    (⟨1, 0⟩ : Cursor).byte = 1 := ⟨⟨last_bit, by decide⟩, full_blocks, rfl⟩

theorem witness_BflushSendsTheBlock :
    ({ tiny 1 with obuf := [(0, 0x5F)], wcur := ⟨0, 7⟩ } : State).room = none ∧
    BufInv { tiny 1 with obuf := [(0, 0x5F)], wcur := ⟨0, 7⟩ } ∧ ((⟨0, 7⟩ : Cursor).bits + 7) / 8 < w64 :=
  ⟨rfl, begun_blocks, by decide⟩

/-- A source that ends inside the block, standing at its last byte. -/
theorem witness_BfillRefillsTheBlock :
    BufInv { tiny 2 with src := sample, pos := 9 } ∧ PortInv { tiny 2 with src := sample, pos := 9 } ∧
    (0 < min 2 (10 - 9) ∧ min 2 (10 - 9) ≤ 1) :=
  ⟨fresh_blocks _ (by decide) rfl rfl rfl rfl rfl, ⟨by decide, by decide⟩, by decide⟩

/-- Sixteen bits fill a block of two bytes; NextBit reads past it. -/
theorem witness_BitStreamSymmetry :
    BufInv (tiny 2) ∧ (tiny 2).wcur = ⟨0, 0⟩ ∧ (List.replicate 16 true).length ≤ 8 * (tiny 2).cfg.blockBytes ∧
    ¬ (List.replicate 17 true).length ≤ 8 * (tiny 2).cfg.blockBytes :=
  ⟨fresh_blocks _ (by decide) rfl rfl rfl rfl rfl, rfl, by decide, by decide⟩

/-- A begun block, a source, and for the empty source an archive of 1032 bytes whatever the tree. -/
theorem witness_EncodeWritesTheArchive :
    ({ tiny 1 with obuf := [(0, 0x5F)], wcur := ⟨0, 7⟩ } : State).src.length < w64 ∧
    ({ tiny 1 with obuf := [(0, 0x5F)], wcur := ⟨0, 7⟩ } : State).room = none ∧
    BufInv { tiny 1 with obuf := [(0, 0x5F)], wcur := ⟨0, 7⟩ } ∧
    ∀ t, (archiveOf (tiny 1).cfg.magic [] t).length < w64 := by
  refine ⟨by decide, rfl, begun_blocks, fun t => ?_⟩
  simp [archiveOf, packBits]

theorem witness_EncodeCountsBuildsAndGenerates :
    ({ tiny 2 with src := sample } : State).src.length < w64 ∧ ({ tiny 2 with src := sample } : State).room = none ∧
    ∃ t, exec .encode { tiny 2 with src := sample } = .next t := ⟨by decide, rfl, _, rfl⟩

/-- Two block sizes, and a begun block against none. -/
theorem witness_EncodeDependsOnSourceOnly :
    ({ tiny 1 with src := sample, obuf := [(0, 0x5F)], wcur := ⟨0, 7⟩ } : State).src =
      ({ tiny 3 with src := sample, arg := 1 } : State).src ∧
    (tiny 1).cfg.magic = (tiny 3).cfg.magic ∧ sample.length < w64 ∧
    BufInv { tiny 1 with src := sample, obuf := [(0, 0x5F)], wcur := ⟨0, 7⟩ } ∧
    BufInv { tiny 3 with src := sample, arg := 1 } ∧ (tiny 1).room = none ∧ (tiny 3).room = none ∧
    (∃ t, exec .encode { tiny 1 with src := sample, obuf := [(0, 0x5F)], wcur := ⟨0, 7⟩ } = .next t) ∧
    ∃ t, exec .encode { tiny 3 with src := sample, arg := 1 } = .next t :=
  ⟨rfl, rfl, by decide,
    { begun_blocks with }, fresh_blocks _ (by decide) rfl rfl rfl rfl rfl, rfl, rfl, ⟨_, rfl⟩, ⟨_, rfl⟩⟩

theorem witness_EncodeReadsSourceTwice :
    ({ tiny 2 with src := sample } : State).src.length < w64 ∧ ({ tiny 2 with src := sample } : State).room = none :=
  ⟨by decide, rfl⟩

/-- An archive of length `n` whose tree table is V-D9's: 254 entries (0, 0), then (510, 510). It has no
payload. -/
def cyclicArchive (n : Byte) : List Byte :=
  [0x48, 0x46, 0x4D, 0x4E, n, 0, 0, 0, 0, 0, 0, 0] ++ List.replicate 1016 0 ++ [0xFE, 1, 0xFE, 1]

theorem archiveByte_zeros (a b : List Byte) (n k : Nat) (h : a.length ≤ k) (h' : k < a.length + n) :
    archiveByte (a ++ List.replicate n 0 ++ b) k = 0 := by
  unfold archiveByte
  rw [List.getElem?_append_left (by simp; omega), List.getElem?_append_right h]
  simp [show k - a.length < n by omega]

theorem cyclic_byte (n : Byte) (k : Nat) (h : 12 ≤ k) (h' : k < 1028) : archiveByte (cyclicArchive n) k = 0 :=
  archiveByte_zeros _ _ _ _ h h'

theorem cyclic_tail (n : Byte) (k : Nat) (h : 1028 ≤ k) :
    archiveByte (cyclicArchive n) k = archiveByte [0xFE, 1, 0xFE, 1] (k - 1028) := by
  have e : ([0x48, 0x46, 0x4D, 0x4E, n, 0, 0, 0, 0, 0, 0, 0] ++ List.replicate 1016 (0 : Byte)).length = 1028 := by
    simp only [List.length_append, List.length_replicate, List.length_cons, List.length_nil]
  unfold archiveByte cyclicArchive
  rw [List.getElem?_append_right (by rw [e]; exact h), e]

theorem cyclic_length (n : Byte) : (cyclicArchive n).length = 1032 := by
  simp only [cyclicArchive, List.length_append, List.length_replicate]
  rfl

theorem cyclic_head (n : Byte) : headOk Config.default.magic (cyclicArchive n) := by
  refine ⟨rfl, (cyclic_length n).ge, fun k hk => ?_⟩
  by_cases h : k = 254
  · rw [h]
    unfold entryOk archiveIndex
    rw [cyclic_tail n _ (by omega), cyclic_tail n _ (by omega), cyclic_tail n _ (by omega), cyclic_tail n _ (by omega)]
    decide
  · unfold entryOk archiveIndex
    rw [cyclic_byte n _ (by omega) (by omega), cyclic_byte n _ (by omega) (by omega),
      cyclic_byte n _ (by omega) (by omega), cyclic_byte n _ (by omega) (by omega)]
    decide

theorem cyclic_out (n : Byte) (v : Vector Node 511) (k : Nat) :
    (decodeBits v root k (bytesBits ((cyclicArchive n).drop 1032))).length = 0 := by
  rw [List.drop_eq_nil_of_le (cyclic_length n).le]
  rfl

/-- A length of 3, before which the bits end, and a length of 0, which needs no bit. -/
theorem witness_DecodeExpandsTheArchive :
    ({ tiny 2 with src := cyclicArchive 3 } : State).room = none ∧ BufInv { tiny 2 with src := cyclicArchive 3 } ∧
    headOk (tiny 2).cfg.magic (cyclicArchive 3) ∧
    (decodeBits (archiveArena (cyclicArchive 3)) root (archiveLength (cyclicArchive 3))
      (bytesBits ((cyclicArchive 3).drop 1032))).length < archiveLength (cyclicArchive 3) ∧
    BufInv { tiny 2 with src := cyclicArchive 0 } ∧ headOk (tiny 2).cfg.magic (cyclicArchive 0) ∧
    (decodeBits (archiveArena (cyclicArchive 0)) root (archiveLength (cyclicArchive 0))
      (bytesBits ((cyclicArchive 0).drop 1032))).length = archiveLength (cyclicArchive 0) := by
  refine ⟨rfl, fresh_blocks _ (by decide) rfl rfl rfl rfl rfl, cyclic_head 3, ?_,
    fresh_blocks _ (by decide) rfl rfl rfl rfl rfl, cyclic_head 0, ?_⟩
  · rw [cyclic_out]
    decide +kernel
  · rw [cyclic_out]
    decide +kernel

/-- V-D4 and V-D5a. -/
theorem witness_DecodeRefusesBadMagic :
    ¬ hasMagic Config.default.magic [0x48, 0x46, 0x4D, 0x58, 0x0A] ∧ ¬ hasMagic Config.default.magic [0x48, 0x46, 0x4D] := by
  unfold hasMagic
  decide

/-- A short header, and V-D7's bad entry. -/
theorem witness_DecodeRefusesBadHeader :
    (hasMagic Config.default.magic [0x48, 0x46, 0x4D, 0x4E, 0x0A] ∧
      ¬ headOk Config.default.magic [0x48, 0x46, 0x4D, 0x4E, 0x0A]) ∧
    (hasMagic Config.default.magic [0x48, 0x46, 0x4D, 0x4E, 0, 0, 0, 0, 0, 0, 0, 0, 0xFF, 0x01, 0x01, 0x00] ∧
      ¬ headOk Config.default.magic [0x48, 0x46, 0x4D, 0x4E, 0, 0, 0, 0, 0, 0, 0, 0, 0xFF, 0x01, 0x01, 0x00]) ∧
    16 + 4 * 0 ≤ 16 ∧ ¬ entryOk [0x48, 0x46, 0x4D, 0x4E, 0, 0, 0, 0, 0, 0, 0, 0, 0xFF, 0x01, 0x01, 0x00] 0 := by
  refine ⟨⟨by unfold hasMagic; decide, fun h => absurd h.2.1 (by decide)⟩,
    ⟨by unfold hasMagic; decide, fun h => absurd h.2.1 (by decide)⟩, by decide, by unfold entryOk; decide⟩

/-- A decoder of another block size and with another past. -/
theorem witness_EncodeThenDecode :
    ({ tiny 1 with src := sample } : State).src.length < w64 ∧ BufInv { tiny 1 with src := sample } ∧
    ({ tiny 1 with src := sample } : State).room = none ∧
    ∃ t d, exec .encode { tiny 1 with src := sample } = .next t ∧ d.cfg.magic = (tiny 1).cfg.magic ∧
      d.cfg.blockBytes = 3 ∧ BufInv d ∧ d.room = none ∧ d.status.err = none ∧
      d.src = t.snk.drop ({ tiny 1 with src := sample } : State).snk.length := by
  obtain ⟨t, ht⟩ : ∃ t, exec .encode { tiny 1 with src := sample } = .next t := ⟨_, rfl⟩
  exact ⟨by decide, fresh_blocks _ (by decide) rfl rfl rfl rfl rfl, rfl, t,
    { tiny 3 with src := t.snk.drop ({ tiny 1 with src := sample } : State).snk.length, arg := 1 }, ht, rfl, rfl,
    fresh_blocks _ (show 1 ≤ 3 by decide) rfl rfl rfl rfl rfl, rfl, rfl, rfl⟩

/-- V-G2: the source 0B begins with the code 1101 of 0x64. -/
def sgetState : State := { tiny 2 with node := topTree, src := [0x0B], status := { Status.reset with tree := true } }

theorem witness_SgetDecodesOneSymbol :
    BufInv sgetState ∧ PortInv sgetState ∧ sgetState.status.tree = true ∧
    sgetState.inBits = [true, true, false, true] ++ [false, false, false, false] ∧
    reachesLeaf sgetState.node 0x64 root [true, true, false, true] := by
  refine ⟨fresh_blocks _ (by decide) rfl rfl rfl rfl rfl, ⟨by decide, by decide⟩, rfl, by decide +kernel, ?_⟩
  simp only [reachesLeaf]
  decide +kernel

/-- No bit to come. -/
theorem witness_SgetExhaustion :
    BufInv { sgetState with src := [] } ∧ PortInv { sgetState with src := [] } ∧
    ({ sgetState with src := [] } : State).status.tree = true ∧
    (∀ leaf p rest, ({ sgetState with src := [] } : State).inBits = p ++ rest →
      ¬ reachesLeaf ({ sgetState with src := [] } : State).node leaf root p) ∧ 255 < nSym := by
  refine ⟨fresh_blocks _ (by decide) rfl rfl rfl rfl rfl, ⟨by decide, by decide⟩, rfl, fun leaf p rest h => ?_, by decide⟩
  have h0 : ({ sgetState with src := [] } : State).inBits = [] := by decide +kernel
  rw [h0] at h
  have hp : p = [] := (List.append_eq_nil_iff.mp h.symm).1
  rw [hp]
  exact id

/-- The flat tree with its codes, about to run SPUT 0x61. -/
theorem witness_StepKeepsInv :
    Inv (cmdNext coded 0x33000061) ∧ ∃ t, step (cmdNext coded 0x33000061) = .next t :=
  ⟨{ buf := { coded_inv.buf with }, port := { coded_inv.port with }, table := { coded_inv.table with }
     run := coded_inv.run }, _, rfl⟩

theorem witness_StepNeverFaults :
    Inv coded ∧
    ({ tiny 2 with status := { Status.reset with built := true } } : State).status.built = true ∧
    walksEnd ({ tiny 2 with status := { Status.reset with built := true } } : State).node = false :=
  ⟨coded_inv, rfl, by decide +kernel⟩

theorem witness_CommandsLeaveHostStateAlone : ∃ t, exec (.sput 0x62) packed = .next t := ⟨_, rfl⟩

/-- Each flag set by a command that sets it. -/
theorem witness_FlagsSetOnlyByTheirCommands :
    (∃ t, exec .tbld (tiny 2) = .next t ∧ (tiny 2).status.built = false ∧ (tiny 2).status.tree = false ∧
      t.status.tree = true ∧ t.status.built = true) ∧
    (∃ s t, exec .cgen s = .next t ∧ s.status.codes = false ∧ t.status.codes = true) ∧
    (∃ t, exec .sget { sgetState with src := [] } = .next t ∧
      ({ sgetState with src := [] } : State).status.trunc = false ∧ t.status.trunc = true) ∧
    ∃ t, exec .nop (tiny 2) = .next t ∧ (tiny 2).status.drop = false := by
  refine ⟨?_, ?_, ⟨_, rfl, rfl, by decide +kernel⟩, ⟨_, rfl, rfl⟩⟩
  · obtain ⟨t, h1, h2, h3⟩ := tbld_zero
    exact ⟨t, h1, rfl, rfl, h2, h3⟩
  · obtain ⟨t, h1, h2⟩ := cgen_flat
    exact ⟨_, t, h1, rfl, h2⟩

/-- Each sticky field set, and an error raised. -/
theorem witness_StickyFieldsAndResOnError :
    (∃ t, exec .nop { tiny 2 with status := { Status.reset with trunc := true, drop := true, err := some .buf } } =
      .next t) ∧ Instr.nop ≠ .srst ∧ Instr.nop ≠ .eclr ∧
    ∃ t, exec .bget (tiny 2) = .next t ∧ (tiny 2).status.err = none ∧ t.status.err ≠ none :=
  ⟨⟨_, rfl⟩, by decide, by decide, _, rfl, rfl, by decide⟩

/-- Other bytes above the output cursor and in the used-up input block, before a BPUT. -/
theorem witness_UnspecifiedBlockBytesInvisible :
    BufInv (tiny 2) ∧ BufInv { tiny 2 with obuf := [(1, 0x5F)], ibuf := [(0, 0x0D)] } ∧
    ({ tiny 2 with obuf := [(1, 0x5F)], ibuf := [(0, 0x0D)] } : State).outBits = (tiny 2).outBits ∧
    ({ tiny 2 with obuf := [(1, 0x5F)], ibuf := [(0, 0x0D)] } : State).blockBits = (tiny 2).blockBits ∧
    ∃ t, exec (.bput 1) (tiny 2) = .next t := by
  refine ⟨fresh_blocks _ (by decide) rfl rfl rfl rfl rfl, ?_, by decide, by decide, _, rfl⟩
  exact
    { block := by decide, wcurByte := by decide, wcurBit := by decide, ifillMax := by decide, rcurByte := by decide
      rcurBit := by decide, obufWf := by decide, obufIn := by decide, ibufWf := by decide, ibufIn := by decide
      begun := fun h => absurd rfl h }

end Sys2Proof.Tests
end

section
/-! SUPPORT. Host writes to CMD and ARG, one equation per value of BUSY. -/

namespace Sys2Proof.Machine

theorem cmdWrite_idle (v : Word) {s : State} (h : s.busy = false) : cmdWrite v s = issue (v.setWidth 32) s := by
  simp [cmdWrite, h]

theorem cmdWrite_busy (v : Word) {s : State} (h : s.busy = true) : cmdWrite v s = .next s.markDrop := by
  simp [cmdWrite, h]

theorem argWrite_idle (v : Word) {s : State} (h : s.busy = false) : argWrite v s = { s with arg := v } := by
  simp [argWrite, h]

theorem argWrite_busy (v : Word) {s : State} (h : s.busy = true) : argWrite v s = s.markDrop := by
  simp [argWrite, h]

theorem step_cmdWrite (s : State) (v : Word) (rest : List HostAction) (h : s.pending = .write 0x00 64 v :: rest) :
    step s = cmdWrite v { s with pending := rest } := step_eq s _ rest h

theorem step_argWrite (s : State) (v : Word) (rest : List HostAction) (h : s.pending = .write 0x08 64 v :: rest) :
    step s = .next (argWrite v { s with pending := rest }) := step_eq s _ rest h

theorem step_reset (s : State) (rest : List HostAction) (h : s.pending = .reset :: rest) :
    step s = .next { s.resetCore with pending := rest, trace := [] } := step_eq s _ rest h

/-- Settles O6: whether the write is issued or dropped turns on BUSY alone. -/
theorem cmdRegister : Obligations.CmdRegister := by
  refine ⟨fun s v rest h => ⟨fun hb => ?_, fun hb => ?_⟩, fun _ => rfl⟩
  · rw [step_cmdWrite s v rest h]
    exact cmdWrite_idle v hb
  · rw [step_cmdWrite s v rest h]
    exact cmdWrite_busy v hb

/-- Settles O9: whether the write is taken or dropped turns on BUSY alone. -/
theorem argRegister : Obligations.ArgRegister := by
  refine ⟨fun s v rest h => ⟨fun hb => ?_, fun hb => ?_⟩, fun _ => rfl⟩
  · rw [step_argWrite s v rest h]
    exact congrArg _ (argWrite_idle v hb)
  · rw [step_argWrite s v rest h]
    exact congrArg _ (argWrite_busy v hb)

/-! ### The reset values of the arrays -/

theorem getElem?_replicate_getD {α : Type} (n i : Nat) (v : α) : ((Vector.replicate n v)[i]?).getD v = v := by
  by_cases h : i < n <;> simp [h]

theorem State.freqAt_resetCore (s : State) (i : Nat) : s.resetCore.freqAt i = 0 := getElem?_replicate_getD 256 i 0

theorem State.nodeAt_resetCore (s : State) (n : Nat) : s.resetCore.nodeAt n = Node.zero :=
  getElem?_replicate_getD 511 n Node.zero

theorem State.lenAt_resetCore (s : State) (i : Nat) : s.resetCore.lenAt i = 0 := getElem?_replicate_getD 256 i 0

theorem State.codeAt_resetCore (s : State) (i : Nat) : s.resetCore.codeAt i = 0 := getElem?_replicate_getD 256 i 0

/-- Settles O17: SRST and the reset input both answer `resetCore`, whose fields are those of `State.reset` but for the
host's. -/
theorem resetValues : Obligations.ResetValues := by
  intro s
  exact ⟨s.resetCore, rfl, step_reset s, rfl, rfl, rfl, rfl, fun i _ => s.freqAt_resetCore i, rfl,
    fun n _ => s.nodeAt_resetCore n, fun i _ => ⟨s.lenAt_resetCore i, s.codeAt_resetCore i⟩, rfl, rfl, rfl, rfl, rfl⟩

end Sys2Proof.Machine
end

section
/-! SUPPORT. The tree build (43_tree.md): the invariant its merge steps keep, and what it gives. -/

namespace Sys2Proof.Machine

/-! ### The seed -/

/-- An index of the arena fits the 16 bits of a node field. -/
theorem toNat_ofNat_index {n : Nat} (h : n ≤ 510) : (BitVec.ofNat 16 n).toNat = n := Nat.mod_eq_of_lt (by omega)

/-- The seed holds the keys inserted and those there before. -/
theorem seedKeys_perm (w : Nat → Word) (is : List Nat) (q : List Key) :
    (seedKeys w is q).Perm (is.map (fun i => ⟨w i, BitVec.ofNat 16 i⟩) ++ q) := by
  induction is generalizing q with
  | nil => exact List.Perm.refl _
  | cons i is ih => exact (ih _).trans (((pqInsert_perm _ q).append_left _).trans List.perm_middle)

/-- Seeding with new indices keeps the keys in rising order. -/
theorem seedKeys_pairwise (w : Nat → Word) (is : List Nat) (q : List Key) (hb : ∀ i ∈ is, i ≤ 510) (hn : is.Nodup)
    (hd : ∀ x ∈ q, x.index.toNat ∉ is) (hq : q.Pairwise fun x y => x.before y = true) :
    (seedKeys w is q).Pairwise fun x y => x.before y = true := by
  induction is generalizing q with
  | nil => exact hq
  | cons i is ih =>
    obtain ⟨hi, hn⟩ := List.nodup_cons.mp hn
    have hidx : (BitVec.ofNat 16 i).toNat = i := toNat_ofNat_index (hb i List.mem_cons_self)
    refine ih _ (fun j hj => hb j (List.mem_cons_of_mem _ hj)) hn (fun x hx => ?_)
      (pqInsert_pairwise _ _ (fun x hx e => ?_) hq)
    · rcases List.mem_cons.mp ((pqInsert_perm _ q).mem_iff.mp hx) with rfl | hx
      · rwa [hidx]
      · exact fun h => hd x hx (List.mem_cons_of_mem _ h)
    · exact hd x hx (by rw [e, hidx]; exact List.mem_cons_self)

/-! ### The invariant of the merge steps -/

/-- Node `n` joins two nodes below it, whose parent it is and whose weights it sums. -/
structure Joined (node : Vector Node 511) (n : Nat) : Prop where
  leftBelow : (nodeOf node n).left.toNat < n
  rightBelow : (nodeOf node n).right.toNat < n
  childrenDiffer : (nodeOf node n).left ≠ (nodeOf node n).right
  leftParent : (nodeOf node (nodeOf node n).left.toNat).parent.toNat = n
  rightParent : (nodeOf node (nodeOf node n).right.toNat).parent.toNat = n
  weight : (nodeOf node n).weight.toNat =
    (nodeOf node (nodeOf node n).left.toNat).weight.toNat + (nodeOf node (nodeOf node n).right.toNat).weight.toNat

/-- Node `n` has no parent yet, or is a child of its parent, an internal node with an index less than `bound`. -/
def TopOrChild (node : Vector Node 511) (bound n : Nat) : Prop :=
  (nodeOf node n).parent = 0 ∨
  (256 ≤ (nodeOf node n).parent.toNat ∧ (nodeOf node n).parent.toNat < bound ∧
    ((nodeOf node (nodeOf node n).parent.toNat).left.toNat = n ∨
     (nodeOf node (nodeOf node n).parent.toNat).right.toNat = n))

/-- Merge steps 0 to k - 1 lead from `s`, where PQ is seeded with the counts, to `t`: nodes 256 to 255 + k are joined,
and PQ holds the keys of the nodes that have no parent yet. -/
structure Merged (s : State) (k : Nat) (t : State) : Prop where
  frame : t = { s with node := t.node, pq := t.pq }
  sym : ∀ n, n ≤ 510 → (nodeOf t.node n).sym.toNat = n
  leaf : ∀ i, i < 256 → (nodeOf t.node i).weight = s.freqAt i ∧ (nodeOf t.node i).left = 0 ∧ (nodeOf t.node i).right = 0
  joined : ∀ n, 256 ≤ n → n < 256 + k → Joined t.node n
  fresh : ∀ n, 256 + k ≤ n → n ≤ 510 →
    nodeOf t.node n = { sym := BitVec.ofNat 16 n, weight := 0, left := 0, right := 0, parent := 0 }
  parent : ∀ n, n < 256 + k → TopOrChild t.node (256 + k) n
  keys : ∀ x, x ∈ t.pq ↔ x.index.toNat < 256 + k ∧ (nodeOf t.node x.index.toNat).parent = 0 ∧
    (nodeOf t.node x.index.toNat).weight = x.weight
  sorted : t.pq.Pairwise fun x y => x.before y = true
  length : t.pq.length + k = 256
  weightSum : (t.pq.map fun x => x.weight.toNat).sum = s.freqSum

/-- The nodes TreeInit leaves (R191). -/
theorem State.nodeOf_treeInit (s : State) (n : Nat) (h : n ≤ 510) :
    nodeOf s.treeInit.node n =
      { sym := BitVec.ofNat 16 n, weight := if n < 256 then s.freqAt n else 0, left := 0, right := 0, parent := 0 } :=
  nodeOf_arenaOf _ n h

/-- The seed is the keys of the 256 counts. -/
theorem initialKeys_perm (w : Nat → Word) :
    (initialKeys w).Perm ((List.range 256).map fun i => ⟨w i, BitVec.ofNat 16 i⟩) := by
  unfold initialKeys
  simpa using seedKeys_perm w (List.range nSym) []

theorem mem_initialKeys (w : Nat → Word) (x : Key) :
    x ∈ initialKeys w ↔ x.index.toNat < 256 ∧ w x.index.toNat = x.weight := by
  rw [(initialKeys_perm w).mem_iff, List.mem_map]
  constructor
  · rintro ⟨i, hi, rfl⟩
    have hi := List.mem_range.mp hi
    have e : (BitVec.ofNat 16 i).toNat = i := toNat_ofNat_index (by omega)
    exact ⟨by rwa [e], by rw [e]⟩
  · rintro ⟨hi, hw⟩
    exact ⟨x.index.toNat, List.mem_range.mpr hi, by rw [hw, BitVec.ofNat_toNat, BitVec.setWidth_eq]⟩

theorem initialKeys_pairwise (w : Nat → Word) : (initialKeys w).Pairwise fun x y => x.before y = true := by
  unfold initialKeys
  exact seedKeys_pairwise w _ [] (fun i hi => by have := List.mem_range.mp hi; simp at this; omega) List.nodup_range
    (by simp) List.Pairwise.nil

/-- Before the first merge step. -/
theorem merged_zero (s : State) : Merged s.treeInit.pqSeed 0 s.treeInit.pqSeed where
  frame := rfl
  sym n h := by
    rw [State.pqSeed_node, s.nodeOf_treeInit n h]
    exact toNat_ofNat_index h
  leaf i h := by
    rw [State.pqSeed_node, s.nodeOf_treeInit i (by omega), if_pos h]
    exact ⟨rfl, rfl, rfl⟩
  joined n h h' := by omega
  fresh n h h' := by rw [State.pqSeed_node, s.nodeOf_treeInit n h', if_neg (by omega)]
  parent n h := by
    rw [TopOrChild, State.pqSeed_node, s.nodeOf_treeInit n (by omega)]
    exact .inl rfl
  keys x := by
    rw [State.pqSeed_pq, mem_initialKeys, State.pqSeed_node]
    refine and_congr_right fun h => ?_
    rw [s.nodeOf_treeInit _ (by omega), if_pos h]
    exact (and_iff_right rfl).symm
  sorted := initialKeys_pairwise _
  length := by simpa using (initialKeys_perm s.treeInit.freqAt).length_eq
  weightSum := by
    rw [State.pqSeed_pq, ((initialKeys_perm _).map _).sum_eq, List.map_map]
    rfl

/-! ### One merge step -/

section
variable {s t : State} {k : Nat} {a b : Key} {q : List Key}

theorem Merged.pq_eq (h : Merged s k t) (hk : k ≤ 254) : ∃ a b q, t.pq = a :: b :: q := by
  have hl := h.length
  match hq : t.pq with
  | [] => simp [hq] at hl; omega
  | [a] => simp [hq] at hl; omega
  | a :: b :: q => exact ⟨a, b, q, rfl⟩

/-- Keys in PQ that come one before the other are of different nodes. -/
theorem Merged.index_ne (h : Merged s k t) {x y : Key} (hx : x ∈ t.pq) (hy : y ∈ t.pq) (hxy : x.before y = true) :
    x.index ≠ y.index := by
  intro e
  obtain ⟨-, -, wx⟩ := (h.keys x).mp hx
  obtain ⟨-, -, wy⟩ := (h.keys y).mp hy
  rw [e] at wx
  rw [Key.before_iff, e, ← wx, ← wy] at hxy
  omega

/-- A node stays joined when no node up to it changes but in its parent, and no child of its own in that either. -/
theorem Joined.of_eq {v v' : Vector Node 511} {n : Nat} (h : Joined v n)
    (hc : ∀ m, m ≤ n → nodeOf v' m = { nodeOf v m with parent := (nodeOf v' m).parent })
    (hp : ∀ m, (nodeOf v m).parent.toNat = n → (nodeOf v' m).parent = (nodeOf v m).parent) : Joined v' n := by
  have hl : (nodeOf v' n).left = (nodeOf v n).left := by rw [hc n le_rfl]
  have hr : (nodeOf v' n).right = (nodeOf v n).right := by rw [hc n le_rfl]
  have hw : ∀ m, m ≤ n → (nodeOf v' m).weight = (nodeOf v m).weight := fun m hm => by rw [hc m hm]
  constructor
  · rw [hl]; exact h.leftBelow
  · rw [hr]; exact h.rightBelow
  · rw [hl, hr]; exact h.childrenDiffer
  · rw [hl, hp _ h.leftParent]; exact h.leftParent
  · rw [hr, hp _ h.rightParent]; exact h.rightParent
  · rw [hl, hr, hw _ le_rfl, hw _ h.leftBelow.le, hw _ h.rightBelow.le]; exact h.weight

variable (h : Merged s k t) (hq : t.pq = a :: b :: q)
include h hq

/-- The two keys at the head of PQ are of two different nodes that have no parent. -/
theorem Merged.heads : a.index.toNat < 256 + k ∧ b.index.toNat < 256 + k ∧ a.index ≠ b.index ∧
    (nodeOf t.node a.index.toNat).parent = 0 ∧ (nodeOf t.node b.index.toNat).parent = 0 ∧
    (nodeOf t.node a.index.toNat).weight = a.weight ∧ (nodeOf t.node b.index.toNat).weight = b.weight := by
  have ha : a ∈ t.pq := by simp [hq]
  have hb : b ∈ t.pq := by simp [hq]
  have hab : a.before b = true := by
    have hs := h.sorted
    rw [hq] at hs
    exact List.rel_of_pairwise_cons hs List.mem_cons_self
  obtain ⟨a1, a2, a3⟩ := (h.keys a).mp ha
  obtain ⟨b1, b2, b3⟩ := (h.keys b).mp hb
  exact ⟨a1, b1, h.index_ne ha hb hab, a2, b2, a3, b3⟩

/-- The keys left in PQ are of other nodes than the two extracted. -/
theorem Merged.mem_tail_iff (x : Key) :
    x ∈ q ↔ x ∈ t.pq ∧ x.index ≠ a.index ∧ x.index ≠ b.index := by
  have hs := h.sorted
  rw [hq] at hs
  obtain ⟨ha, hs⟩ := List.pairwise_cons.mp hs
  obtain ⟨hb, -⟩ := List.pairwise_cons.mp hs
  have mem : ∀ y, y ∈ a :: b :: q → y ∈ t.pq := fun y hy => hq ▸ hy
  constructor
  · intro hx
    have hx' := mem x (by simp [hx])
    exact ⟨hx', (h.index_ne (mem a (by simp)) hx' (ha x (by simp [hx]))).symm,
      (h.index_ne (mem b (by simp)) hx' (hb x hx)).symm⟩
  · rintro ⟨hx, hxa, hxb⟩
    rw [hq] at hx
    rcases List.mem_cons.mp hx with rfl | hx
    · exact absurd rfl hxa
    · rcases List.mem_cons.mp hx with rfl | hx
      · exact absurd rfl hxb
      · exact hx

/-- The two least weights in PQ sum to no more than the counts do. -/
theorem Merged.weights_le : a.weight.toNat + b.weight.toNat ≤ s.freqSum := by
  rw [← h.weightSum, hq]
  simp only [List.map_cons, List.sum_cons]
  omega

variable (hk : k ≤ 254)
include hk

theorem Merged.nodeOf_merge (m : Nat) : nodeOf (t.merge (256 + k) a b q).node m =
    if m = 256 + k then
      { sym := BitVec.ofNat 16 (256 + k), weight := a.weight + b.weight
        left := a.index, right := b.index, parent := 0 }
    else if m = a.index.toNat ∨ m = b.index.toNat then { nodeOf t.node m with parent := BitVec.ofNat 16 (256 + k) }
    else nodeOf t.node m := by
  obtain ⟨ha, hb, hab, -⟩ := h.heads hq
  have e := nodeOf_mergeNodes t.node (256 + k) m a b (by simp; omega) ha hb fun e => hab (BitVec.eq_of_toNat_eq e)
  rw [h.fresh _ le_rfl (by omega)] at e
  exact e

/-- A merge step changes no field of a node there before but `parent`. -/
theorem Merged.nodeOf_merge_old (m : Nat) (hm : m ≠ 256 + k) : nodeOf (t.merge (256 + k) a b q).node m =
    { nodeOf t.node m with parent := (nodeOf (t.merge (256 + k) a b q).node m).parent } := by
  rw [h.nodeOf_merge hq hk, if_neg hm]
  split_ifs <;> rfl

/-- A merge step gives a parent to the nodes of the two keys, and to no other. -/
theorem Merged.parent_merge (m : Nat) : (nodeOf (t.merge (256 + k) a b q).node m).parent =
    if m = a.index.toNat ∨ m = b.index.toNat then BitVec.ofNat 16 (256 + k) else (nodeOf t.node m).parent := by
  obtain ⟨ha, hb, -⟩ := h.heads hq
  rw [h.nodeOf_merge hq hk]
  by_cases hm : m = 256 + k
  · rw [if_pos hm, if_neg (by omega), h.fresh m (by omega) (by omega)]
  · rw [if_neg hm]
    split_ifs <;> rfl

theorem Merged.parent_merge_of_ne_zero (m : Nat) (hm : (nodeOf t.node m).parent ≠ 0) :
    (nodeOf (t.merge (256 + k) a b q).node m).parent = (nodeOf t.node m).parent := by
  obtain ⟨-, -, -, pa, pb, -⟩ := h.heads hq
  rw [h.parent_merge hq hk, if_neg]
  rintro (rfl | rfl)
  · exact hm pa
  · exact hm pb

/-- Old nodes stay joined. -/
theorem Merged.joined_merge_old (n : Nat) (hn : 256 ≤ n) (hn' : n < 256 + k) :
    Joined (t.merge (256 + k) a b q).node n :=
  (h.joined n hn hn').of_eq (fun m hm => h.nodeOf_merge_old hq hk m (by omega)) fun m hm =>
    h.parent_merge_of_ne_zero hq hk m fun e => by rw [e] at hm; simp at hm; omega

/-- The step's own node is joined. -/
theorem Merged.joined_merge_new (hw : a.weight.toNat + b.weight.toNat < 18446744073709551616) :
    Joined (t.merge (256 + k) a b q).node (256 + k) := by
  obtain ⟨ha, hb, hab, -, -, wa, wb⟩ := h.heads hq
  have hn := h.nodeOf_merge hq hk (256 + k)
  rw [if_pos rfl] at hn
  have hi : (BitVec.ofNat 16 (256 + k)).toNat = 256 + k := toNat_ofNat_index (by omega)
  have old := h.nodeOf_merge_old hq hk
  constructor <;> rw [hn]
  · exact ha
  · exact hb
  · exact hab
  · rw [h.parent_merge hq hk, if_pos (.inl rfl), hi]
  · rw [h.parent_merge hq hk, if_pos (.inr rfl), hi]
  · rw [old _ ha.ne, old _ hb.ne, wa, wb]
    exact add_toNat_of_lt _ _ hw

/-- After a merge step as before it, a node has no parent or is its parent's child. -/
theorem Merged.topOrChild_merge (n : Nat) (hn : n < 256 + (k + 1)) :
    TopOrChild (t.merge (256 + k) a b q).node (256 + (k + 1)) n := by
  have hi : (BitVec.ofNat 16 (256 + k)).toNat = 256 + k := toNat_ofNat_index (by omega)
  have hp := h.parent_merge hq hk n
  unfold TopOrChild
  by_cases hc : n = a.index.toNat ∨ n = b.index.toNat
  · have hnew := h.nodeOf_merge hq hk (256 + k)
    rw [if_pos hc] at hp
    rw [if_pos rfl] at hnew
    rw [hp, hi, hnew]
    exact .inr ⟨by omega, by omega, hc.imp Eq.symm Eq.symm⟩
  · rw [if_neg hc] at hp
    rw [hp]
    by_cases hlast : n = 256 + k
    · rw [h.fresh n hlast.ge (by omega)]
      exact .inl rfl
    · refine (h.parent n (by omega)).imp_right fun ⟨h1, h2, h3⟩ => ⟨h1, by omega, ?_⟩
      rw [h.nodeOf_merge_old hq hk _ (by omega)]
      exact h3

/-- After a merge step as before it, PQ holds the keys of the nodes without a parent. -/
theorem Merged.keys_merge (x : Key) :
    x ∈ (t.merge (256 + k) a b q).pq ↔ x.index.toNat < 256 + (k + 1) ∧
      (nodeOf (t.merge (256 + k) a b q).node x.index.toNat).parent = 0 ∧
      (nodeOf (t.merge (256 + k) a b q).node x.index.toNat).weight = x.weight := by
  have hi : (BitVec.ofNat 16 (256 + k)).toNat = 256 + k := toNat_ofNat_index (by omega)
  rw [State.merge_pq, (pqInsert_perm _ q).mem_iff, List.mem_cons, h.mem_tail_iff hq, h.keys]
  by_cases hx : x.index.toNat = 256 + k
  · have hnew := h.nodeOf_merge hq hk x.index.toNat
    rw [if_pos hx] at hnew
    rw [hnew]
    have he : x.index = BitVec.ofNat 16 (256 + k) := BitVec.eq_of_toNat_eq (by rw [hi]; exact hx)
    have hold : ¬ x.index.toNat < 256 + k := by omega
    have hnext : x.index.toNat < 256 + (k + 1) := by omega
    have hkey : x = ⟨a.weight + b.weight, BitVec.ofNat 16 (256 + k)⟩ ↔ a.weight + b.weight = x.weight := by
      rw [← he]
      exact ⟨fun e => by rw [e], fun e => by rw [e]⟩
    simp only [hkey, hold, hnext, false_and, or_false, true_and]
  · have hne : x ≠ ⟨a.weight + b.weight, BitVec.ofNat 16 (256 + k)⟩ := by
      rintro rfl
      exact hx hi
    have hlt : x.index.toNat < 256 + (k + 1) ↔ x.index.toNat < 256 + k := by omega
    rw [h.nodeOf_merge_old hq hk _ hx, h.parent_merge hq hk, hlt]
    simp only [hne, false_or, BitVec.toNat_inj]
    by_cases hc : x.index = a.index ∨ x.index = b.index
    · have h0 : BitVec.ofNat 16 (256 + k) ≠ 0 := fun e =>
        absurd (hi.symm.trans (congrArg BitVec.toNat e)) (by simp)
      simp only [if_pos hc, h0, false_and, and_false, iff_false]
      rintro ⟨-, h1, h2⟩
      exact hc.elim h1 h2
    · simp only [if_neg hc]
      exact and_iff_left (not_or.mp hc)

/-- A merge step whose weights do not overflow keeps the invariant (R193). -/
theorem Merged.step (hw : a.weight.toNat + b.weight.toNat < 18446744073709551616) :
    Merged s (k + 1) (t.merge (256 + k) a b q) where
  frame := by rw [State.merge, h.frame]
  sym n hn := by
    by_cases e : n = 256 + k
    · rw [h.nodeOf_merge hq hk, if_pos e, e]
      exact toNat_ofNat_index (by omega)
    · rw [h.nodeOf_merge_old hq hk n e]
      exact h.sym n hn
  leaf i hi := by
    rw [h.nodeOf_merge_old hq hk i (by omega)]
    exact h.leaf i hi
  joined n hn hn' := by
    by_cases e : n = 256 + k
    · rw [e]
      exact h.joined_merge_new hq hk hw
    · exact h.joined_merge_old hq hk n hn (by omega)
  fresh n hn hn' := by
    obtain ⟨ha, hb, -⟩ := h.heads hq
    rw [h.nodeOf_merge hq hk, if_neg (by omega), if_neg (by omega)]
    exact h.fresh n (by omega) hn'
  parent := h.topOrChild_merge hq hk
  keys := h.keys_merge hq hk
  sorted := by
    have hs := h.sorted
    rw [hq] at hs
    refine pqInsert_pairwise _ q (fun x hx e => ?_) hs.tail.tail
    have hlt := ((h.keys x).mp (by simp [hq, hx])).1
    rw [e, toNat_ofNat_index (by omega)] at hlt
    omega
  length := by
    have hl := h.length
    rw [hq] at hl
    rw [State.merge_pq, (pqInsert_perm _ q).length_eq]
    simp only [List.length_cons] at hl ⊢
    omega
  weightSum := by
    have hsum := h.weightSum
    rw [hq] at hsum
    rw [State.merge_pq, ((pqInsert_perm _ q).map _).sum_eq, ← hsum]
    simp only [List.map_cons, List.sum_cons, add_toNat_of_lt _ _ hw, Nat.add_assoc]

end

/-! ### All the merge steps -/

theorem mergeSteps_concat (ks : List Nat) (k : Nat) (s : State) :
    mergeSteps (ks ++ [k]) s = (mergeSteps ks s).bind fun _ t => t.mergeStep k := by
  induction ks generalizing s with
  | nil =>
    show (s.mergeStep k).bind (fun _ t => .ok () t) = s.mergeStep k
    cases s.mergeStep k <;> rfl
  | cons j ks ih =>
    show (s.mergeStep j).bind (fun _ t => mergeSteps (ks ++ [k]) t) =
      ((s.mergeStep j).bind fun _ t => mergeSteps ks t).bind _
    cases s.mergeStep j with
    | ok _ t => exact ih t
    | raised e t => rfl

/-- Everything the first `k` merge steps can do: they are made in full, or one of them overflows (R193). -/
theorem mergeSteps_range_cases {s : State} (h : Merged s 0 s) (k : Nat) (hk : k ≤ 255) :
    (∃ t, mergeSteps (List.range k) s = .ok () t ∧ Merged s k t) ∨
    ∃ j t a b q, j < k ∧ mergeSteps (List.range k) s = .raised .wovf t ∧ mergeSteps (List.range j) s = .ok () t ∧
      Merged s j t ∧ t.mergeStep j = .raised .wovf t ∧ t.pq = a :: b :: q ∧ w64 ≤ a.weight.toNat + b.weight.toNat := by
  induction k with
  | zero => exact .inl ⟨s, rfl, h⟩
  | succ k ih =>
    rw [List.range_succ, mergeSteps_concat]
    rcases ih (by omega) with ⟨t, e, ht⟩ | ⟨j, t, a, b, q, hj, e, rest⟩
    · obtain ⟨a, b, q, hq⟩ := ht.pq_eq (by omega)
      rw [e, Flow.bind_ok]
      rcases t.mergeStep_cases k a b q hq with ⟨hw, e'⟩ | ⟨hw, e'⟩
      · exact .inr ⟨k, t, a, b, q, by omega, e', e, ht, e', hq, hw⟩
      · exact .inl ⟨_, e', ht.step hq (by omega) hw⟩
    · exact .inr ⟨j, t, a, b, q, by omega, by rw [e, Flow.bind_raised], rest⟩

/-- Counts whose sum fits are merged in full. -/
theorem mergeAll_ok (s : State) (hs : s.freqSum < w64) :
    ∃ t, mergeAll s.treeInit.pqSeed = .ok () t ∧ Merged s.treeInit.pqSeed 255 t := by
  unfold mergeAll
  rcases mergeSteps_range_cases (merged_zero s) 255 le_rfl with h | ⟨j, t, a, b, q, hj, -, -, ht, -, hq, hw⟩
  · exact h
  · have hle := ht.weights_le hq
    have : s.treeInit.pqSeed.freqSum = s.freqSum := rfl
    omega

/-! ### The tree once all steps are made -/

section
variable {s t : State} (h : Merged s 255 t)
include h

/-- Before TreeFinish the root has no parent: a parent would have a greater index. -/
theorem Merged.parent_root : (nodeOf t.node 510).parent = 0 := by
  refine (h.parent 510 (by omega)).resolve_right fun ⟨h1, h2, h3⟩ => ?_
  have hj := h.joined _ h1 h2
  have := hj.leftBelow
  have := hj.rightBelow
  omega

/-- One key is left, that of the root. -/
theorem Merged.pq_root : t.pq = [⟨(nodeOf t.node 510).weight, 510⟩] := by
  obtain ⟨x, hx⟩ := List.length_eq_one_iff.mp (by have := h.length; omega : t.pq.length = 1)
  have hroot : (⟨(nodeOf t.node 510).weight, 510⟩ : Key) ∈ t.pq := (h.keys _).mpr ⟨by simp, h.parent_root, rfl⟩
  rw [hx] at hroot ⊢
  rw [List.mem_singleton.mp hroot]

/-- Every node below the root is a child. -/
theorem Merged.parent_of_lt_root (n : Nat) (hn : n < 510) :
    256 ≤ (nodeOf t.node n).parent.toNat ∧ (nodeOf t.node n).parent.toNat ≤ 510 ∧
    ((nodeOf t.node (nodeOf t.node n).parent.toNat).left.toNat = n ∨
     (nodeOf t.node (nodeOf t.node n).parent.toNat).right.toNat = n) := by
  rcases h.parent n (by omega) with h0 | ⟨h1, h2, h3⟩
  · have e : (BitVec.ofNat 16 n).toNat = n := toNat_ofNat_index (by omega)
    have hm : (⟨(nodeOf t.node n).weight, BitVec.ofNat 16 n⟩ : Key) ∈ t.pq :=
      (h.keys _).mpr ⟨by simp only [e]; omega, by simp only [e, h0], by simp only [e]⟩
    rw [h.pq_root, List.mem_singleton, Key.mk.injEq] at hm
    have := congrArg BitVec.toNat hm.2
    rw [e] at this
    simp at this
    omega
  · exact ⟨h1, by omega, h3⟩

end

/-- TreeFinish makes the root its own parent and changes nothing else of the arena (R194). -/
theorem State.nodeOf_treeFinish (t : State) (n : Nat) : nodeOf t.treeFinish.node n =
    if n = 510 then { nodeOf t.node 510 with parent := 510 } else nodeOf t.node n := by
  have e : nodeOf t.treeFinish.node n = _ := nodeOf_setNode t.node root n _
  simpa using e

theorem State.nodeOf_treeFinish_of_lt (t : State) {n : Nat} (h : n < 510) :
    nodeOf t.treeFinish.node n = nodeOf t.node n := by
  rw [t.nodeOf_treeFinish, if_neg (by omega)]

section
variable {s t : State} (h : Merged s 255 t)
include h

/-- Every internal node of the finished tree joins two others. -/
theorem Merged.joined_treeFinish (n : Nat) (hn : 256 ≤ n) (hn' : n ≤ 510) : Joined t.treeFinish.node n := by
  refine (h.joined n hn (by omega)).of_eq (fun m _ => ?_) fun m hm => ?_
  · rw [t.nodeOf_treeFinish]
    split_ifs with e
    · rw [e]
    · rfl
  · rw [t.nodeOf_treeFinish, if_neg]
    rintro rfl
    rw [h.parent_root] at hm
    simp at hm
    omega

theorem Merged.treeShape : TreeShape t.treeFinish.node where
  rootParent := by
    rw [t.nodeOf_treeFinish, if_pos rfl]
    rfl
  leftBelow n hn hn' := (h.joined_treeFinish n hn hn').leftBelow
  rightBelow n hn hn' := (h.joined_treeFinish n hn hn').rightBelow
  childrenDiffer n hn hn' := (h.joined_treeFinish n hn hn').childrenDiffer
  leftParent n hn hn' := (h.joined_treeFinish n hn hn').leftParent
  rightParent n hn hn' := (h.joined_treeFinish n hn hn').rightParent
  isChild n hn := by
    obtain ⟨h1, h2, h3⟩ := h.parent_of_lt_root n hn
    rw [t.nodeOf_treeFinish_of_lt hn]
    refine ⟨h1, h2, ?_⟩
    rw [t.nodeOf_treeFinish]
    split_ifs with e
    · rwa [e] at h3
    · exact h3

theorem Merged.weightsAdd : WeightsAdd t.treeFinish.node :=
  fun n hn hn' => (h.joined_treeFinish n hn hn').weight

theorem Merged.arenaOk : ArenaOk t.treeFinish.node := by
  refine ⟨fun n hn => ?_, fun n hn hn' => ?_⟩
  · rw [t.nodeOf_treeFinish]
    split_ifs with e
    · rw [e]
      exact h.sym 510 le_rfl
    · exact h.sym n hn
  · have hj := h.joined_treeFinish n hn hn'
    exact ⟨hj.leftBelow.le.trans hn', hj.rightBelow.le.trans hn'⟩

/-- The root weighs as much as all counts together. -/
theorem Merged.weight_root : (nodeOf t.treeFinish.node 510).weight.toNat = s.freqSum := by
  rw [← h.weightSum, h.pq_root, t.nodeOf_treeFinish, if_pos rfl]
  rfl

end

/-! ### Code paths -/

/-- From any node the walk up ends at the root, since a parent's index is greater than its child's (R222). -/
theorem TreeShape.pathUp_isSome {node : Vector Node 511} (h : TreeShape node) (k : Nat) :
    ∀ (n : Nat) (below : List Bool), n ≤ 510 → 510 - n ≤ k → ∃ p, pathUp node k n below = some p := by
  induction k with
  | zero =>
    intro n below hn hk
    exact ⟨below, if_pos (by simp; omega)⟩
  | succ k ih =>
    intro n below hn hk
    by_cases hr : n = 510
    · exact ⟨below, if_pos hr⟩
    · obtain ⟨h1, h2, hc⟩ := h.isChild n (by simp; omega)
      have hup : n < (nodeOf node n).parent.toNat := by
        have hl := h.leftBelow _ h1 h2
        have hr := h.rightBelow _ h1 h2
        omega
      obtain ⟨p, hp⟩ := ih (nodeOf node n).parent.toNat
        ((!decide ((nodeOf node (nodeOf node n).parent.toNat).left.toNat = n)) :: below) h2 (by omega)
      exact ⟨p, (if_neg hr).trans hp⟩

/-- Every leaf of a complete tree has a code, of 1 to 255 bits (R222). -/
theorem TreeShape.codePath_exists {node : Vector Node 511} (h : TreeShape node) (i : Nat) (hi : i < nSym) :
    ∃ p, codePath node i = some p ∧ 1 ≤ p.length ∧ p.length ≤ 255 := by
  have hi : i < 256 := hi
  obtain ⟨h1, h2, -⟩ := h.isChild i (by simp; omega)
  obtain ⟨p, hp⟩ := h.pathUp_isSome 254 (nodeOf node i).parent.toNat
    [!decide ((nodeOf node (nodeOf node i).parent.toNat).left.toNat = i)] h2 (by simp at h1; omega)
  have hcode : codePath node i = some p := (if_neg (by simp; omega)).trans hp
  exact ⟨p, hcode, (pathUp_length _ _ _ _ _ hp).1, codePath_length _ _ _ hcode⟩

/-! ### TBLD -/

/-- What TBLD answers when the counts' sum fits (R190). -/
theorem execTbld_of_freqSum_lt (s : State) (hs : s.freqSum < w64) :
    ∃ t, Merged s.clearTables.treeInit.pqSeed 255 t ∧
      exec .tbld s = .next { t.treeFinish.markBuilt with res := (nodeOf t.treeFinish.node 510).weight } := by
  obtain ⟨t, ht, hm⟩ := mergeAll_ok s.clearTables hs
  refine ⟨t, hm, ?_⟩
  rcases s.treeBuild_cases with ⟨u, hu, e⟩ | ⟨_, u, hu, -⟩
  · obtain rfl : t = u := by
      rw [ht] at hu
      cases hu
      rfl
    show Host.Outcome.next (s.treeBuild.bind fun _ s => .ok (s.nodeAt root).weight s).close = _
    rw [e]
    rfl
  · rw [ht] at hu
    cases hu

/-- Settles O29: the merge steps keep `Merged`, which after all 255 of them leaves the root as the only node without a
parent. -/
theorem tbldBuildsTheTree : Obligations.TbldBuildsTheTree := by
  intro s hs
  obtain ⟨t, hm, e⟩ := execTbld_of_freqSum_lt s hs
  refine ⟨_, e, ?_, hm.treeShape, hm.weightsAdd, hm.arenaOk, fun i hi => ?_, rfl, hm.weight_root,
    hm.treeShape.codePath_exists⟩
  · rw [hm.frame]
    rfl
  · have hi' : i < 256 := hi
    rw [State.markBuilt_node, t.nodeOf_treeFinish_of_lt (by omega)]
    exact hm.leaf i hi

end Sys2Proof.Machine
end

section
/-! SUPPORT. Decoding (30_encoding.md R106, R109): which words each form of command refuses, and which form each opcode
has. -/

namespace Sys2Proof

/-! ### The forms -/

theorem plainForm_illegal_iff (i : Instr) (sub : BitVec 8) (imm : BitVec 16) :
    (∃ e, plainForm i sub imm = .error e) ↔ sub ≠ 0 ∨ imm ≠ 0 := by
  unfold plainForm
  split_ifs with hs hi
  · exact iff_of_true ⟨_, rfl⟩ (.inl hs)
  · exact iff_of_true ⟨_, rfl⟩ (.inr hi)
  · exact iff_of_false nofun (not_or.mpr ⟨hs, hi⟩)

theorem immForm_illegal_iff (f : Nat → Instr) (sub : BitVec 8) (imm : BitVec 16) :
    (∃ e, immForm f sub imm = .error e) ↔ sub ≠ 0 := by
  unfold immForm
  split_ifs with hs
  · exact iff_of_true ⟨_, rfl⟩ hs
  · exact iff_of_false nofun hs

theorem fieldOf_illegal_iff (sub : BitVec 8) : (∃ e, fieldOf sub = .error e) ↔ 5 ≤ sub.toNat := by
  unfold fieldOf
  split
  case h_6 => exact iff_of_true ⟨_, rfl⟩ (by grind)
  all_goals exact iff_of_false nofun (by omega)

theorem nrdForm_illegal_iff (sub : BitVec 8) (imm : BitVec 16) :
    (∃ e, nrdForm sub imm = .error e) ↔ 5 ≤ sub.toNat := by
  rw [← fieldOf_illegal_iff]
  unfold nrdForm
  cases fieldOf sub <;> simp

theorem crdForm_illegal_iff (sub : BitVec 8) (imm : BitVec 16) :
    (∃ e, crdForm sub imm = .error e) ↔ 4 ≤ sub.toNat := by
  unfold crdForm
  split_ifs with hs <;> simp <;> omega

/-! ### The opcodes -/

/-- The opcodes of the commands with no operand (R103). -/
def plainOpcodes : List (BitVec 8) :=
  [0x00, 0x01, 0x02, 0x10, 0x12, 0x15, 0x20, 0x30, 0x41, 0x42, 0x43, 0x44, 0x45, 0x50, 0x51, 0x52]

/-- The opcodes of the commands with an IMM operand and SUB = 0 (R103). -/
def immOpcodes : List (BitVec 8) := [0x11, 0x13, 0x14, 0x31, 0x33, 0x40]

/-- The opcodes of all commands with an IMM operand (R102). -/
def operandOpcodes : List (BitVec 8) := [0x11, 0x13, 0x14, 0x21, 0x31, 0x32, 0x33, 0x40]

/-- The opcodes outside the table (R109). -/
def illegalOpcodes : List Nat :=
  List.range' 0x03 13 ++ List.range' 0x16 10 ++ List.range' 0x22 14 ++ List.range' 0x34 12 ++
    List.range' 0x46 10 ++ List.range' 0x53 173

/-- An opcode that no command has is one of R109's. -/
theorem decodeFields_unlisted {opc : BitVec 8} (sub : BitVec 8) (imm : BitVec 16) (hp : opc ∉ plainOpcodes)
    (hi : opc ∉ immOpcodes) (hn : opc ≠ 0x21) (hc : opc ≠ 0x32) :
    opc.toNat ∈ illegalOpcodes ∧ decodeFields opc sub imm = .error .opcode := by
  have hl := opc.isLt
  simp only [plainOpcodes, immOpcodes, List.mem_cons, List.not_mem_nil, or_false, not_or, ne_eq,
    ← BitVec.toNat_inj, BitVec.reduceToNat] at hp hi hn hc
  constructor
  · simp only [illegalOpcodes, List.mem_append, List.mem_range'_1]
    omega
  · unfold decodeFields
    split
    case h_25 => rfl
    all_goals omega

/-- Everything decoding can do: the form of the opcode's command decides, or there is no command. -/
theorem decodeFields_cases (opc sub : BitVec 8) (imm : BitVec 16) :
    (opc ∈ plainOpcodes ∧ ∃ i, decodeFields opc sub imm = plainForm i sub imm) ∨
    (opc ∈ immOpcodes ∧ ∃ f, decodeFields opc sub imm = immForm f sub imm) ∨
    (opc = 0x21 ∧ decodeFields opc sub imm = nrdForm sub imm) ∨
    (opc = 0x32 ∧ decodeFields opc sub imm = crdForm sub imm) ∨
    (opc.toNat ∈ illegalOpcodes ∧ decodeFields opc sub imm = .error .opcode) := by
  by_cases hp : opc ∈ plainOpcodes
  · refine .inl ⟨hp, ?_⟩
    fin_cases hp <;> exact ⟨_, rfl⟩
  by_cases hi : opc ∈ immOpcodes
  · refine .inr (.inl ⟨hi, ?_⟩)
    fin_cases hi <;> exact ⟨_, rfl⟩
  by_cases hn : opc = 0x21
  · exact .inr (.inr (.inl ⟨hn, by rw [hn]; rfl⟩))
  by_cases hc : opc = 0x32
  · exact .inr (.inr (.inr (.inl ⟨hc, by rw [hc]; rfl⟩)))
  exact .inr (.inr (.inr (.inr (decodeFields_unlisted sub imm hp hi hn hc))))

theorem legal_of_mem_plainOpcodes : ∀ opc ∈ plainOpcodes, opc.toNat ∉ illegalOpcodes ∧ opc ≠ 0x21 ∧
    opc ≠ 0x32 ∧ opc ∉ operandOpcodes := by decide

theorem legal_of_mem_immOpcodes : ∀ opc ∈ immOpcodes, opc.toNat ∉ illegalOpcodes ∧ opc ≠ 0x21 ∧
    opc ≠ 0x32 ∧ opc ∈ operandOpcodes := by decide

/-- The illegal words, opcode by opcode (R109). -/
theorem decode_illegal_iff (w : BitVec 32) : (∃ e, decode w = .error e) ↔
    (opcOf w).toNat ∈ illegalOpcodes ∨
    (opcOf w ≠ 0x21 ∧ opcOf w ≠ 0x32 ∧ subOf w ≠ 0) ∨
    (opcOf w = 0x21 ∧ 5 ≤ (subOf w).toNat) ∨
    (opcOf w = 0x32 ∧ 4 ≤ (subOf w).toNat) ∨
    (opcOf w ∉ operandOpcodes ∧ immOf w ≠ 0) := by
  unfold decode
  generalize opcOf w = opc, subOf w = sub, immOf w = imm
  rcases decodeFields_cases opc sub imm with ⟨h, i, e⟩ | ⟨h, f, e⟩ | ⟨h, e⟩ | ⟨h, e⟩ | ⟨h, e⟩ <;> rw [e]
  · obtain ⟨h1, h2, h3, h4⟩ := legal_of_mem_plainOpcodes opc h
    rw [plainForm_illegal_iff]
    tauto
  · obtain ⟨h1, h2, h3, h4⟩ := legal_of_mem_immOpcodes opc h
    rw [immForm_illegal_iff]
    tauto
  · rw [nrdForm_illegal_iff, h]
    simp [illegalOpcodes, operandOpcodes]
  · rw [crdForm_illegal_iff, h]
    simp [illegalOpcodes, operandOpcodes]
  · exact ⟨fun _ => .inl h, fun _ => ⟨_, rfl⟩⟩

end Sys2Proof
end

section
/-! SUPPORT. Issuing a command word (30_encoding.md R105, R106): a word is blocked, refused or run; and the range checks
(R107). -/

namespace Sys2Proof.Machine

/-- R105: a word that ERR blocks. -/
theorem issue_blocked {w : BitVec 32} {s : State} (h : s.status.err ≠ none) (hw : runsInError w = false) :
    issue w s = .next s := by
  have h' : s.status.err.isSome = true := Option.isSome_iff_ne_none.mpr h
  simp [issue, h', hw]

/-- R106: a word that is not blocked is decoded. -/
theorem issue_decoded {w : BitVec 32} {s : State} (h : s.status.err = none ∨ runsInError w = true) {i : Instr}
    (hd : Sys2Proof.decode w = .ok i) : issue w s = exec i { s with trace := [] } := by
  rcases h with h | h <;> simp [issue, h, hd]

theorem issue_illegal {w : BitVec 32} {s : State} (h : s.status.err = none) {e : Illegal}
    (hd : Sys2Proof.decode w = .error e) :
    issue w s = .next { s with trace := [], status := { s.status with err := some .illegal } } := by
  simp [issue, h, hd, State.raise]

/-- Settles O3: the form of the opcode's command decides which words are illegal. -/
theorem illegalEncodings : Obligations.IllegalEncodings :=
  fun w => ⟨decode_illegal_iff w, fun _ _ hd h => issue_illegal h hd⟩

theorem runsInError_eq_false {w : BitVec 32} (h0 : w ≠ 0x00000000) (h1 : w ≠ 0x01000000) (h2 : w ≠ 0x02000000) :
    runsInError w = false := by
  simp only [runsInError, Bool.or_eq_false_iff, decide_eq_false_iff_not]
  exact ⟨⟨h0, h1⟩, h2⟩

/-- Settles O8: with ERR not 0, a word is issued or ignored as `runsInError` says. -/
theorem errorBlocksCommands : Obligations.ErrorBlocksCommands := by
  intro s v rest hp hb he
  have hstep : step s = issue (v.setWidth 32) { s with pending := rest } :=
    (step_cmdWrite s v rest hp).trans (cmdWrite_idle v hb)
  rw [hstep]
  refine ⟨fun h0 h1 h2 => issue_blocked he (runsInError_eq_false h0 h1 h2), fun h => ?_, fun h => ?_, fun h => ?_⟩ <;>
    rw [h] <;> exact issue_decoded (.inr rfl) rfl

/-- Settles O21: the range check stands in front of everything else each of these commands does. -/
theorem rangeChecks : Obligations.RangeChecks := by
  refine fun s imm => ⟨fun h => ?_, fun h f => inRange_fail s _ h, fun h => inRange_fail s _ h⟩
  exact ⟨inRange_fail s _ h, inRange_fail s _ h, inRange_fail s _ h, inRange_fail s _ h,
    fun w hw => (inWords_pass s _ hw).trans (inRange_fail s _ h), inRange_fail s _ h⟩

end Sys2Proof.Machine
end

section
/-! SUPPORT. The sequence checks (30_encoding.md R108): no part of a command raises E_SEQ, so that only a check before it
can. -/

namespace Sys2Proof.Machine

/-! ### Operations that leave STATUS alone -/

@[simp] theorem State.srcRead_status (s : State) : s.srcRead.2.status = s.status := by
  rcases s.srcRead_cases with ⟨b, -, e⟩ | ⟨-, e⟩ <;> rw [e]

@[simp] theorem State.snkWrites_status (s : State) (bs : List Byte) : (s.snkWrites bs).status = s.status := by
  rw [s.snkWrites_eq]

@[simp] theorem State.flush_status (s : State) : s.flush.2.status = s.status := by rw [s.flush_snd]

@[simp] theorem State.flushIfFull_status (s : State) : s.flushIfFull.status = s.status := by
  unfold State.flushIfFull
  split_ifs <;> simp

@[simp] theorem State.emitBit_status (s : State) (b : Bool) : (s.emitBit b).status = s.status := by
  simp [State.emitBit]

@[simp] theorem State.emitCode_status (s : State) (i : Nat) : (s.emitCode i).status = s.status := by
  unfold State.emitCode
  generalize s.codeOf i = bits
  induction bits generalizing s with
  | nil => rfl
  | cons b bits ih => exact (ih _).trans (s.emitBit_status b)

theorem refillLoop_status (k : Nat) : ∀ (n : Nat) (s : State), (refillLoop k n s).2.status = s.status := by
  induction k with
  | zero => exact fun _ _ => rfl
  | succ k ih =>
    intro n s
    have h := s.srcRead_status
    unfold refillLoop
    generalize s.srcRead = r at h ⊢
    obtain ⟨_ | c, t⟩ := r
    · exact h
    · exact (ih _ _).trans h

@[simp] theorem State.refill_status (s : State) : s.refill.2.status = s.status := refillLoop_status _ 0 s

@[simp] theorem State.nextBit_status (s : State) : s.nextBit.2.status = s.status := by
  unfold State.nextBit
  split_ifs
  · show (if s.refill.1 = 0 then _ else _ : Option Bool × State).2.status = _
    split_ifs <;> exact s.refill_status
  · rfl

theorem emitLoop_status (k : Nat) : ∀ s : State, (emitLoop k s).status = s.status := by
  induction k with
  | zero => exact fun _ => rfl
  | succ k ih =>
    intro s
    have h := s.srcRead_status
    unfold emitLoop
    generalize s.srcRead = r at h ⊢
    obtain ⟨_ | c, t⟩ := r
    · exact h
    · exact ((ih _).trans (t.emitCode_status _)).trans h

@[simp] theorem State.writeArchive_status (s : State) : s.writeArchive.status = s.status :=
  (State.flush_status _).trans ((emitLoop_status _ _).trans (s.snkWrites_status _))

/-- DecodePayload sets TRUNC at most (R286). -/
theorem payloadLoop_err (len k : Nat) : ∀ (count n : Nat) (s : State),
    (payloadLoop len k count n s).2.status.err = s.status.err := by
  induction k with
  | zero => exact fun _ _ _ => rfl
  | succ k ih =>
    intro count n s
    have h := congrArg Status.err s.nextBit_status
    unfold payloadLoop
    split_ifs
    · generalize s.nextBit = r at h ⊢
      obtain ⟨_ | b, t⟩ := r
      · exact h
      · show (if t.child n b < nSym then _ else _ : Nat × State).2.status.err = _
        split_ifs <;> exact (ih _ _ _).trans h
    · rfl

/-- A command that is held keeps the STATUS it was issued with. -/
theorem State.stall_status (i : Instr) (s t : State) : (State.stall i s t).status = s.status := by
  show (s.replay _).status = s.status
  rw [s.replay_frame]

/-- The STATUS in which a command ends, or is held. -/
theorem State.settle_status (i : Instr) (s t : State) :
    (s.settle i t).status = t.status ∨ (s.settle i t).status = s.status := by
  cases h : s.room with
  | none => exact .inl (by rw [State.settle_none i s t h])
  | some r =>
    by_cases hn : t.snk.length - s.snk.length ≤ r
    · exact .inl (by rw [State.settle_room i s t r h hn])
    · exact .inr (by rw [State.settle_stall i s t r h (by omega), State.stall_status])

/-! ### Parts of a command that raise no E_SEQ -/

/-- A part of a command that found `err` in ERR leaves it there, and raises no E_SEQ. -/
def Flow.NoSeq {α : Type} (err : Option Err) : Flow α → Prop
  | .ok _ t => t.status.err = err
  | .raised e t => t.status.err = err ∧ e ≠ .seq

theorem Flow.NoSeq.bind {α β : Type} {err : Option Err} {x : Flow α} {f : α → State → Flow β} (h : x.NoSeq err)
    (h' : ∀ a t, (f a t).NoSeq t.status.err) : (x.bind f).NoSeq err := by
  cases x with
  | ok a t => exact h ▸ h' a t
  | raised e t => exact h

theorem State.tally_noSeq (s : State) (b : Nat) : (s.tally b).NoSeq s.status.err := by
  rcases s.tally_cases b with ⟨-, -, e⟩ | ⟨-, e⟩ <;> rw [e]
  · rfl
  · exact ⟨rfl, by decide⟩

theorem countLoop_noSeq (k : Nat) : ∀ s : State, (countLoop k s).NoSeq s.status.err := by
  induction k with
  | zero => exact fun _ => rfl
  | succ k ih =>
    intro s
    rw [← s.srcRead_status]
    unfold countLoop
    generalize s.srcRead = r
    obtain ⟨_ | c, t⟩ := r
    · rfl
    · exact (t.tally_noSeq _).bind fun _ u => ih u

theorem State.freqPass_noSeq (s : State) : s.freqPass.NoSeq s.status.err :=
  (countLoop_noSeq _ s.srcRewind.freqClear).bind fun _ _ => rfl

theorem State.mergeStep_noSeq (s : State) (k : Nat) : (s.mergeStep k).NoSeq s.status.err := by
  unfold State.mergeStep
  split
  · split_ifs
    · exact ⟨rfl, by decide⟩
    · rfl
  · rfl

theorem mergeSteps_noSeq (ks : List Nat) : ∀ s : State, (mergeSteps ks s).NoSeq s.status.err := by
  induction ks with
  | nil => exact fun _ => rfl
  | cons k ks ih => exact fun s => (s.mergeStep_noSeq k).bind fun _ t => ih t

theorem mergeAll_noSeq (s : State) : (mergeAll s).NoSeq s.status.err := by
  unfold mergeAll
  exact mergeSteps_noSeq _ s

theorem State.treeBuild_noSeq (s : State) : s.treeBuild.NoSeq s.status.err := by
  have h := mergeAll_noSeq s.clearTables.treeInit.pqSeed
  rcases s.treeBuild_cases with ⟨t, ht, e⟩ | ⟨r, t, ht, e⟩ <;> rw [e] <;> rw [ht] at h <;> exact h

theorem State.encode_noSeq (s : State) : s.encode.NoSeq s.status.err :=
  s.freqPass_noSeq.bind fun _ t => t.treeBuild_noSeq.bind fun _ u =>
    (congrArg Status.err u.codeWalks.markCodes.writeArchive_status).trans rfl

theorem checkMagic_noSeq (ms : List Byte) : ∀ s : State, (checkMagic ms s).NoSeq s.status.err := by
  induction ms with
  | nil => exact fun _ => rfl
  | cons m ms ih =>
    intro s
    rw [← s.srcRead_status]
    unfold checkMagic
    generalize s.srcRead = r
    obtain ⟨_ | c, t⟩ := r
    · exact ⟨rfl, by decide⟩
    · show (if c = m then checkMagic ms t else .raised .format t : Flow Unit).NoSeq t.status.err
      split_ifs
      · exact ih t
      · exact ⟨rfl, by decide⟩

theorem State.headByte_noSeq (s : State) : s.headByte.NoSeq s.status.err := by
  rcases s.headByte_cases with ⟨b, -, e⟩ | ⟨-, e⟩ <;> rw [e]
  · rfl
  · exact ⟨rfl, by decide⟩

theorem readLen_noSeq (k : Nat) : ∀ (j : Nat) (len : Word) (s : State), (readLen k j len s).NoSeq s.status.err := by
  induction k with
  | zero => exact fun _ _ _ => rfl
  | succ k ih => exact fun j len s => s.headByte_noSeq.bind fun _ t => ih _ _ t

theorem State.readLE16_noSeq (s : State) : s.readLE16.NoSeq s.status.err :=
  s.headByte_noSeq.bind fun _ t => t.headByte_noSeq.bind fun _ _ => rfl

theorem State.loadEntry_noSeq (s : State) (i : Nat) : (s.loadEntry i).NoSeq s.status.err :=
  s.readLE16_noSeq.bind fun _ t => t.readLE16_noSeq.bind fun _ _ => by
    split_ifs
    · rfl
    · exact ⟨rfl, by decide⟩

theorem loadEntries_noSeq (is : List Nat) : ∀ s : State, (loadEntries is s).NoSeq s.status.err := by
  induction is with
  | nil => exact fun _ => rfl
  | cons i is ih => exact fun s => (s.loadEntry_noSeq i).bind fun _ t => ih t

theorem State.loadTree_noSeq (s : State) : s.loadTree.NoSeq s.status.err :=
  (readLen_noSeq 8 0 0 s.clearTables.arenaReset).bind fun _ t => (loadEntries_noSeq _ t).bind fun _ _ => rfl

theorem State.decode_noSeq (s : State) : s.decode.NoSeq s.status.err :=
  (checkMagic_noSeq _ { s.srcRewind with ifill := 0, rcur := Cursor.zero }).bind fun _ t =>
    t.loadTree_noSeq.bind fun _ _ => payloadLoop_err _ _ _ _ _

theorem State.bput_noSeq (s : State) (bit : Nat) : (s.bput bit).NoSeq s.status.err := by
  unfold State.bput
  split_ifs
  · exact ⟨rfl, by decide⟩
  · rfl

theorem State.bget_noSeq (s : State) : s.bget.NoSeq s.status.err := by
  unfold State.bget
  split_ifs
  · exact ⟨rfl, by decide⟩
  · rfl

/-! ### Commands that raise no E_SEQ -/

/-- No E_SEQ is raised on the way from `s` to `t`. -/
def SeqFree (s t : State) : Prop := t.status.err = some .seq → s.status.err = some .seq

theorem SeqFree.of_err_eq {s t : State} (h : t.status.err = s.status.err) : SeqFree s t := fun h' => h.symm.trans h'

theorem State.raise_seqFree (s t : State) (e : Err) (h : t.status.err = s.status.err) (he : e ≠ .seq) :
    SeqFree s (t.raise e) := by
  unfold SeqFree
  rw [State.raise_status, h]
  cases s.status.err with
  | none => exact fun h' => absurd (Option.some.inj h') he
  | some e' => exact id

theorem Flow.NoSeq.close {s : State} {x : Flow Word} (h : x.NoSeq s.status.err) : SeqFree s x.close := by
  cases x with
  | ok v t => exact .of_err_eq h
  | raised e t => exact s.raise_seqFree t e h.1 h.2

theorem Flow.NoSeq.closeUnit {s : State} {x : Flow Unit} (h : x.NoSeq s.status.err) :
    SeqFree s x.closeUnit := by
  cases x with
  | ok v t => exact .of_err_eq h
  | raised e t => exact s.raise_seqFree t e h.1 h.2

theorem SeqFree.settle {s t : State} (i : Instr) (h : SeqFree s t) : SeqFree s (s.settle i t) := by
  unfold SeqFree
  rcases s.settle_status i t with e | e <;> rw [e]
  · exact h
  · exact id

/-- What an answer, if it is a next state, says of E_SEQ. -/
def OutSeqFree (s : State) (o : Out) : Prop := ∀ t, o = .next t → SeqFree s t

theorem SeqFree.next {s t : State} (h : SeqFree s t) : OutSeqFree s (.next t) := by
  intro u e
  cases e
  exact h

theorem inRange_seqFree (limit imm : Nat) {s : State} {go : Out} (h : OutSeqFree s go) :
    OutSeqFree s (inRange limit imm s go) := by
  unfold inRange
  split_ifs
  · exact (s.raise_seqFree s .range rfl (by decide)).next
  · exact h

theorem inWords_seqFree (w : Nat) {s : State} {go : Out} (h : OutSeqFree s go) : OutSeqFree s (inWords w s go) := by
  unfold inWords
  split_ifs
  · exact (s.raise_seqFree s .illegal rfl (by decide)).next
  · exact h

/-- R108: no command but CGEN, SPUT and SGET raises E_SEQ. -/
theorem exec_seqFree (i : Instr) (s : State) (hc : i ≠ .cgen) (hg : i ≠ .sget) (hp : ∀ sym, i ≠ .sput sym) :
    OutSeqFree s (exec i s) := by
  have same {t : State} (h : t.status.err = s.status.err) : OutSeqFree s (.next t) := (SeqFree.of_err_eq h).next
  cases i with
  | nop => exact same rfl
  | srst => exact SeqFree.next nofun
  | eclr => exact SeqFree.next nofun
  | fclr => exact same rfl
  | fadd b => exact inRange_seqFree _ _ (s.tally_noSeq b).closeUnit.next
  | fcnt => exact SeqFree.next (Flow.NoSeq.close (s.freqPass_noSeq.bind fun _ _ => rfl))
  | frd i => exact inRange_seqFree _ _ (same rfl)
  | fwr i => exact inRange_seqFree _ _ (same rfl)
  | trd => exact same rfl
  | tbld => exact SeqFree.next (Flow.NoSeq.close (s.treeBuild_noSeq.bind fun _ _ => rfl))
  | nrd f n => exact inRange_seqFree _ _ (same rfl)
  | cgen => exact absurd rfl hc
  | clen i => exact inRange_seqFree _ _ (same rfl)
  | crd w i => exact inWords_seqFree _ (inRange_seqFree _ _ (same rfl))
  | sput i => exact absurd rfl (hp i)
  | bput b => exact inRange_seqFree _ _ (s.bput_noSeq b).closeUnit.next
  | bget => exact s.bget_noSeq.close.next
  | bflush => exact SeqFree.next (SeqFree.settle .bflush (.of_err_eq (congrArg Status.err s.flush_status)))
  | bfill => exact same (congrArg Status.err s.refill_status)
  | wcrd => exact same rfl
  | rcrd => exact same rfl
  | encode => exact (s.encode_noSeq.close.settle .encode).next
  | decode => exact (s.decode_noSeq.close.settle .decode).next
  | sget => exact absurd rfl hg

/-- Settles O22: the flag of each of the three is checked first, and no other command can raise E_SEQ. -/
theorem sequenceChecks : Obligations.SequenceChecks := by
  refine fun s => ⟨fun h => ?_, fun h i hi => ?_, fun h => ?_, fun i t e h0 h1 => ?_⟩
  · show needs s.status.built s _ = _
    rw [h, needs_false]
  · refine (inRange_pass s _ hi).trans ?_
    rw [h, needs_false]
  · show needs s.status.tree s _ = _
    rw [h, needs_false]
  · by_contra hn
    obtain ⟨hc, hg, hp⟩ : i ≠ .cgen ∧ i ≠ .sget ∧ ∀ sym, i ≠ .sput sym := by
      simpa only [not_or, not_exists] using hn
    have := exec_seqFree i s hc hg hp t e h1
    rw [h0] at this
    cases this

end Sys2Proof.Machine
end

section
/-! SUPPORT. Bits written and read back (41_bitstream.md R142): the bits written are the first bits of the bytes they send,
and ReadBit and NextBit return the first bits of the stream they read. -/

namespace Sys2Proof.Machine

/-! ### Writing -/

/-- The bits written are the first bits of the begun bytes: a begun last byte adds its padding behind them (R131). -/
theorem State.outBits_prefix_begunBytes (s : State) :
    s.outBits <+: bytesBits ((List.range s.written).map s.obuf.read) := by
  have hread : ∀ a, a < s.written → ((List.range s.written).map s.obuf.read)[0 + a]? = some (s.obuf.read a) := by
    intro a ha
    simp [ha]
  have hbytes := bits_of_read s.obuf _ 0 s.written (by simp) hread
  have hle : s.wcur.bits ≤ 8 * s.written := by
    have := s.wcur.bit.isLt
    unfold Cursor.bits State.written
    split_ifs <;> omega
  have hrange : List.range s.wcur.bits <+: List.range (8 * s.written) := by
    rw [← Nat.min_eq_left hle, ← List.take_range]
    exact List.take_prefix _ _
  rw [List.drop_zero, List.take_of_length_le (by simp)] at hbytes
  rw [← hbytes]
  exact hrange.map _

/-- Flush sends the bits of the output stream, with padding behind them. -/
theorem State.stream_prefix_flush (s : State) : bytesBits s.snk ++ s.outBits <+: bytesBits s.flush.2.snk := by
  rw [s.flush_snd, bytesBits_append]
  exact (List.prefix_append_right_inj _).mpr s.outBits_prefix_begunBytes

theorem State.outBits_of_wcur_zero {s : State} (h : s.wcur = ⟨0, 0⟩) : s.outBits = [] := by
  simp [State.outBits, h, Cursor.bits]

/-- Several WriteBits that fit the block. -/
theorem State.writeBits_spec (bits : List Bool) (s : State) (hb : BufInv s)
    (hfit : s.wcur.bits + bits.length ≤ 8 * s.cfg.blockBytes) :
    BufInv (bits.foldl State.writeBit s) ∧ (bits.foldl State.writeBit s).outBits = s.outBits ++ bits ∧
    bits.foldl State.writeBit s = { s with
      obuf := (bits.foldl State.writeBit s).obuf, wcur := (bits.foldl State.writeBit s).wcur } := by
  induction bits generalizing s with
  | nil => exact ⟨hb, by simp, rfl⟩
  | cons b bits ih =>
    rw [List.length_cons] at hfit
    have hlt : s.wcur.byte < s.cfg.blockBytes := by
      have := s.wcur.div_bits
      omega
    obtain ⟨hinv, hout, hframe⟩ := ih (s.writeBit b) (hb.writeBit hlt b) (by
      rw [State.writeBit_wcur, State.writeBit_cfg, Cursor.bits_next]
      omega)
    rw [List.foldl_cons]
    refine ⟨hinv, ?_, hframe⟩
    rw [hout, s.outBits_writeBit b hb.obufWf, List.append_assoc, List.singleton_append]

/-- What the sink takes after `s`, once Flush has sent the rest, begins with the bits the output stream gained. -/
theorem State.sent_prefix_flush {s u : State} {bits : List Bool} (hsnk : s.snk <+: u.snk)
    (hbits : bytesBits u.snk ++ u.outBits = bytesBits s.snk ++ bits) :
    bits <+: bytesBits (u.flush.2.snk.drop s.snk.length) := by
  have hall := u.stream_prefix_flush
  obtain ⟨bs, hbs⟩ : s.snk <+: u.flush.2.snk := by
    rw [u.flush_snd]
    exact hsnk.trans (List.prefix_append _ _)
  rw [hbits, ← hbs, bytesBits_append, List.prefix_append_right_inj] at hall
  rwa [← hbs, List.drop_left]

/-! ### Reading -/

/-- ReadBit returns the first bits of the block, as many as are asked for. -/
theorem readBits_of_prefix (bits : List Bool) (s : State) (hr : s.rcur.byte ≤ s.ifill)
    (h : bits <+: s.blockBits) : readBits bits.length s = bits := by
  induction bits generalizing s with
  | nil => rfl
  | cons b bits ih =>
    have hlt : s.rcur.byte < s.ifill := by
      refine lt_of_le_of_ne hr fun e => ?_
      rw [s.blockBits_empty e.symm] at h
      exact List.cons_ne_nil _ _ (List.prefix_nil.mp h)
    rw [s.blockBits_readBit hlt, List.cons_prefix_cons] at h
    obtain ⟨hbit, hrest⟩ := h
    rw [List.length_cons, readBits, ih s.readBit.2 (s.rcur.next_le s.ifill hlt).1 hrest, hbit]

/-- NextBit returns the first bits of the input stream, as many as are asked for. -/
theorem nextBits_of_prefix (bits : List Bool) (s : State) (hb : BufInv s) (hp : s.pos ≤ s.src.length)
    (h : bits <+: s.inBits) : nextBits bits.length s = bits.map some := by
  induction bits generalizing s with
  | nil => rfl
  | cons b bits ih =>
    obtain ⟨hinv, hpos, -, ⟨c, hc, hin⟩ | ⟨-, hnil, -⟩⟩ := s.nextBit_spec hb hp
    · rw [hin, List.cons_prefix_cons] at h
      obtain ⟨rfl, hrest⟩ := h
      rw [List.length_cons, nextBits, ih s.nextBit.2 hinv hpos hrest, hc, List.map_cons]
    · rw [hnil] at h
      exact absurd (List.prefix_nil.mp h) (List.cons_ne_nil _ _)

/-- After Refill, NextBit returns the first bits of the source. -/
theorem nextBits_refill (bits : List Bool) (s : State) (hb : BufInv s) (hp : s.pos ≤ s.src.length)
    (h : bits <+: bytesBits (s.src.drop s.pos)) : nextBits bits.length s.refill.2 = bits.map some := by
  obtain ⟨hinv, hin, hn, -, -, hpos, hframe⟩ := s.refill_bits hb hp
  refine nextBits_of_prefix bits _ hinv ?_ (hin ▸ h)
  rw [hpos, hn, hframe]
  simp only [State.taken]
  omega

/-- After Refill, ReadBit returns the first bits of the source, if they fit the block. -/
theorem readBits_refill (bits : List Bool) (s : State) (hb : BufInv s) (hp : s.pos ≤ s.src.length)
    (hfit : bits.length ≤ 8 * s.cfg.blockBytes) (h : bits <+: bytesBits (s.src.drop s.pos)) :
    readBits bits.length s.refill.2 = bits := by
  obtain ⟨hinv, hin, hn, hfill, hrcur, -, -⟩ := s.refill_bits hb hp
  refine readBits_of_prefix bits _ hinv.rcurByte ?_
  have hlen := h.length_le
  rw [bytesBits_length, List.length_drop] at hlen
  have hblock : s.refill.2.blockBits.length = 8 * s.taken s.cfg.blockBytes := by
    simp [State.blockBits, hrcur, hfill, hn, Cursor.zero, Cursor.bits]
  refine List.prefix_of_prefix_length_le (hin ▸ h) (List.prefix_append _ _) ?_
  rw [hblock]
  simp only [State.taken]
  omega

/-- Settles O43: what Flush sends begins with the bits written, Refill takes it as the input stream, and each read takes
that stream's first bit. -/
theorem bitStreamSymmetry : Obligations.BitStreamSymmetry := by
  intro s bits hb hw
  have h0 : s.outBits = [] := State.outBits_of_wcur_zero hw
  refine ⟨fun hfit => ?_, ?_⟩
  · obtain ⟨hinv, hout, hframe⟩ := s.writeBits_spec bits hb (by simpa [hw, Cursor.bits] using hfit)
    generalize bits.foldl State.writeBit s = u at hinv hout hframe ⊢
    have hsnk : u.snk = s.snk := by rw [hframe]
    have hcfg : u.flush.2.cfg = s.cfg := by rw [u.flush_snd, hframe]
    have hsent : bits <+: bytesBits (u.flush.2.snk.drop s.snk.length) :=
      State.sent_prefix_flush (hsnk ▸ List.prefix_rfl) (by rw [hout, hsnk, h0, List.nil_append])
    exact readBits_refill bits (sinkAsSource s u.flush.2) { hinv.flush with } (Nat.zero_le _) (hcfg ▸ hfit) hsent
  · obtain ⟨hinv, hout, hsnk, -, -⟩ := State.emitBits_spec bits s hb
    generalize bits.foldl State.emitBit s = u at hinv hout hsnk ⊢
    have hsent : bits <+: bytesBits (u.flush.2.snk.drop s.snk.length) :=
      State.sent_prefix_flush hsnk (by rw [hout, h0, List.append_nil])
    exact nextBits_refill bits (sinkAsSource s u.flush.2) { hinv.flush with } (Nat.zero_le _) hsent

end Sys2Proof.Machine
end

section
/-! SUPPORT. Code paths (44_codes.md R220 to R223): what CGEN answers on a built tree, how long the walk up from a leaf is,
and how a decoder's walk down the code undoes it. -/

namespace Sys2Proof.Machine

/-! ### The walk up -/

/-- The parent of node `n`. -/
def parentOf (node : Vector Node 511) (n : Nat) : Nat := (nodeOf node n).parent.toNat

/-- The bit of the link from node `n` up to its parent (R221). -/
def bitOf (node : Vector Node 511) (n : Nat) : Bool := !decide ((nodeOf node (parentOf node n)).left.toNat = n)

/-- What the walk up finds holds of all its links, when it holds at the root and each link carries it down. -/
theorem pathUp_induction {node : Vector Node 511} {p : List Bool} {motive : Nat → List Bool → Prop}
    (top : motive root p)
    (link : ∀ n below, n ≠ root → motive (parentOf node n) (bitOf node n :: below) → motive n below)
    (k : Nat) : ∀ (n : Nat) (below : List Bool), pathUp node k n below = some p → motive n below := by
  induction k with
  | zero =>
    intro n below h
    rw [pathUp] at h
    split_ifs at h with hn
    cases h
    exact hn ▸ top
  | succ k ih =>
    intro n below h
    rw [pathUp] at h
    split_ifs at h with hn
    · cases h
      exact hn ▸ top
    · exact link n below hn (ih _ _ h)

/-- A node is the child of its parent that its bit selects. -/
theorem TreeShape.childOf_parentOf {node : Vector Node 511} (h : TreeShape node) {n : Nat} (hn : n < root) :
    childOf node (parentOf node n) (bitOf node n) = n := by
  obtain ⟨-, -, hc⟩ := h.isChild n hn
  unfold childOf bitOf
  by_cases hl : (nodeOf node (parentOf node n)).left.toNat = n
  · rw [decide_eq_true hl]
    exact hl
  · rw [decide_eq_false hl]
    exact hc.resolve_left hl

/-- The walk finds one bit for each parent link between its node and the root. -/
theorem pathUp_links {node : Vector Node 511} {k n : Nat} {below p : List Bool} (h : pathUp node k n below = some p) :
    ∃ d, p.length = below.length + d ∧ (parentOf node)^[d] n = root ∧ ∀ j, j < d → (parentOf node)^[j] n ≠ root := by
  refine pathUp_induction (motive := fun n below => ∃ d, p.length = below.length + d ∧
    (parentOf node)^[d] n = root ∧ ∀ j, j < d → (parentOf node)^[j] n ≠ root)
    ⟨0, rfl, rfl, fun j hj => absurd hj (Nat.not_lt_zero j)⟩ ?_ k n below h
  rintro n below hn ⟨d, hlen, hroot, hbefore⟩
  refine ⟨d + 1, by rw [hlen, List.length_cons]; omega, hroot, fun j hj => ?_⟩
  cases j with
  | zero => exact hn
  | succ j => exact hbefore j (by omega)

/-- A code is as long as its leaf is deep. -/
theorem codePath_links {node : Vector Node 511} {i : Nat} {p : List Bool} (h : codePath node i = some p) :
    (parentOf node)^[p.length] i = root ∧ ∀ j, j < p.length → (parentOf node)^[j] i ≠ root := by
  obtain ⟨d, hlen, hd⟩ := pathUp_links h
  obtain rfl : p.length = d := by simpa using hlen
  exact hd

/-! ### The walk down -/

/-- The bits found from an internal node up, in front of bits that lead from it to a leaf, lead from the root there. -/
theorem TreeShape.reachesLeaf_pathUp {node : Vector Node 511} (h : TreeShape node) {leaf k n : Nat}
    {below p : List Bool} (hp : pathUp node k n below = some p) (hn : nSym ≤ n) (hn' : n ≤ root)
    (hb : reachesLeaf node leaf n below) : reachesLeaf node leaf root p := by
  refine pathUp_induction (motive := fun n below => nSym ≤ n → n ≤ root → reachesLeaf node leaf n below →
    reachesLeaf node leaf root p) (fun _ _ hr => hr) ?_ k n below hp hn hn' hb
  intro n below hne ih hn hn' hr
  have hlt : n < root := lt_of_le_of_ne hn' hne
  obtain ⟨hlow, hhigh, -⟩ := h.isChild n hlt
  refine ih hlow hhigh (.inr ?_)
  rw [h.childOf_parentOf hlt]
  exact ⟨not_lt.mpr hn, hr⟩

/-- A leaf's code leads from the root to the leaf, and to no leaf before it (R223). -/
theorem TreeShape.reachesLeaf_codePath {node : Vector Node 511} (h : TreeShape node) {i : Nat} (hi : i < nSym)
    {p : List Bool} (hp : codePath node i = some p) : reachesLeaf node i root p := by
  have hlt : i < root := hi.trans (by decide)
  obtain ⟨hlow, hhigh, -⟩ := h.isChild i hlt
  have hup : pathUp node 254 (parentOf node i) [bitOf node i] = some p := (if_neg hlt.ne).symm.trans hp
  refine h.reachesLeaf_pathUp hup hlow hhigh (.inl ?_)
  rw [h.childOf_parentOf hlt]
  exact ⟨hi, rfl, rfl⟩

theorem descend_of_reachesLeaf {node : Vector Node 511} {leaf : Nat} (p : List Bool) :
    ∀ n, reachesLeaf node leaf n p → descend node n p = leaf := by
  induction p with
  | nil => exact fun _ h => h.elim
  | cons b p ih =>
    rintro n (⟨-, rfl, hleaf⟩ | ⟨-, hrest⟩)
    · exact hleaf
    · exact ih _ hrest

/-- Of two walks from one node the shorter cannot go on to another leaf: a walk ends at the first leaf it meets. -/
theorem leaf_eq_of_prefix {node : Vector Node 511} {i j : Nat} (p : List Bool) : ∀ (n : Nat) (q : List Bool),
    reachesLeaf node i n p → reachesLeaf node j n q → p <+: q → i = j := by
  induction p with
  | nil => exact fun _ _ h => h.elim
  | cons b p ih =>
    rintro n q hp hq ⟨r, rfl⟩
    rcases hp with ⟨hleaf, -, hi⟩ | ⟨hinner, hp⟩ <;> rcases hq with ⟨hleaf', -, hj⟩ | ⟨hinner', hq⟩
    · exact hi.symm.trans hj
    · exact absurd hleaf hinner'
    · exact absurd hleaf' hinner
    · exact ih _ _ hp hq (List.prefix_append p r)

/-! ### CGEN -/

theorem TreeShape.walksEnd_eq_true {node : Vector Node 511} (h : TreeShape node) : walksEnd node = true := by
  refine List.all_eq_true.mpr fun i hi => ?_
  obtain ⟨p, hp, -⟩ := h.codePath_exists i (List.mem_range.mp hi)
  rw [hp]
  rfl

/-- What CGEN answers on a built tree (R220). -/
theorem execCgen_of_treeShape (s : State) (hb : s.status.built = true) (h : TreeShape s.node) :
    exec .cgen s = .next { s.codeWalks.markCodes with res := BitVec.ofNat 64 s.codeWalks.markCodes.maxLen } := by
  show needs s.status.built s (if walksEnd s.node then _ else _) = _
  rw [hb, needs_true, h.walksEnd_eq_true, if_pos rfl]

/-- A code has as many bits as LEN says (R54). -/
theorem State.codeOf_length (s : State) (i : Nat) : (s.codeOf i).length = (s.lenAt i).toNat := by
  simp [State.codeOf]

/-- The codes are read off LEN and CODE alone. -/
theorem State.codeOf_congr {s t : State} (hl : t.len = s.len) (hc : t.code = s.code) : t.codeOf = s.codeOf := by
  unfold State.codeOf State.lenAt State.codeAt
  rw [hl, hc]

/-- On a built tree CGEN leaves the nodes, and each symbol's code is its path (R221). -/
theorem codePath_of_execCgen {s t : State} (hb : s.status.built = true) (h : TreeShape s.node)
    (e : exec .cgen s = .next t) : t.node = s.node ∧ ∀ i, i < nSym → codePath t.node i = some (t.codeOf i) := by
  rw [execCgen_of_treeShape s hb h] at e
  have hnode : t.node = s.node := by cases e; rfl
  have hcode : t.codeOf = s.codeWalks.codeOf := by cases e; exact State.codeOf_congr rfl rfl
  refine ⟨hnode, fun i hi => ?_⟩
  obtain ⟨p, hp, -⟩ := h.codePath_exists i hi
  rw [hnode, hcode, s.codeOf_codeWalks i p hi hp, hp]

/-- Settles O37: a code is the walk up from its leaf read from the root, so the walk down along it ends at that leaf, and
two codes of which one goes on from the other would end at one leaf. -/
theorem codesArePrefixFree : Obligations.CodesArePrefixFree := by
  intro s t hb h e
  obtain ⟨hnode, hpath⟩ := codePath_of_execCgen hb h e
  rw [← hnode] at h
  have hleads : ∀ i, i < nSym → reachesLeaf t.node i root (t.codeOf i) :=
    fun i hi => h.reachesLeaf_codePath hi (hpath i hi)
  refine ⟨fun i hi => ?_, fun i j hi hj hij hpre => hij ?_⟩
  · have hlinks := codePath_links (hpath i hi)
    rw [State.codeOf_length] at hlinks
    exact ⟨hleads i hi, descend_of_reachesLeaf _ _ (hleads i hi), hlinks⟩
  · exact leaf_eq_of_prefix _ _ _ (hleads i hi) (hleads j hj) hpre

end Sys2Proof.Machine
end

section
/-! SUPPORT. Walks over the bits to come (46_decoder.md R285, R290, R292): a decoder's loop has rounds for all of them, and
what SGET does when they end inside a symbol. -/

namespace Sys2Proof.Machine

/-- A decoder's loop has more rounds than there are bits to come (R285). -/
theorem State.inBits_length_lt_rounds (s : State) : s.inBits.length < s.rounds := by
  simp only [State.inBits, State.blockBits, State.rounds, List.length_append, List.length_map, List.length_range,
    bytesBits_length, List.length_drop]
  omega

/-- Everything NextBit does, as one step of a decoder's loop takes it (R141). -/
theorem State.nextBit_cases (s : State) (hb : BufInv s) (hp : s.pos ≤ s.src.length) :
    (∃ b t, s.nextBit = (some b, t) ∧ s.inBits = b :: t.inBits ∧ BufInv t ∧ t.pos ≤ t.src.length ∧
      t = { s with ibuf := t.ibuf, ifill := t.ifill, rcur := t.rcur, pos := t.pos, trace := t.trace }) ∨
    ∃ t, s.nextBit = (none, t) ∧ s.inBits = [] ∧ t.inBits = [] ∧
      t = { s with ibuf := t.ibuf, ifill := 0, rcur := ⟨0, 0⟩, pos := s.src.length, trace := t.trace } := by
  obtain ⟨hb', hp', hframe, ⟨b, hbit, hin⟩ | ⟨hbit, hin, hnil, hfill, hcur, hpos⟩⟩ := s.nextBit_spec hb hp
  · exact .inl ⟨b, _, Prod.ext hbit rfl, hin, hb', hp', hframe⟩
  · refine .inr ⟨_, Prod.ext hbit rfl, hin, hnil, ?_⟩
    rw [hfill, hcur, hpos] at hframe
    exact hframe

/-- SGET's loop when no leaf lies on the bits to come (R290, R292). -/
theorem symbolLoop_of_no_leaf (k : Nat) : ∀ (n : Nat) (s : State), BufInv s → s.pos ≤ s.src.length →
    s.inBits.length < k → (∀ leaf p, p <+: s.inBits → ¬ reachesLeaf s.node leaf n p) →
    ∃ t, symbolLoop k n s = (allOnes64, t) ∧ t.inBits = [] ∧
      t = { s with
        ibuf := t.ibuf, ifill := 0, rcur := ⟨0, 0⟩, pos := s.src.length, trace := t.trace
        status := { s.status with trunc := true } } := by
  induction k with
  | zero => exact fun _ _ _ _ h => absurd h (Nat.not_lt_zero _)
  | succ k ih =>
    intro n s hb hp hk hleaf
    rcases s.nextBit_cases hb hp with ⟨b, t, hbit, hin, hb', hp', hframe⟩ | ⟨t, hbit, -, hnil, hframe⟩
    · have hnode : t.node = s.node := by rw [hframe]
      rw [hin] at hk hleaf
      have hinner : ¬ t.child n b < nSym := fun h =>
        hleaf _ [b] (List.prefix_append [b] t.inBits) (.inl ⟨hnode ▸ h, rfl, rfl⟩)
      obtain ⟨u, e, hend, hu⟩ := ih (t.child n b) t hb' hp' (Nat.lt_of_succ_lt_succ hk) fun leaf p hpre hreach =>
        hleaf leaf (b :: p) ((List.prefix_cons_inj b).mpr hpre) (hnode ▸ .inr ⟨hinner, hreach⟩)
      refine ⟨u, ?_, hend, ?_⟩
      · rw [symbolLoop, hbit]
        exact (if_neg hinner).trans e
      · rw [hu, hframe]
    · refine ⟨t.markTrunc, ?_, hnil, ?_⟩
      · rw [symbolLoop, hbit]
      · rw [State.markTrunc, hframe]

/-- Settles O53: each round takes one bit and meets no leaf, so the loop, which has rounds enough, ends at EOF. -/
theorem sgetExhaustion : Obligations.SgetExhaustion := by
  intro s hb hport htree hleaf
  obtain ⟨t, e, hnil, hframe⟩ := symbolLoop_of_no_leaf s.rounds root s hb hport.posIn s.inBits_length_lt_rounds
    fun leaf p ⟨rest, hp⟩ => hleaf leaf p rest hp.symm
  have hexec : exec .sget s = .next { t with res := allOnes64 } := by
    show needs s.status.tree s (.next { (symbolLoop s.rounds root s).2 with res := (symbolLoop s.rounds root s).1 }) = _
    rw [htree, needs_true, e]
  refine ⟨_, hexec, ?_, hnil, fun n hn h => ?_⟩
  · rw [hframe]
    rfl
  · have hval := congrArg BitVec.toNat h
    simp at hn hval
    omega

end Sys2Proof.Machine
end

section
/-! SUPPORT. DecodePayload (46_decoder.md R285, R286): the bytes its loop writes are those the bits to come walk to, and
the codes of some bytes walk to those bytes. -/

namespace Sys2Proof.Machine

/-! ### The bytes some bits walk to -/

theorem decodeBits_zero (node : Vector Node 511) (n : Nat) (bits : List Bool) : decodeBits node n 0 bits = [] := by
  cases bits <;> rfl

theorem decodeBits_leaf {node : Vector Node 511} {n : Nat} {b : Bool} (k : Nat) (bits : List Bool)
    (h : childOf node n b < nSym) :
    decodeBits node n (k + 1) (b :: bits) = BitVec.ofNat 8 (childOf node n b) :: decodeBits node root k bits := by
  rw [decodeBits, if_neg (Nat.succ_ne_zero k), if_pos h, Nat.add_sub_cancel]

theorem decodeBits_inner {node : Vector Node 511} {n : Nat} {b : Bool} (k : Nat) (bits : List Bool)
    (h : ¬ childOf node n b < nSym) :
    decodeBits node n (k + 1) (b :: bits) = decodeBits node (childOf node n b) (k + 1) bits := by
  rw [decodeBits, if_neg (Nat.succ_ne_zero k), if_neg h]

/-- Bits that lead to a leaf give the leaf's byte, and the walk starts anew behind them. -/
theorem decodeBits_of_reachesLeaf {node : Vector Node 511} {leaf : Nat} (k : Nat) (rest p : List Bool) :
    ∀ n, reachesLeaf node leaf n p →
      decodeBits node n (k + 1) (p ++ rest) = BitVec.ofNat 8 leaf :: decodeBits node root k rest := by
  induction p with
  | nil => exact fun _ h => h.elim
  | cons b p ih =>
    rintro n (⟨hleaf, rfl, rfl⟩ | ⟨hinner, h⟩)
    · exact decodeBits_leaf k rest hleaf
    · exact (decodeBits_inner k _ hinner).trans (ih _ h)

/-- The codes of some bytes walk to those bytes (R287). -/
theorem decodeBits_codes {node : Vector Node 511} {code : Byte → List Bool}
    (h : ∀ c, reachesLeaf node c.toNat root (code c)) (rest : List Bool) (bytes : List Byte) :
    decodeBits node root bytes.length (bytes.flatMap code ++ rest) = bytes := by
  induction bytes with
  | nil => exact decodeBits_zero _ _ _
  | cons c bytes ih =>
    rw [List.flatMap_cons, List.append_assoc, List.length_cons, decodeBits_of_reachesLeaf _ _ _ _ (h c), ih,
      BitVec.ofNat_toNat, BitVec.setWidth_eq]

/-! ### The payload loop -/

/-- DecodePayload's loop, `m` bytes before its end, writes the bytes the bits to come walk to, and sets TRUNC if they are
fewer than `m` (R285, R286). -/
theorem payloadLoop_spec (len k : Nat) : ∀ (count m n : Nat) (s : State), count + m = len → BufInv s →
    s.pos ≤ s.src.length → s.inBits.length < k →
    ∃ t out, out = decodeBits s.node n m s.inBits ∧ payloadLoop len k count n s = (count + out.length, t) ∧
      t.snk = s.snk ++ out ∧ t.status = { s.status with trunc := s.status.trunc || decide (out.length < m) } := by
  induction k with
  | zero => exact fun _ _ _ _ _ _ _ h => absurd h (Nat.not_lt_zero _)
  | succ k ih =>
    intro count m n s hm hb hp hk
    cases m with
    | zero =>
      refine ⟨s, [], (decodeBits_zero _ _ _).symm, ?_, (List.append_nil _).symm, by simp⟩
      rw [payloadLoop, if_neg (by omega)]
      rfl
    | succ m =>
      rw [payloadLoop, if_pos (by omega : count < len)]
      rcases s.nextBit_cases hb hp with ⟨b, t, hbit, hin, hb', hp', hframe⟩ | ⟨t, hbit, hin, -, hframe⟩
      · have hnode : t.node = s.node := by rw [hframe]
        have hsnk : t.snk = s.snk := by rw [hframe]
        have hstatus : t.status = s.status := by rw [hframe]
        rw [hin, List.length_cons] at hk
        rw [hbit, hin, ← hnode, ← hsnk, ← hstatus]
        by_cases hleaf : childOf t.node n b < nSym
        · obtain ⟨u, out, hout, e, hu, hst⟩ := ih (count + 1) m root (t.snkWrite (BitVec.ofNat 8 (t.child n b)))
            (by omega) { hb' with } hp' (Nat.lt_of_succ_lt_succ hk)
          refine ⟨u, BitVec.ofNat 8 (t.child n b) :: out, ?_, (if_pos hleaf).trans (e.trans ?_), ?_, ?_⟩
          · rw [decodeBits_leaf _ _ hleaf, hout]
            rfl
          · rw [List.length_cons, Nat.add_right_comm, Nat.add_assoc]
          · rw [hu, State.snkWrite_snk, List.append_assoc, List.singleton_append]
          · rw [hst, List.length_cons]
            simp
        · obtain ⟨u, out, hout, e, hrest⟩ := ih count (m + 1) (t.child n b) t hm hb' hp' (Nat.lt_of_succ_lt_succ hk)
          exact ⟨u, out, hout.trans (decodeBits_inner _ _ hleaf).symm, (if_neg hleaf).trans e, hrest⟩
      · rw [hbit, hin]
        refine ⟨t.markTrunc, [], rfl, rfl, ?_, ?_⟩
        · rw [State.markTrunc_snk, hframe, List.append_nil]
        · rw [State.markTrunc_status, hframe]
          simp

end Sys2Proof.Machine
end

section
/-! SUPPORT. The header of an archive read back (46_decoder.md R281 to R284): each part of DECODE takes from the source
the bytes that ENCODE's part wrote (45_encoder.md R253), and gets the value they came from. -/

namespace Sys2Proof.Machine

/-! ### Bytes taken from the source -/

/-- The source bytes that SrcRead has still to return (20_memory.md R80). -/
def State.unread (s : State) : List Byte := s.src.drop s.pos

/-- The state after `n` SrcReads before the end of the source. -/
def State.skip (s : State) (n : Nat) : State :=
  { s with pos := s.pos + n, trace := s.trace ++ List.replicate n .srcRead }

theorem State.skip_zero (s : State) : s.skip 0 = s := by simp [State.skip]

theorem State.skip_skip (s : State) (m n : Nat) : (s.skip m).skip n = s.skip (m + n) := by
  simp [State.skip, Nat.add_assoc]

theorem State.unread_skip {s : State} {n : Nat} {bs rest : List Byte} (h : s.unread = bs ++ rest) (hn : bs.length = n) :
    (s.skip n).unread = rest := by
  show s.src.drop (s.pos + n) = rest
  rw [← List.drop_drop, ← State.unread, h, ← hn, List.drop_left]

theorem State.srcRead_of_unread {s : State} {b : Byte} {rest : List Byte} (h : s.unread = b :: rest) :
    s.srcRead = (some b, s.skip 1) := by
  refine s.srcRead_some b ?_
  rw [← Nat.add_zero s.pos, ← List.getElem?_drop, ← State.unread, h]
  rfl

theorem State.headByte_of_unread {s : State} {b : Byte} {rest : List Byte} (h : s.unread = b :: rest) :
    s.headByte = .ok b (s.skip 1) := by
  rw [State.headByte, State.srcRead_of_unread h]

/-! ### MAGIC and the length -/

/-- CheckMagic takes the bytes it looks for (R281). -/
theorem checkMagic_of_unread (rest ms : List Byte) : ∀ s : State, s.unread = ms ++ rest →
    checkMagic ms s = .ok () (s.skip ms.length) := by
  induction ms with
  | nil => exact fun s _ => by rw [checkMagic, List.length_nil, s.skip_zero]
  | cons m ms ih =>
    intro s h
    rw [checkMagic, State.srcRead_of_unread h]
    show (if m = m then _ else _) = _
    rw [if_pos rfl, ih (s.skip 1) (State.unread_skip (bs := [m]) h rfl), s.skip_skip, List.length_cons, Nat.add_comm]

/-- Byte `j` of a word, put behind the bytes below it. -/
theorem getLsbD_or_byte {v len : Word} {j : Nat} (h : ∀ i, len.getLsbD i = (decide (i < 8 * j) && v.getLsbD i)) (i : Nat) :
    (len ||| ((v.extractLsb' (8 * j) 8).setWidth 64 <<< (8 * j))).getLsbD i =
      (decide (i < 8 * (j + 1)) && v.getLsbD i) := by
  have htop : 64 ≤ i → v.getLsbD i = false := BitVec.getLsbD_of_ge v i
  rw [BitVec.getLsbD_or, h, BitVec.getLsbD_shiftLeft, BitVec.getLsbD_setWidth, BitVec.getLsbD_extractLsb']
  grind

/-- The length field's bytes from byte `j` on complete a number that holds the bytes below it (R283). -/
theorem readLen_of_unread (v : Word) (rest : List Byte) (k : Nat) : ∀ (j : Nat) (len : Word) (s : State), j + k = 8 →
    (∀ i, len.getLsbD i = (decide (i < 8 * j) && v.getLsbD i)) →
    s.unread = ((List.range' j k).map fun i => v.extractLsb' (8 * i) 8) ++ rest →
    readLen k j len s = .ok v (s.skip k) := by
  induction k with
  | zero =>
    intro j len s hj hlen _
    have : len = v := BitVec.eq_of_getLsbD_eq fun i hi => by simp [hlen, show i < 8 * j by omega]
    rw [readLen, this, s.skip_zero]
  | succ k ih =>
    intro j len s hj hlen h
    rw [List.range'_succ, List.map_cons, List.cons_append] at h
    rw [readLen, State.headByte_of_unread h, Flow.bind_ok,
      ih (j + 1) _ (s.skip 1) (by omega) (getLsbD_or_byte hlen) (State.unread_skip (bs := [_]) h rfl), s.skip_skip,
      Nat.add_comm]

theorem readLen_le64 {v : Word} {rest : List Byte} {s : State} (h : s.unread = le64 v ++ rest) :
    readLen 8 0 0 s = .ok v (s.skip 8) :=
  readLen_of_unread v rest 8 0 0 s rfl (fun i => by simp) (by rw [h, le64, List.range_eq_range'])

/-! ### The tree table -/

theorem State.readLE16_of_unread {s : State} {v : Index} {rest : List Byte} (h : s.unread = le16 v ++ rest) :
    s.readLE16 = .ok v (s.skip 2) := by
  have hv : v.extractLsb' 8 8 ++ v.extractLsb' 0 8 = v := by
    refine BitVec.eq_of_getLsbD_eq fun i hi => ?_
    rw [BitVec.getLsbD_append, BitVec.getLsbD_extractLsb', BitVec.getLsbD_extractLsb']
    grind
  rw [State.readLE16, State.headByte_of_unread h, Flow.bind_ok,
    State.headByte_of_unread (State.unread_skip (n := 1) (bs := [_]) h rfl), Flow.bind_ok, s.skip_skip, hv]

/-- The four bytes of the tree table for node `i` (20_memory.md R90). -/
def entryBytes (node : Vector Node 511) (i : Nat) : List Byte := le16 (nodeOf node i).left ++ le16 (nodeOf node i).right

theorem tableBytes_eq (node : Vector Node 511) :
    tableBytes node = ((List.range 255).map (256 + ·)).flatMap (entryBytes node) := by
  rw [List.flatMap_map]
  rfl

/-- An index of the arena passes the check of a child index (R283). -/
theorem childOk_of_le {v : Index} (h : v.toNat ≤ 510) : childOk v = true := by
  have hv : v.toInt = v.toNat := BitVec.toInt_eq_toNat_of_lt (by omega)
  simp [childOk, hv]
  omega

/-- Node `i` with the children it has in another arena. -/
theorem childOf_setNode_children (v node : Vector Node 511) {i : Nat} (hi : i ≤ root) (n : Nat) :
    childOf (setNode v i fun d => { d with left := (nodeOf node i).left, right := (nodeOf node i).right }) n =
      if n = i then childOf node n else childOf v n := by
  have e := nodeOf_setNode v i n fun d => { d with left := (nodeOf node i).left, right := (nodeOf node i).right }
  funext b
  by_cases h : n = i
  · rw [if_pos ⟨h, hi⟩] at e
    rw [if_pos h, childOf, e, h]
    rfl
  · rw [if_neg fun h' => h h'.1] at e
    rw [if_neg h, childOf, e]
    rfl

/-- The children of node `i` lie in the arena. -/
def ChildrenIn (node : Vector Node 511) (i : Nat) : Prop :=
  (nodeOf node i).left.toNat ≤ 510 ∧ (nodeOf node i).right.toNat ≤ 510

theorem State.loadEntry_of_unread {node : Vector Node 511} {i : Nat} {rest : List Byte} {s : State}
    (hc : ChildrenIn node i) (h : s.unread = entryBytes node i ++ rest) :
    s.loadEntry i = .ok () ((s.skip 4).modNode i fun d =>
      { d with left := (nodeOf node i).left, right := (nodeOf node i).right }) := by
  obtain ⟨hleft, hright⟩ := hc
  rw [entryBytes, List.append_assoc] at h
  rw [State.loadEntry, State.readLE16_of_unread h, Flow.bind_ok,
    State.readLE16_of_unread (State.unread_skip (n := 2) h rfl), Flow.bind_ok, childOk_of_le hleft,
    childOk_of_le hright, s.skip_skip]
  rfl

/-- The entries of some nodes give those nodes the children they came from, and a node that had these keeps them
(R283). -/
theorem loadEntries_of_unread {node : Vector Node 511} (rest : List Byte) (is : List Nat) : ∀ s : State,
    (∀ i ∈ is, i ≤ root ∧ ChildrenIn node i) → s.unread = is.flatMap (entryBytes node) ++ rest →
    ∃ t, loadEntries is s = .ok () t ∧ t = { s.skip (4 * is.length) with node := t.node } ∧
      ∀ n, n ∈ is ∨ childOf s.node n = childOf node n → childOf t.node n = childOf node n := by
  induction is with
  | nil => exact fun s _ _ => ⟨s, rfl, s.skip_zero.symm, fun n h => h.resolve_left List.not_mem_nil⟩
  | cons i is ih =>
    intro s hin h
    obtain ⟨hi, hc⟩ := hin i List.mem_cons_self
    rw [List.flatMap_cons, List.append_assoc] at h
    obtain ⟨t, e, hframe, hkids⟩ := ih ((s.skip 4).modNode i _) (fun j hj => hin j (List.mem_cons_of_mem _ hj))
      (State.unread_skip h rfl)
    refine ⟨t, ?_, ?_, fun n hn => hkids n ?_⟩
    · rw [loadEntries, State.loadEntry_of_unread hc h, Flow.bind_ok]
      exact e
    · rw [hframe, List.length_cons, Nat.mul_succ, Nat.add_comm, ← s.skip_skip]
      rfl
    · have hset := childOf_setNode_children s.node node hi n
      rcases hn with hn | hn
      · rcases List.mem_cons.mp hn with rfl | hn
        · exact .inr (hset.trans (if_pos rfl))
        · exact .inl hn
      · exact .inr (hset.trans (by rw [hn, ite_self]))

/-- LoadTree of what ENCODE wrote: the length, and the children of every internal node (R282, R283). -/
theorem State.loadTree_of_unread {v : Word} {node : Vector Node 511} {rest : List Byte} {s : State}
    (hc : ∀ i, nSym ≤ i → i ≤ root → ChildrenIn node i) (h : s.unread = le64 v ++ tableBytes node ++ rest) :
    ∃ t, s.loadTree = .ok () t ∧
      t = { s.skip 1028 with
        node := t.node, total := v, status := { s.status with tree := true, built := false, codes := false } } ∧
      ∀ n, nSym ≤ n → n ≤ root → childOf t.node n = childOf node n := by
  rw [List.append_assoc] at h
  have hrange : ∀ i, i ∈ (List.range 255).map (256 + ·) ↔ nSym ≤ i ∧ i ≤ root := by
    intro i
    simp only [List.mem_map, List.mem_range, nSym_eq, root_eq]
    exact ⟨fun ⟨k, hk, e⟩ => by omega, fun hi => ⟨i - 256, by omega, by omega⟩⟩
  obtain ⟨t, e, hframe, hkids⟩ := loadEntries_of_unread (node := node) rest ((List.range 255).map (256 + ·))
    (s.clearTables.arenaReset.skip 8) (fun i hi => ((hrange i).mp hi).elim fun hlow hhigh => ⟨hhigh, hc i hlow hhigh⟩)
    (by rw [← tableBytes_eq]; exact State.unread_skip (s := s.clearTables.arenaReset) h (le64_length v))
  refine ⟨{ t with total := v }.markTree, ?_, ?_, fun n hn hn' => hkids n (.inl ((hrange n).mpr ⟨hn, hn'⟩))⟩
  · rw [State.loadTree, readLen_le64 (s := s.clearTables.arenaReset) h, Flow.bind_ok, e]
    rfl
  · rw [State.markTree, hframe, State.skip_skip, List.length_map, List.length_range]
    rfl

end Sys2Proof.Machine
end

section
/-! SUPPORT. An archive written and read (45_encoder.md R250 to R254, 46_decoder.md R280 to R287): what ENCODE appends to
the sink, what DECODE makes of such bytes, and that the second gives back what the first was given. -/

namespace Sys2Proof.Machine

/-! ### Archives -/

/-- What ENCODE writes for `src` (20_memory.md R90): the length, a complete tree, for each byte value a code that leads
down it to that value's leaf, and a payload that begins with the codes of `src`. -/
structure Archive (src : List Byte) where
  len : Word
  node : Vector Node 511
  code : Byte → List Bool
  payload : List Byte
  lenOk : len.toNat = src.length
  treeOk : TreeShape node
  codeOk : ∀ c, reachesLeaf node c.toNat root (code c)
  payloadOk : src.flatMap code <+: bytesBits payload

/-- The bytes of an archive (R90). -/
def Archive.bytes {src : List Byte} (a : Archive src) (magic : Vector Byte 4) : List Byte :=
  magic.toList ++ (le64 a.len ++ tableBytes a.node ++ a.payload)

/-! ### ENCODE -/

/-- The counts of all values that occur in a list sum to its length. -/
theorem sum_map_count {α : Type} [DecidableEq α] (l vs : List α) (hn : vs.Nodup) (h : ∀ a ∈ l, a ∈ vs) :
    (vs.map fun a => l.count a).sum = l.length := by
  have hsum := Multiset.sum_count_eq_card (m := (l : Multiset α)) fun a ha => List.mem_toFinset.mpr (h a ha)
  simp only [Multiset.coe_count, Multiset.coe_card] at hsum
  rw [← hsum, List.sum_toFinset _ hn]

/-- The counts of the 256 byte values sum to the number of bytes. -/
theorem sum_count_bytes (bs : List Byte) :
    ((List.range nSym).map fun i => bs.count (BitVec.ofNat 8 i)).sum = bs.length := by
  have hnodup : ((List.range nSym).map (BitVec.ofNat 8)).Nodup := by
    refine List.nodup_range.map_on fun i hi j hj h => ?_
    have hij := congrArg BitVec.toNat h
    simp at hi hj hij
    omega
  have hall : ∀ c ∈ bs, c ∈ (List.range nSym).map (BitVec.ofNat 8) := fun c _ =>
    List.mem_map.mpr ⟨c.toNat, List.mem_range.mpr c.isLt, by simp⟩
  have hsum := sum_map_count bs _ hnodup hall
  rw [List.map_map] at hsum
  exact hsum

/-- The frequency pass counts every byte, and rewinds the source (R162, R251). -/
theorem State.freqPass_spec (s : State) (hs : s.src.length < w64) :
    ∃ t, s.freqPass = .ok () t ∧ t = { s with freq := t.freq, total := t.total, pos := 0, trace := t.trace } ∧
      t.total.toNat = s.src.length ∧ t.freqSum = s.src.length := by
  have hclear : ∀ b, (s.srcRewind.freqClear.freqAt b).toNat = 0 := fun b => by rw [State.freqAt_freqClear]; rfl
  obtain ⟨t, e, hframe, -, htotal, hfreq⟩ := countLoop_spec (s.src.length + 1) s.srcRewind.freqClear
    (by simp) (by simpa using hs) fun b _ => by
      rw [hclear, Nat.zero_add]
      exact lt_of_le_of_lt List.count_le_length (by simpa using hs)
  refine ⟨t.srcRewind, ?_, ?_, by simpa using htotal, ?_⟩
  · show (countLoop (s.src.length + 1) s.srcRewind.freqClear).bind _ = _
    rw [e, Flow.bind_ok]
  · rw [State.srcRewind, hframe]
    rfl
  · rw [← sum_count_bytes]
    refine congrArg List.sum (List.map_congr_left fun b hb => ?_)
    exact (hfreq b (List.mem_range.mp hb)).trans (by rw [hclear, Nat.zero_add]; rfl)

/-- The tree build when the counts' sum fits (R190). -/
theorem State.treeBuild_of_freqSum_lt (s : State) (hs : s.freqSum < w64) :
    ∃ t, Merged s.clearTables.treeInit.pqSeed 255 t ∧ s.treeBuild = .ok () t.treeFinish.markBuilt := by
  obtain ⟨t, ht, hm⟩ := mergeAll_ok s.clearTables hs
  refine ⟨t, hm, ?_⟩
  rcases s.treeBuild_cases with ⟨u, hu, e⟩ | ⟨_, u, hu, -⟩ <;> rw [ht] at hu <;> cases hu
  exact e

/-- EmitCode puts a code's bits on the output stream (R227). -/
theorem State.emitCode_spec (s : State) (i : Nat) (hb : BufInv s) :
    BufInv (s.emitCode i) ∧ s.snk <+: (s.emitCode i).snk ∧
    bytesBits (s.emitCode i).snk ++ (s.emitCode i).outBits = bytesBits s.snk ++ s.outBits ++ s.codeOf i ∧
    s.emitCode i = { s with
      obuf := (s.emitCode i).obuf, wcur := (s.emitCode i).wcur, snk := (s.emitCode i).snk
      trace := (s.emitCode i).trace } := by
  obtain ⟨hbuf, hbits, hsnk, -, hframe⟩ := State.emitBits_spec (s.codeOf i) s hb
  exact ⟨hbuf, hsnk, hbits, hframe⟩

/-- The payload loop puts the codes of the bytes it reads on the output stream (R254). -/
theorem emitLoop_spec (k : Nat) : ∀ s : State, BufInv s → s.unread.length < k →
    BufInv (emitLoop k s) ∧ s.snk <+: (emitLoop k s).snk ∧
    bytesBits (emitLoop k s).snk ++ (emitLoop k s).outBits =
      bytesBits s.snk ++ s.outBits ++ s.unread.flatMap fun c => s.codeOf c.toNat := by
  induction k with
  | zero => exact fun _ _ h => absurd h (Nat.not_lt_zero _)
  | succ k ih =>
    intro s hb hk
    rw [emitLoop]
    cases h : s.unread with
    | nil =>
      rw [s.srcRead_none (by simpa [State.unread] using h), List.flatMap_nil, List.append_nil]
      exact ⟨{ hb with }, List.prefix_rfl, rfl⟩
    | cons c rest =>
      rw [State.srcRead_of_unread h]
      obtain ⟨hbuf, hsnk, hbits, hframe⟩ := (s.skip 1).emitCode_spec c.toNat { hb with }
      have hrest : ((s.skip 1).emitCode c.toNat).unread = rest := by
        rw [hframe]
        exact State.unread_skip (n := 1) (bs := [c]) h rfl
      have hcode : ((s.skip 1).emitCode c.toNat).codeOf = s.codeOf := by
        rw [hframe]
        rfl
      rw [h, List.length_cons] at hk
      obtain ⟨hbuf', hsnk', hbits'⟩ := ih ((s.skip 1).emitCode c.toNat) hbuf (by rw [hrest]; omega)
      refine ⟨hbuf', hsnk.trans hsnk', hbits'.trans ?_⟩
      rw [hrest, hcode, List.flatMap_cons, ← List.append_assoc]
      exact congrArg (· ++ _) hbits

/-- The state in which ENCODE's payload loop begins (R250 steps 3 and 4). -/
def State.headSent (s : State) : State :=
  { s with snk := s.snk ++ s.headBytes, trace := s.trace ++ s.headBytes.map .snkWrite, wcur := Cursor.zero }

theorem State.writeArchive_eq (s : State) : s.writeArchive = (emitLoop (s.src.length + 1) s.headSent).flush.2 := by
  rw [State.writeArchive, s.snkWrites_eq]
  rfl

theorem BufInv.headSent {s : State} (hb : BufInv s) : BufInv s.headSent :=
  { hb with wcurByte := Nat.zero_le _, wcurBit := fun _ => rfl, begun := fun h => absurd rfl h }

/-- Steps 3 to 5 of ENCODE append the head and a payload that begins with the source's codes (R250, R253, R254). -/
theorem State.writeArchive_spec (s : State) (hb : BufInv s) (hp : s.pos = 0) :
    ∃ payload, s.writeArchive.snk = s.snk ++ (s.headBytes ++ payload) ∧
      (s.src.flatMap fun c => s.codeOf c.toNat) <+: bytesBits payload := by
  have hunread : s.headSent.unread = s.src := by
    show s.src.drop s.pos = s.src
    rw [hp, List.drop_zero]
  obtain ⟨-, hsnk, hbits⟩ := emitLoop_spec (s.src.length + 1) s.headSent hb.headSent
    (by rw [hunread]; exact Nat.lt_succ_self _)
  rw [hunread, State.outBits_of_wcur_zero (s := s.headSent) rfl, List.append_nil] at hbits
  rw [s.writeArchive_eq]
  generalize emitLoop (s.src.length + 1) s.headSent = u at hsnk hbits
  have hsent := State.sent_prefix_flush hsnk hbits
  obtain ⟨payload, hpayload⟩ : s.headSent.snk <+: u.flush.2.snk := by
    rw [u.flush_snd]
    exact hsnk.trans (List.prefix_append _ _)
  rw [← hpayload, List.drop_left] at hsent
  exact ⟨payload, by rw [← hpayload, ← List.append_assoc]; rfl, hsent⟩

/-- Steps 1 and 2 of ENCODE: the length is counted and a tree and its codes are made, and the blocks and the sink are as
before (R251, R252). -/
theorem State.encode_eq (s : State) (hs : s.src.length < w64) :
    ∃ t : State, s.encode = .ok (resOfNat (t.writeArchive.snk.length - s.snk.length)) t.writeArchive ∧
      t = { s with
        freq := t.freq, total := t.total, node := t.node, len := t.len, code := t.code, pq := [], pos := 0
        trace := t.trace, status := t.status } ∧
      t.total.toNat = s.src.length ∧ TreeShape t.node ∧ ∀ i, i < nSym → codePath t.node i = some (t.codeOf i) := by
  obtain ⟨t, e, ht, htotal, hsum⟩ := s.freqPass_spec hs
  obtain ⟨u, hm, e'⟩ := t.treeBuild_of_freqSum_lt (hsum ▸ hs)
  have hu := hm.frame
  refine ⟨u.treeFinish.markBuilt.codeWalks.markCodes, ?_, ?_, ?_, hm.treeShape, fun i hi => ?_⟩
  · rw [State.encode, e, Flow.bind_ok, e', Flow.bind_ok]
  · rw [State.treeFinish, State.modNode, hu, ht]
    rfl
  · rw [← htotal, State.treeFinish, State.modNode, hu]
    rfl
  · obtain ⟨p, hp, -⟩ := hm.treeShape.codePath_exists i hi
    exact hp.trans (congrArg some (u.treeFinish.markBuilt.codeOf_codeWalks i p hi hp).symm)

/-- ENCODE appends an archive of its source (R250). -/
theorem State.encode_spec (s : State) (hs : s.src.length < w64) (hb : BufInv s) :
    ∃ t r, ∃ a : Archive s.src, s.encode = .ok r t ∧ t.snk = s.snk ++ a.bytes s.cfg.magic := by
  obtain ⟨t, e, ht, hlen, hshape, hpath⟩ := s.encode_eq hs
  have hbuf : BufInv t := by
    rw [ht]
    exact { hb with }
  have hcfg : t.cfg = s.cfg := by rw [ht]
  have hsrc : t.src = s.src := by rw [ht]
  have hsink : t.snk = s.snk := by rw [ht]
  obtain ⟨payload, hsnk, hcodes⟩ := t.writeArchive_spec hbuf (by rw [ht])
  rw [State.headBytes, hcfg, hsink] at hsnk
  rw [hsrc] at hcodes
  refine ⟨_, _, ⟨t.total, t.node, fun c => t.codeOf c.toNat, payload, hlen, hshape,
    fun c => hshape.reachesLeaf_codePath c.isLt (hpath _ c.isLt), hcodes⟩, e, ?_⟩
  rw [hsnk, Archive.bytes]
  simp only [List.append_assoc]

/-! ### DECODE -/

/-- A walk below the root meets only internal nodes, so it depends on their children alone. -/
theorem TreeShape.reachesLeaf_congr {v v' : Vector Node 511} (h : TreeShape v)
    (hv : ∀ n, nSym ≤ n → n ≤ root → childOf v' n = childOf v n) {leaf : Nat} (p : List Bool) :
    ∀ n, nSym ≤ n → n ≤ root → reachesLeaf v leaf n p → reachesLeaf v' leaf n p := by
  induction p with
  | nil => exact fun _ _ _ h => h
  | cons b p ih =>
    intro n hn hn' hr
    rw [reachesLeaf, hv n hn hn']
    refine hr.imp_right fun ⟨hinner, hrest⟩ => ⟨hinner, ih _ (not_lt.mp hinner) ?_ hrest⟩
    have hl := h.leftBelow n hn hn'
    have hr := h.rightBelow n hn hn'
    unfold childOf
    split_ifs <;> omega

theorem TreeShape.childrenIn {node : Vector Node 511} (h : TreeShape node) (i : Nat) (hi : nSym ≤ i) (hi' : i ≤ root) :
    ChildrenIn node i :=
  ⟨(h.leftBelow i hi hi').le.trans hi', (h.rightBelow i hi hi').le.trans hi'⟩

/-- With the input block used up, the bits to come are those of the source (R141). -/
theorem State.inBits_of_ifill_zero {s : State} (hf : s.ifill = 0) (hr : s.rcur = Cursor.zero) :
    s.inBits = bytesBits s.unread := by
  rw [State.inBits, s.blockBits_empty (by rw [hf, hr]; rfl)]
  rfl

/-- The state in which DECODE looks for MAGIC (R280). -/
def State.decodeStart (d : State) : State := { d.srcRewind with ifill := 0, rcur := Cursor.zero }

/-- What DECODE does once MAGIC and the tree table are taken (R280). -/
theorem State.decode_of_loadTree {d t : State} {rest : List Byte} (h : d.src = d.cfg.magic.toList ++ rest)
    (ht : (d.decodeStart.skip 4).loadTree = .ok () t) :
    d.decode = .ok (resOfNat (payloadLoop t.total.toNat t.rounds 0 root t).1)
      (payloadLoop t.total.toNat t.rounds 0 root t).2 := by
  have hmagic := checkMagic_of_unread rest _ d.decodeStart h
  rw [Vector.length_toList] at hmagic
  show (checkMagic d.cfg.magic.toList d.decodeStart).bind _ = _
  rw [hmagic, Flow.bind_ok, ht, Flow.bind_ok]

/-- DECODE of an archive loads a tree with the archive's children and writes the bytes its payload walks to (R280). -/
theorem State.decode_spec {d : State} {src : List Byte} (a : Archive src) (hb : BufInv d)
    (h : d.src = a.bytes d.cfg.magic) :
    ∃ tree u out, (∀ n, nSym ≤ n → n ≤ root → childOf tree n = childOf a.node n) ∧
      out = decodeBits tree root src.length (bytesBits a.payload) ∧ d.decode = .ok (resOfNat out.length) u ∧
      u.snk = d.snk ++ out ∧
      u.status = { d.status with
        tree := true, built := false, codes := false
        trunc := d.status.trunc || decide (out.length < src.length) } := by
  have hafter : (d.decodeStart.skip 4).unread = le64 a.len ++ tableBytes a.node ++ a.payload :=
    State.unread_skip (s := d.decodeStart) h Vector.length_toList
  obtain ⟨t, hload, ht, hkids⟩ := State.loadTree_of_unread a.treeOk.childrenIn hafter
  have hunread : t.unread = a.payload := by
    rw [ht]
    exact State.unread_skip hafter (by simp)
  have hbuf : BufInv t := by
    rw [ht]
    exact { hb with ifillMax := Nat.zero_le _, rcurByte := le_rfl, rcurBit := fun _ => rfl }
  have hpos : t.pos ≤ t.src.length := by
    rw [ht]
    show 0 + 4 + 1028 ≤ d.src.length
    rw [h, Archive.bytes]
    simp
    omega
  have hin : t.inBits = bytesBits a.payload := by
    rw [State.inBits_of_ifill_zero (by rw [ht]; rfl) (by rw [ht]; rfl), hunread]
  have htotal : t.total.toNat = src.length := by rw [ht]; exact a.lenOk
  obtain ⟨u, out, hout, hloop, hsnk, hstatus⟩ := payloadLoop_spec src.length t.rounds 0 src.length root t
    (Nat.zero_add _) hbuf hpos t.inBits_length_lt_rounds
  rw [hin] at hout
  rw [Nat.zero_add] at hloop
  refine ⟨t.node, u, out, hkids, hout, ?_, ?_, ?_⟩
  · rw [State.decode_of_loadTree h hload, htotal, hloop]
  · rw [hsnk, ht]
    rfl
  · rw [hstatus, ht]
    rfl

/-- What DECODE writes for an archive of `src` is `src` (R287). -/
theorem Archive.decodeBits_eq {src : List Byte} (a : Archive src) {tree : Vector Node 511}
    (h : ∀ n, nSym ≤ n → n ≤ root → childOf tree n = childOf a.node n) :
    decodeBits tree root src.length (bytesBits a.payload) = src := by
  obtain ⟨rest, hrest⟩ := a.payloadOk
  rw [← hrest]
  exact decodeBits_codes (fun c => a.treeOk.reachesLeaf_congr h _ _ (by simp) le_rfl (a.codeOk c)) rest src

/-- Settles O51: ENCODE's payload begins with the codes of the source, DECODE loads a tree with the children of the one
that made them, and there the codes walk back to the source. -/
theorem encodeThenDecode : Obligations.EncodeThenDecode := by
  intro s t d hs hb hroom ht hmagic hbd hroomd herr hd
  obtain ⟨t', r, a, henc, hsnk⟩ := s.encode_spec hs hb
  obtain rfl : { t' with res := r } = t := by
    have hexec : exec .encode s = .next (s.settle .encode s.encode.close) := rfl
    rw [hexec, State.settle_none _ _ _ hroom, henc] at ht
    exact Host.Outcome.next.inj ht
  have hsrc : d.src = a.bytes d.cfg.magic := by
    rw [hd, hmagic]
    exact (congrArg (List.drop _) hsnk).trans List.drop_left
  obtain ⟨tree, u, out, htree, hout, hdec, husnk, hustatus⟩ := State.decode_spec a hbd hsrc
  rw [a.decodeBits_eq htree] at hout
  rw [hout] at hdec husnk hustatus
  refine ⟨{ u with res := resOfNat s.src.length }, ?_, husnk, resOfNat_eq hs, ?_, ?_⟩
  · show Host.Outcome.next (d.settle .decode d.decode.close) = _
    rw [State.settle_none _ _ _ hroomd, hdec]
    rfl
  · rw [hustatus]
    simp
  · rw [hustatus, herr]

end Sys2Proof.Machine
end

section
/-! SUPPORT. The control commands at the CMD register (47_control.md R310, R312): a word that a step runs whatever ERR is,
and which words of NOP's opcode are illegal. -/

namespace Sys2Proof.Machine

/-- R33: while BUSY = 0, a write to CMD issues bits 31:0. -/
theorem step_issue (s : State) (v : Word) (rest : List HostAction) (hp : s.pending = .write 0x00 64 v :: rest)
    (hb : s.busy = false) : step s = issue (v.setWidth 32) { s with pending := rest } :=
  (cmdRegister.1 s v rest hp).1 hb

/-- R105: NOP, SRST and ECLR execute whatever ERR is. -/
theorem step_of_runsInError (s : State) (v : Word) (rest : List HostAction)
    (hp : s.pending = .write 0x00 64 v :: rest) (hb : s.busy = false) {i : Instr}
    (hw : runsInError (v.setWidth 32) = true) (hd : Sys2Proof.decode (v.setWidth 32) = .ok i) :
    step s = exec i { s with pending := rest, trace := [] } :=
  (step_issue s v rest hp hb).trans (issue_decoded (.inr hw) hd)

/-- R101: OPC, SUB and IMM cover the word. -/
theorem eq_zero_of_fields {w : BitVec 32} (ho : opcOf w = 0) (hs : subOf w = 0) (hi : immOf w = 0) : w = 0 := by
  simp only [opcOf, subOf, immOf, ← BitVec.toNat_inj, BitVec.extractLsb'_toNat, Nat.shiftRight_eq_div_pow,
    BitVec.reduceToNat, Nat.reducePow] at ho hs hi ⊢
  omega

/-- R310: SUB and IMM of NOP are 0. -/
theorem decode_illegal_of_opcOf_zero {w : BitVec 32} (ho : opcOf w = 0x00) (hw : w ≠ 0) :
    ∃ e, Sys2Proof.decode w = .error e := by
  have hd : Sys2Proof.decode w = plainForm .nop (subOf w) (immOf w) := by
    rw [Sys2Proof.decode, ho]
    rfl
  rw [hd, plainForm_illegal_iff, ← not_and_or]
  exact fun ⟨hs, hi⟩ => hw (eq_zero_of_fields ho hs hi)

/-- Of the three words that run whatever ERR is, only NOP's has opcode 0x00. -/
theorem runsInError_of_opcOf_zero {w : BitVec 32} (ho : opcOf w = 0x00) (hw : w ≠ 0) : runsInError w = false :=
  runsInError_eq_false hw (fun h => absurd ho (h ▸ by decide)) (fun h => absurd ho (h ▸ by decide))

/-- Settles O19: the word 0 runs NOP, which answers the state it is given; a word of its opcode with SUB or IMM not 0
decodes to no command, and ERR blocks it. -/
theorem nopChangesNothing : Obligations.NopChangesNothing := by
  refine ⟨fun _ => rfl, fun s v rest hp hb => ⟨fun h0 => ?_, fun h0 ho => ⟨fun he => ?_, fun he => ?_⟩⟩⟩
  · exact step_of_runsInError s v rest hp hb (i := .nop) (h0 ▸ rfl) (h0 ▸ rfl)
  · obtain ⟨e, hd⟩ := decode_illegal_of_opcOf_zero ho h0
    rw [step_issue s v rest hp hb]
    exact issue_illegal he hd
  · rw [step_issue s v rest hp hb]
    exact issue_blocked he (runsInError_of_opcOf_zero ho h0)

/-- Settles O20: ECLR answers `clearError`, and its word is one of the three that run whatever ERR is. -/
theorem eclrClearsTheError : Obligations.EclrClearsTheError := by
  refine ⟨fun _ => rfl, fun s v rest hp hb hw => ?_⟩
  exact step_of_runsInError s v rest hp hb (i := .eclr) (hw ▸ rfl) (hw ▸ rfl)

end Sys2Proof.Machine
end

section
/-! SUPPORT. Encoding (30_encoding.md R101 to R104): the three fields of a word are its parts, and of each form the command
and its fields give each other. -/

namespace Sys2Proof

/-! ### The fields of a word -/

/-- R101: OPC, SUB and IMM of a word put together from these. -/
theorem fields_append (opc sub : BitVec 8) (imm : BitVec 16) :
    opcOf (opc ++ sub ++ imm) = opc ∧ subOf (opc ++ sub ++ imm) = sub ∧ immOf (opc ++ sub ++ imm) = imm := by
  refine ⟨?_, ?_, ?_⟩ <;> refine BitVec.eq_of_getLsbD_eq fun i hi => ?_
  · simp only [opcOf, BitVec.getLsbD_extractLsb', BitVec.getLsbD_append]
    grind
  · simp only [subOf, BitVec.getLsbD_extractLsb', BitVec.getLsbD_append]
    grind
  · simp only [immOf, BitVec.getLsbD_extractLsb', BitVec.getLsbD_append]
    grind

/-- R101: a word is its three fields put together. -/
theorem append_fields (w : BitVec 32) : opcOf w ++ subOf w ++ immOf w = w := by
  refine BitVec.eq_of_getLsbD_eq fun i hi => ?_
  simp only [opcOf, subOf, immOf, BitVec.getLsbD_extractLsb', BitVec.getLsbD_append]
  grind

theorem decode_encode_eq (i : Instr) : decode (encode i) = decodeFields (opcode i) (subField i) (immField i) := by
  obtain ⟨ho, hs, hi⟩ := fields_append (opcode i) (subField i) (immField i)
  rw [decode, encode, ho, hs, hi]

/-! ### The forms, from the command to the word and back -/

/-- R102: an operand that fits IMM is read back from it. -/
theorem toNat_immOperand {v : Nat} (h : immFits v = true) : (BitVec.ofNat 16 v).toNat = v :=
  Nat.mod_eq_of_lt (of_decide_eq_true h)

theorem immForm_ofNat (f : Nat → Instr) {v : Nat} (h : immFits v = true) :
    immForm f 0 (BitVec.ofNat 16 v) = .ok (f v) := by
  rw [immForm, if_neg (by simp), toNat_immOperand h]

theorem fieldOf_fieldSub (f : NodeField) : fieldOf (fieldSub f) = .ok f := by cases f <;> rfl

theorem nrdForm_ofNat (f : NodeField) {n : Nat} (h : immFits n = true) :
    nrdForm (fieldSub f) (BitVec.ofNat 16 n) = .ok (.nrd f n) := by
  rw [nrdForm, fieldOf_fieldSub, toNat_immOperand h]

theorem crdForm_ofNat {w s : Nat} (hw : w ≤ 3) (h : immFits s = true) :
    crdForm (BitVec.ofNat 8 w) (BitVec.ofNat 16 s) = .ok (.crd w s) := by
  have e : (BitVec.ofNat 8 w).toNat = w := Nat.mod_eq_of_lt (by omega)
  rw [crdForm, e, if_neg (by omega), toNat_immOperand h]

/-- Settles O1: decoding sees the three fields that encoding put together, and the form of the opcode's command reads its
operands back from them. -/
theorem decodeEncodeRoundTrip : Obligations.DecodeEncodeRoundTrip := by
  intro i hi
  rw [decode_encode_eq]
  cases i
  case fadd b => exact immForm_ofNat _ hi
  case frd s => exact immForm_ofNat _ hi
  case fwr s => exact immForm_ofNat _ hi
  case clen s => exact immForm_ofNat _ hi
  case sput s => exact immForm_ofNat _ hi
  case bput b => exact immForm_ofNat _ hi
  case nrd f n => exact nrdForm_ofNat f hi
  case crd w s =>
    obtain ⟨hw, hs⟩ := Bool.and_eq_true_iff.mp hi
    exact crdForm_ofNat (of_decide_eq_true hw) hs
  all_goals rfl

/-- The command is well-formed and its word has these fields. -/
def HasFields (opc sub : BitVec 8) (imm : BitVec 16) (i : Instr) : Prop :=
  i.wf = true ∧ opcode i = opc ∧ subField i = sub ∧ immField i = imm

theorem immFits_toNat (imm : BitVec 16) : immFits imm.toNat = true := decide_eq_true imm.isLt

theorem plainForm_ok {j i : Instr} {sub : BitVec 8} {imm : BitVec 16} (h : plainForm j sub imm = .ok i) :
    i = j ∧ sub = 0 ∧ imm = 0 := by
  unfold plainForm at h
  split_ifs at h with hs hi
  exact ⟨(Except.ok.inj h).symm, not_not.mp hs, not_not.mp hi⟩

theorem immForm_ok {f : Nat → Instr} {i : Instr} {sub : BitVec 8} {imm : BitVec 16} (h : immForm f sub imm = .ok i) :
    i = f imm.toNat ∧ sub = 0 := by
  unfold immForm at h
  split_ifs at h with hs
  exact ⟨(Except.ok.inj h).symm, not_not.mp hs⟩

theorem fieldOf_ok {sub : BitVec 8} {f : NodeField} (h : fieldOf sub = .ok f) : fieldSub f = sub := by
  apply BitVec.eq_of_toNat_eq
  unfold fieldOf at h
  split at h
  case h_6 => cases h
  all_goals
    obtain rfl := Except.ok.inj h
    exact Eq.symm ‹_›

theorem HasFields.of_plainForm {opc sub : BitVec 8} {imm : BitVec 16} {i j : Instr} (h : plainForm j sub imm = .ok i)
    (e : opc.toNat = (opcode j).toNat) (hj : HasFields (opcode j) 0 0 j) : HasFields opc sub imm i := by
  obtain ⟨rfl, rfl, rfl⟩ := plainForm_ok h
  exact BitVec.eq_of_toNat_eq e ▸ hj

theorem HasFields.of_immForm {opc sub : BitVec 8} {imm : BitVec 16} {i : Instr} {f : Nat → Instr}
    (h : immForm f sub imm = .ok i) (e : opc.toNat = (opcode (f 0)).toNat)
    (hf : ∀ v, immFits v = true → HasFields (opcode (f 0)) 0 (BitVec.ofNat 16 v) (f v)) : HasFields opc sub imm i := by
  obtain ⟨rfl, rfl⟩ := immForm_ok h
  rw [BitVec.eq_of_toNat_eq e]
  simpa using hf imm.toNat (immFits_toNat imm)

theorem HasFields.of_nrdForm {opc sub : BitVec 8} {imm : BitVec 16} {i : Instr} (h : nrdForm sub imm = .ok i)
    (e : opc.toNat = 0x21) : HasFields opc sub imm i := by
  obtain rfl : opc = 0x21 := BitVec.eq_of_toNat_eq e
  unfold nrdForm at h
  cases hf : fieldOf sub with
  | error e => rw [hf] at h; cases h
  | ok f =>
    rw [hf] at h
    obtain rfl := Except.ok.inj h
    exact ⟨immFits_toNat imm, rfl, fieldOf_ok hf, by simp [immField]⟩

theorem HasFields.of_crdForm {opc sub : BitVec 8} {imm : BitVec 16} {i : Instr} (h : crdForm sub imm = .ok i)
    (e : opc.toNat = 0x32) : HasFields opc sub imm i := by
  obtain rfl : opc = 0x32 := BitVec.eq_of_toNat_eq e
  unfold crdForm at h
  split_ifs at h with hs
  obtain rfl := Except.ok.inj h
  exact ⟨Bool.and_eq_true_iff.mpr ⟨decide_eq_true (not_lt.mp hs), immFits_toNat imm⟩, rfl, by simp [subField],
    by simp [immField]⟩

/-- What fields decode to has these fields. -/
theorem hasFields_of_decodeFields {opc sub : BitVec 8} {imm : BitVec 16} {i : Instr}
    (h : decodeFields opc sub imm = .ok i) : HasFields opc sub imm i := by
  unfold decodeFields at h
  split at h <;> rename_i e
  case h_11 => exact .of_nrdForm h e
  case h_14 => exact .of_crdForm h e
  case h_25 => cases h
  case h_5 | h_7 | h_8 | h_13 | h_15 | h_16 => exact .of_immForm h e fun v hv => ⟨hv, rfl, rfl, rfl⟩
  all_goals exact .of_plainForm h e ⟨rfl, rfl, rfl, rfl⟩

/-- Settles O2: the form of each opcode reads a command off the fields that its encoding puts back together. -/
theorem legalWordsHaveOneMeaning : Obligations.LegalWordsHaveOneMeaning := by
  intro w i h
  obtain ⟨hw, ho, hs, hi⟩ := hasFields_of_decodeFields h
  refine ⟨hw, ?_⟩
  rw [encode, ho, hs, hi, append_fields]

/-- Settles O4: each word is evaluated. -/
theorem specWordsDecode : Obligations.SpecWordsDecode :=
  ⟨rfl, rfl, rfl, rfl, rfl, rfl, rfl, rfl⟩

end Sys2Proof
end

section
/-! SUPPORT. What parts of commands leave as it is. Counting, the tree build and the header of an archive leave all but some
table and the ports, the bit-stream primitives all but the blocks and the ports. Each is one equation between two states
with these blanked, from which the equation of any other field follows. -/

namespace Sys2Proof.Machine

/-- `s` with its ports blanked. -/
def State.offPorts (s : State) : State := { s with pos := 0, snk := [], trace := [] }

/-- `s` with its counts and ports blanked. -/
def State.offCounts (s : State) : State := { s.offPorts with freq := State.reset.freq, total := 0 }

/-- `s` with its nodes, TOTAL and ports blanked. -/
def State.offNodes (s : State) : State := { s.offPorts with node := State.reset.node, total := 0 }

/-- `s` with its tables and ports blanked: what no part of a table command changes. -/
def State.offTables (s : State) : State :=
  { s.offPorts with
    freq := State.reset.freq, total := 0, node := State.reset.node, len := State.reset.len, code := State.reset.code
    pq := [] }

/-- `s` with its blocks and ports blanked: what no bit-stream primitive changes. -/
def State.offBlocks (s : State) : State :=
  { s.offPorts with obuf := [], wcur := Cursor.zero, ibuf := [], ifill := 0, rcur := Cursor.zero }

/-- `s` with its tables, blocks and ports blanked: what no part of a command changes but STATUS. -/
def State.kept (s : State) : State := s.offTables.offBlocks

theorem State.kept_of_offTables {s t : State} (h : t.offTables = s.offTables) : t.kept = s.kept :=
  (congrArg State.offBlocks h :)

theorem State.kept_of_offBlocks {s t : State} (h : t.offBlocks = s.offBlocks) : t.kept = s.kept :=
  (congrArg State.offTables h :)

theorem State.offTables_of_offPorts {s t : State} (h : t.offPorts = s.offPorts) : t.offTables = s.offTables :=
  (congrArg State.offTables h :)

theorem State.offTables_of_offCounts {s t : State} (h : t.offCounts = s.offCounts) : t.offTables = s.offTables :=
  (congrArg State.offTables h :)

theorem State.offTables_of_offNodes {s t : State} (h : t.offNodes = s.offNodes) : t.offTables = s.offTables :=
  (congrArg State.offTables h :)

/-- What two parts of a command leave as it is, the two together do. -/
theorem Flow.bind_keeps {α β γ : Type} (g : State → γ) {x : Flow α} {f : α → State → Flow β} {c : γ}
    (h : g x.state = c) (h' : ∀ a t, g (f a t).state = g t) : g (x.bind f).state = c := by
  cases x with
  | ok a t => exact (h' a t).trans h
  | raised e t => exact h

/-! ### Parts that leave the blocks -/

theorem State.srcRead_offPorts (s : State) : s.srcRead.2.offPorts = s.offPorts := by
  rcases s.srcRead_cases with ⟨b, -, e⟩ | ⟨-, e⟩ <;> rw [e] <;> rfl

theorem State.tally_offCounts (s : State) (b : Nat) : (s.tally b).state.offCounts = s.offCounts := by
  rcases s.tally_cases b with ⟨-, -, e⟩ | ⟨-, e⟩ <;> rw [e] <;> rfl

theorem countLoop_offCounts (k : Nat) : ∀ s : State, (countLoop k s).state.offCounts = s.offCounts := by
  induction k with
  | zero => exact fun _ => rfl
  | succ k ih =>
    intro s
    have h := congrArg State.offCounts s.srcRead_offPorts
    unfold countLoop
    generalize s.srcRead = r at h ⊢
    obtain ⟨_ | c, t⟩ := r
    · exact h
    · exact Flow.bind_keeps State.offCounts ((t.tally_offCounts _).trans h) fun _ u => ih u

theorem State.freqPass_offCounts (s : State) : s.freqPass.state.offCounts = s.offCounts :=
  Flow.bind_keeps State.offCounts (countLoop_offCounts _ s.srcRewind.freqClear) fun _ _ => rfl

/-- Everything the tree build can do (R190, R193): all the merge steps are made, or one of them overflows. -/
theorem State.treeBuild_merged (s : State) :
    (∃ t, mergeSteps (List.range 255) s.clearTables.treeInit.pqSeed = .ok () t ∧
      Merged s.clearTables.treeInit.pqSeed 255 t ∧ s.treeBuild = .ok () t.treeFinish.markBuilt) ∨
    ∃ k t a b q, k < 255 ∧ mergeSteps (List.range k) s.clearTables.treeInit.pqSeed = .ok () t ∧
      Merged s.clearTables.treeInit.pqSeed k t ∧ t.mergeStep k = .raised .wovf t ∧ t.pq = a :: b :: q ∧
      w64 ≤ a.weight.toNat + b.weight.toNat ∧ s.treeBuild = .raised .wovf { t with pq := [] } := by
  have hall : mergeAll s.clearTables.treeInit.pqSeed = mergeSteps (List.range 255) s.clearTables.treeInit.pqSeed := by
    unfold mergeAll
    rfl
  rcases mergeSteps_range_cases (merged_zero s.clearTables) 255 le_rfl with
      ⟨t, e, hm⟩ | ⟨k, t, a, b, q, hk, e, hsteps, hm, hstep, hq, hw⟩ <;>
    rcases s.treeBuild_cases with ⟨u, hu, e'⟩ | ⟨r, u, hu, e'⟩ <;> rw [hall, e] at hu <;> cases hu
  · exact .inl ⟨t, e, hm, e'⟩
  · exact .inr ⟨k, t, a, b, q, hk, hsteps, hm, hstep, hq, hw, e'⟩

/-- The tree build changes TREE, BUILT and CODES, the tables, and nothing else (R190, R193). -/
theorem State.treeBuild_offTables (s : State) :
    (∃ t, s.treeBuild = .ok () t ∧ t.offTables = s.clearTables.markBuilt.offTables) ∨
    ∃ e t, s.treeBuild = .raised e t ∧ t.offTables = s.clearTables.offTables := by
  rcases s.treeBuild_merged with ⟨t, -, hm, e⟩ | ⟨k, t, a, b, q, -, -, hm, -, -, -, e⟩
  · exact .inl ⟨_, e, (congrArg (fun x : State => x.treeFinish.markBuilt.offTables) hm.frame :)⟩
  · exact .inr ⟨_, _, e, (congrArg State.offTables hm.frame :)⟩

theorem checkMagic_offPorts (ms : List Byte) : ∀ s : State, (checkMagic ms s).state.offPorts = s.offPorts := by
  induction ms with
  | nil => exact fun _ => rfl
  | cons m ms ih =>
    intro s
    have h := s.srcRead_offPorts
    unfold checkMagic
    generalize s.srcRead = r at h ⊢
    obtain ⟨_ | c, t⟩ := r
    · exact h
    · show (if c = m then checkMagic ms t else .raised .format t : Flow Unit).state.offPorts = _
      split_ifs
      · exact (ih t).trans h
      · exact h

theorem State.headByte_offPorts (s : State) : s.headByte.state.offPorts = s.offPorts := by
  rcases s.headByte_cases with ⟨b, -, e⟩ | ⟨-, e⟩ <;> rw [e] <;> rfl

theorem readLen_offPorts (k : Nat) : ∀ (j : Nat) (len : Word) (s : State),
    (readLen k j len s).state.offPorts = s.offPorts := by
  induction k with
  | zero => exact fun _ _ _ => rfl
  | succ k ih => exact fun j len s => Flow.bind_keeps State.offPorts s.headByte_offPorts fun _ t => ih _ _ t

theorem State.readLE16_offPorts (s : State) : s.readLE16.state.offPorts = s.offPorts :=
  Flow.bind_keeps State.offPorts s.headByte_offPorts fun _ t =>
    Flow.bind_keeps State.offPorts t.headByte_offPorts fun _ _ => rfl

theorem State.loadEntry_offNodes (s : State) (i : Nat) : (s.loadEntry i).state.offNodes = s.offNodes :=
  Flow.bind_keeps State.offNodes (congrArg State.offNodes s.readLE16_offPorts :) fun _ t =>
    Flow.bind_keeps State.offNodes (congrArg State.offNodes t.readLE16_offPorts :) fun _ _ => by
      split_ifs <;> rfl

theorem loadEntries_offNodes (is : List Nat) : ∀ s : State, (loadEntries is s).state.offNodes = s.offNodes := by
  induction is with
  | nil => exact fun _ => rfl
  | cons i is ih => exact fun s => Flow.bind_keeps State.offNodes (s.loadEntry_offNodes i) fun _ t => ih t

/-- LoadTree changes TREE, BUILT and CODES, the nodes, TOTAL and nothing else (R282, R283). -/
theorem State.loadTree_offNodes (s : State) :
    (∃ t, s.loadTree = .ok () t ∧ t.offNodes = s.clearTables.markTree.offNodes) ∨
    ∃ e t, s.loadTree = .raised e t ∧ t.offNodes = s.clearTables.offNodes := by
  have h := congrArg State.offNodes (readLen_offPorts 8 0 0 s.clearTables.arenaReset)
  unfold State.loadTree
  generalize readLen 8 0 0 s.clearTables.arenaReset = y at h ⊢
  cases y with
  | raised e t => exact .inr ⟨e, t, rfl, h⟩
  | ok len t =>
    have h' := loadEntries_offNodes ((List.range 255).map (256 + ·)) t
    rw [Flow.bind_ok]
    generalize loadEntries ((List.range 255).map (256 + ·)) t = x at h' ⊢
    cases x with
    | raised e u => exact .inr ⟨e, u, rfl, h'.trans h⟩
    | ok _ u => exact .inl ⟨_, rfl, congrArg State.markTree (h'.trans h)⟩

/-! ### Parts that leave the tables -/

theorem State.srcRead_offBlocks (s : State) : s.srcRead.2.offBlocks = s.offBlocks :=
  (congrArg State.offBlocks s.srcRead_offPorts :)

theorem State.flush_offBlocks (s : State) : s.flush.2.offBlocks = s.offBlocks := by
  rw [s.flush_snd]
  rfl

theorem State.flushIfFull_offBlocks (s : State) : s.flushIfFull.offBlocks = s.offBlocks := by
  unfold State.flushIfFull
  split_ifs
  · exact s.flush_offBlocks
  · rfl

theorem State.emitBit_offBlocks (s : State) (b : Bool) : (s.emitBit b).offBlocks = s.offBlocks :=
  (State.flushIfFull_offBlocks _).trans s.flushIfFull_offBlocks

theorem emitBits_offBlocks (bits : List Bool) : ∀ s : State,
    (bits.foldl State.emitBit s).offBlocks = s.offBlocks := by
  induction bits with
  | nil => exact fun _ => rfl
  | cons b bits ih => exact fun s => (ih _).trans (s.emitBit_offBlocks b)

theorem State.emitCode_offBlocks (s : State) (i : Nat) : (s.emitCode i).offBlocks = s.offBlocks :=
  emitBits_offBlocks _ s

theorem emitLoop_offBlocks (k : Nat) : ∀ s : State, (emitLoop k s).offBlocks = s.offBlocks := by
  induction k with
  | zero => exact fun _ => rfl
  | succ k ih =>
    intro s
    have h := s.srcRead_offBlocks
    unfold emitLoop
    generalize s.srcRead = r at h ⊢
    obtain ⟨_ | c, t⟩ := r
    · exact h
    · exact (ih _).trans ((t.emitCode_offBlocks _).trans h)

theorem State.writeArchive_offBlocks (s : State) : s.writeArchive.offBlocks = s.offBlocks := by
  rw [s.writeArchive_eq]
  exact (State.flush_offBlocks _).trans (emitLoop_offBlocks _ _)

theorem refillLoop_offBlocks (k : Nat) : ∀ (n : Nat) (s : State), (refillLoop k n s).2.offBlocks = s.offBlocks := by
  induction k with
  | zero => exact fun _ _ => rfl
  | succ k ih =>
    intro n s
    have h := s.srcRead_offBlocks
    unfold refillLoop
    generalize s.srcRead = r at h ⊢
    obtain ⟨_ | c, t⟩ := r
    · exact h
    · exact (ih _ _).trans h

theorem State.refill_offBlocks (s : State) : s.refill.2.offBlocks = s.offBlocks := refillLoop_offBlocks _ 0 s

theorem State.nextBit_offBlocks (s : State) : s.nextBit.2.offBlocks = s.offBlocks := by
  unfold State.nextBit
  split_ifs
  · show (if s.refill.1 = 0 then _ else _ : Option Bool × State).2.offBlocks = _
    split_ifs <;> exact s.refill_offBlocks
  · rfl

/-- DecodePayload's loop sets TRUNC at most, besides what NextBit and SnkWrite do (R285, R286). -/
theorem payloadLoop_offBlocks (len k : Nat) : ∀ (count n : Nat) (s : State),
    (payloadLoop len k count n s).2.offBlocks = s.offBlocks ∨
    (payloadLoop len k count n s).2.offBlocks = s.markTrunc.offBlocks := by
  induction k with
  | zero => exact fun _ _ _ => .inl rfl
  | succ k ih =>
    intro count n s
    have h := s.nextBit_offBlocks
    have h' := congrArg State.markTrunc h
    unfold payloadLoop
    split_ifs
    · generalize s.nextBit = r at h h' ⊢
      obtain ⟨_ | b, t⟩ := r
      · exact .inr h'
      · show (if t.child n b < nSym then _ else _ : Nat × State).2.offBlocks = _ ∨
          (if t.child n b < nSym then _ else _ : Nat × State).2.offBlocks = _
        split_ifs <;> exact (ih _ _ _).imp (·.trans h) (·.trans h')
    · exact .inl rfl

/-- SGET's loop sets TRUNC at most, besides what NextBit does (R290, R292). -/
theorem symbolLoop_offBlocks (k : Nat) : ∀ (n : Nat) (s : State),
    (symbolLoop k n s).2.offBlocks = s.offBlocks ∨ (symbolLoop k n s).2.offBlocks = s.markTrunc.offBlocks := by
  induction k with
  | zero => exact fun _ _ => .inl rfl
  | succ k ih =>
    intro n s
    have h := s.nextBit_offBlocks
    have h' := congrArg State.markTrunc h
    unfold symbolLoop
    generalize s.nextBit = r at h h' ⊢
    obtain ⟨_ | b, t⟩ := r
    · exact .inr h'
    · show (if t.child n b < nSym then _ else _ : Word × State).2.offBlocks = _ ∨
        (if t.child n b < nSym then _ else _ : Word × State).2.offBlocks = _
      split_ifs
      · exact .inl h
      · exact (ih _ _).imp (·.trans h) (·.trans h')

end Sys2Proof.Machine
end

section
/-! SUPPORT. How a command can end: what of the host's and of STATUS and RES its next state differs in (10_state.md section 2,
60_exceptions.md R333 to R335). -/

namespace Sys2Proof.Machine

/-! ### Next states -/

/-- Every next state that is answered has the property. -/
def Answers (o : Out) (P : State → Prop) : Prop := ∀ t, o = .next t → P t

theorem answers_next {P : State → Prop} {t : State} (h : P t) : Answers (.next t) P := by
  intro u e
  cases e
  exact h

theorem answers_inRange {P : State → Prop} {limit imm : Nat} {s : State} {go : Out} (hr : ∀ e, P (s.raise e))
    (h : Answers go P) : Answers (inRange limit imm s go) P := by
  unfold inRange
  split_ifs
  · exact answers_next (hr _)
  · exact h

theorem answers_inWords {P : State → Prop} {w : Nat} {s : State} {go : Out} (hr : ∀ e, P (s.raise e))
    (h : Answers go P) : Answers (inWords w s go) P := by
  unfold inWords
  split_ifs
  · exact answers_next (hr _)
  · exact h

/-- What a sequence check guards is reached with the flag set. -/
theorem answers_needs {P : State → Prop} {flag : Bool} {s : State} {go : Out} (hr : ∀ e, P (s.raise e))
    (h : flag = true → Answers go P) : Answers (needs flag s go) P := by
  rcases needs_cases flag s go with ⟨hf, e⟩ | ⟨-, e⟩ <;> rw [e]
  · exact h hf
  · exact answers_next (hr _)

/-- A command that ends in `t` may instead be held. -/
theorem State.settle_cases (i : Instr) (s t : State) :
    (∃ r, s.settle i t = { t with room := r }) ∨
    (∃ r, s.room = some r ∧ r < t.snk.length - s.snk.length ∧ s.settle i t = State.stall i s t) := by
  cases h : s.room with
  | none => exact .inl ⟨t.room, State.settle_none i s t h⟩
  | some r =>
    by_cases hn : t.snk.length - s.snk.length ≤ r
    · exact .inl ⟨_, State.settle_room i s t r h hn⟩
    · exact .inr ⟨r, rfl, not_le.mp hn, State.settle_stall i s t r h (not_le.mp hn)⟩

/-- A command that is held: its port accesses before the first byte that the sink does not accept are made, and the core
stands as it did (70_reset_and_hazards.md R386). -/
theorem State.stall_spec (i : Instr) {s u : State} {r : Nat} (hroom : s.room = some r) (hp : Ported s u)
    (hr : r < u.snk.length - s.snk.length) :
    ∃ es b rest, u.trace = s.trace ++ es ++ .snkWrite b :: rest ∧ (sentBytes es).length = r ∧
      State.stall i s u = { s with
        pos := posAfter s.src.length s.pos es, snk := s.snk ++ sentBytes es, room := some 0, trace := s.trace ++ es
        running := some
          { instr := i, pos := s.pos, snkLen := s.snk.length, resAfter := u.res, statusAfter := u.status } } := by
  obtain ⟨evs, htrace, -, -, hsnk⟩ := hp
  obtain ⟨b, rest, hevs, hlen⟩ := untilFull_spec evs r (by rw [hsnk, List.length_append] at hr; omega)
  have hdrop : u.trace.drop s.trace.length = evs := by rw [htrace, List.drop_left]
  refine ⟨untilFull r evs, b, rest, by rw [htrace, List.append_assoc, ← hevs], hlen, ?_⟩
  simp only [State.stall, hroom, Option.getD_some, hdrop]
  rw [s.replay_frame, s.replay_pos, s.replay_snk, s.replay_room, hroom, Option.map_some, hlen, Nat.sub_self]

/-! ### How STATUS can change -/

/-- What command `i` can do to STATUS before an error it raises is recorded (10_state.md R38 to R41, R46). -/
structure FlagStep (i : Instr) (a b : Status) : Prop where
  err : b.err = a.err
  drop : b.drop = a.drop
  trunc : b.trunc = a.trunc ∨ b.trunc = true ∧ (i = .decode ∨ i = .sget)
  tree : b.tree = true → a.tree = true ∨ i = .tbld ∨ i = .encode ∨ i = .decode
  built : b.built = true → a.built = true ∨ i = .tbld ∨ i = .encode
  codes : b.codes = true → a.codes = true ∨ i = .cgen ∨ i = .encode

theorem FlagStep.same (i : Instr) (a : Status) : FlagStep i a a := ⟨rfl, rfl, .inl rfl, .inl, .inl, .inl⟩

/-- TREE, BUILT and CODES cleared. -/
theorem FlagStep.clear (i : Instr) (a : Status) : FlagStep i a { a with tree := false, built := false, codes := false } :=
  ⟨rfl, rfl, .inl rfl, nofun, nofun, nofun⟩

/-- What no command changes but SRST, which resets ARG. -/
def State.hosts (s : State) : State :=
  { s.kept with res := 0, status := Status.reset, room := none, running := none }

/-- Command `i`, issued in `s`, ends in `t`: STATUS has changed as `i` changes it, and if an error
was raised, RES stands. -/
structure Ends (i : Instr) (s t : State) : Prop where
  hosts : t.hosts = s.hosts
  status : ∃ st, FlagStep i s.status st ∧
    (t.status = st ∨ ∃ e, t.status = { st with err := st.err.or (some e) } ∧ t.res = s.res)
  running : t.running = s.running

/-- Command `i`, issued in `s`, is held in `t`. -/
def Stalls (i : Instr) (s t : State) : Prop :=
  ∃ u r, writesSink i = true ∧ s.room = some r ∧ Ported s u ∧ r < u.snk.length - s.snk.length ∧ t = State.stall i s u

section
variable {i : Instr} {s t : State}

theorem hosts_of_kept {st : Status} (h : t.kept = ({ s with status := st } : State).kept) : t.hosts = s.hosts :=
  congrArg (fun x : State => { x with res := 0, status := Status.reset, room := none, running := none }) h

/-- The end of a command that raised no error, whatever it leaves in RES. -/
theorem Ends.done {st : Status} (hst : FlagStep i s.status st) (h : t.kept = ({ s with status := st } : State).kept)
    (v : Word) : Ends i s { t with res := v } :=
  have hhosts : t.hosts = s.hosts := hosts_of_kept h
  ⟨hhosts, ⟨st, hst, .inl (congrArg State.status h)⟩, (congrArg State.running h :)⟩

theorem Ends.quiet (h : t.kept = s.kept) (v : Word) : Ends i s { t with res := v } := .done (.same i _) h v

/-- The end of a command that raised an error. -/
theorem Ends.raised {st : Status} (hst : FlagStep i s.status st) (h : t.kept = ({ s with status := st } : State).kept)
    (e : Err) : Ends i s (t.raise e) :=
  have hhosts : t.hosts = s.hosts := hosts_of_kept h
  have hstatus : t.status = st := congrArg State.status h
  have hres : t.res = s.res := (congrArg State.res h :)
  ⟨hhosts, ⟨st, hst, .inr ⟨e, by rw [State.raise_status, hstatus], hres⟩⟩, (congrArg State.running h :)⟩

theorem Ends.checked (e : Err) : Ends i s (s.raise e) := .raised (.same i _) rfl e

theorem Ends.close {x : Flow Word} {st : Status} (hst : FlagStep i s.status st)
    (h : x.state.kept = ({ s with status := st } : State).kept) : Ends i s x.close := by
  cases x with
  | ok v t => exact .done hst h v
  | raised e t => exact .raised hst h e

theorem Ends.closeUnit {x : Flow Unit} (h : x.state.kept = s.kept) : Ends i s x.closeUnit := by
  cases x with
  | ok _ t => exact .quiet h t.res
  | raised e t => exact .raised (.same i _) h e

/-- A command that writes the sink ends, or is held. -/
theorem Ends.settle (h : Ends i s t) (hi : writesSink i = true) (hp : Ported s t) :
    Ends i s (s.settle i t) ∨ Stalls i s (s.settle i t) := by
  rcases s.settle_cases i t with ⟨r, e⟩ | ⟨r, hroom, hr, e⟩ <;> rw [e]
  · exact .inl ⟨h.hosts, h.status, h.running⟩
  · exact .inr ⟨t, r, hi, hroom, hp, hr, rfl⟩

theorem Stalls.frame (h : Stalls i s t) : t.hosts = s.hosts ∧ t.status = s.status := by
  obtain ⟨u, r, -, hroom, hp, hr, rfl⟩ := h
  obtain ⟨es, b, rest, -, -, e⟩ := State.stall_spec i hroom hp hr
  rw [e]
  exact ⟨rfl, rfl⟩

end

/-! ### Every command -/

theorem State.treeBuild_ends {i : Instr} (hi : i = .tbld) (s : State) :
    Ends i s (s.treeBuild.bind fun _ s => .ok (s.nodeAt root).weight s).close := by
  rcases s.treeBuild_offTables with ⟨t, e, h⟩ | ⟨r, t, e, h⟩ <;> rw [e]
  · exact .close (st := { s.status with tree := true, built := true, codes := false })
      ⟨rfl, rfl, .inl rfl, fun _ => .inr (.inl hi), fun _ => .inr (.inl hi), nofun⟩ (State.kept_of_offTables h)
  · exact .close (.clear i _) (State.kept_of_offTables h)

theorem State.encode_ends (s : State) : Ends .encode s s.encode.close := by
  have h := State.offTables_of_offCounts s.freqPass_offCounts
  unfold State.encode
  generalize s.freqPass = x at h ⊢
  cases x with
  | raised e t => exact .close (.same _ _) (State.kept_of_offTables h)
  | ok _ t =>
    rw [Flow.bind_ok]
    rcases t.treeBuild_offTables with ⟨u, e, hu⟩ | ⟨r, u, e, hu⟩ <;> rw [e]
    · refine .close (st := { s.status with tree := true, built := true, codes := true })
        ⟨rfl, rfl, .inl rfl, fun _ => .inr (.inr (.inl rfl)), fun _ => .inr (.inr rfl), fun _ => .inr (.inr rfl)⟩ ?_
      have hw : u.codeWalks.markCodes.writeArchive.kept = u.codeWalks.markCodes.kept :=
        State.kept_of_offBlocks u.codeWalks.markCodes.writeArchive_offBlocks
      refine hw.trans ?_
      refine (congrArg State.markCodes (State.kept_of_offTables hu)).trans ?_
      exact congrArg (fun x : State => x.clearTables.markBuilt.markCodes) (State.kept_of_offTables h)
    · refine .close (.clear _ _) ((State.kept_of_offTables hu).trans ?_)
      exact congrArg State.clearTables (State.kept_of_offTables h)

theorem State.decode_ends (s : State) : Ends .decode s s.decode.close := by
  have h := State.offTables_of_offPorts (checkMagic_offPorts s.cfg.magic.toList s.decodeStart)
  have he : s.decode = (checkMagic s.cfg.magic.toList s.decodeStart).bind fun _ s => s.loadTree.bind fun _ s =>
    .ok (resOfNat (payloadLoop s.total.toNat s.rounds 0 root s).1) (payloadLoop s.total.toNat s.rounds 0 root s).2 := rfl
  rw [he]
  generalize checkMagic s.cfg.magic.toList s.decodeStart = x at h ⊢
  cases x with
  | raised e t => exact .raised (s := s) (t := t) (.same _ _) ((State.kept_of_offTables h).trans rfl) e
  | ok _ t =>
    have hk : t.kept = s.kept := (State.kept_of_offTables h).trans rfl
    rw [Flow.bind_ok]
    rcases t.loadTree_offNodes with ⟨u, e, hu⟩ | ⟨r, u, e, hu⟩ <;> rw [e]
    · have hu' : u.kept = s.clearTables.markTree.kept :=
        (State.kept_of_offTables (State.offTables_of_offNodes hu)).trans
          (congrArg (fun x : State => x.clearTables.markTree) hk)
      have htree {tr : Bool} (h : tr = s.status.trunc ∨ tr = true ∧ (Instr.decode = .decode ∨ Instr.decode = .sget)) :
          FlagStep .decode s.status { s.status with tree := true, built := false, codes := false, trunc := tr } :=
        ⟨rfl, rfl, h, fun _ => .inr (.inr (.inr rfl)), nofun, nofun⟩
      rcases payloadLoop_offBlocks u.total.toNat u.rounds 0 root u with hp | hp
      · exact .close (htree (.inl rfl)) ((State.kept_of_offBlocks hp).trans hu')
      · exact .close (htree (.inr ⟨rfl, .inl rfl⟩)) ((State.kept_of_offBlocks hp).trans (congrArg State.markTrunc hu'))
    · exact .close (.clear _ _)
        ((State.kept_of_offTables (State.offTables_of_offNodes hu)).trans (congrArg State.clearTables hk))

/-- How every command but SRST and ECLR can end. -/
theorem exec_ends (i : Instr) (s : State) (hs : i ≠ .srst) (he : i ≠ .eclr) :
    Answers (exec i s) fun t => Ends i s t ∨ Stalls i s t := by
  have checked (e : Err) : Ends i s (s.raise e) ∨ Stalls i s (s.raise e) := .inl (.checked e)
  have ends {t : State} (h : Ends i s t) : Answers (.next t) fun t => Ends i s t ∨ Stalls i s t := answers_next (.inl h)
  have quiet {t : State} (h : t.kept = s.kept) (v : Word) := ends (.quiet h v)
  cases i with
  | nop => exact quiet rfl s.res
  | srst => exact absurd rfl hs
  | eclr => exact absurd rfl he
  | fclr => exact quiet (t := s.freqClear) rfl s.res
  | fadd b =>
    have h := State.kept_of_offTables (State.offTables_of_offCounts (s.tally_offCounts b))
    exact answers_inRange checked (ends (.closeUnit h))
  | fcnt =>
    have h := Flow.bind_keeps State.offCounts (f := fun _ s => Flow.ok s.total s) s.freqPass_offCounts fun _ _ => rfl
    exact ends (.close (.same _ _) (State.kept_of_offTables (State.offTables_of_offCounts h)))
  | frd i => exact answers_inRange checked (quiet rfl _)
  | fwr i => exact answers_inRange checked (quiet (t := s.setFreq i s.arg) rfl s.res)
  | trd => exact quiet rfl _
  | tbld => exact ends (s.treeBuild_ends rfl)
  | nrd f n => exact answers_inRange checked (quiet rfl _)
  | cgen =>
    refine answers_needs checked fun _ => ?_
    split_ifs
    · exact ends (.done (t := s.codeWalks.markCodes) (st := { s.status with codes := true })
        ⟨rfl, rfl, .inl rfl, .inl, .inl, fun _ => .inr (.inl rfl)⟩ rfl _)
    · exact fun _ => nofun
  | clen i => exact answers_inRange checked (quiet rfl _)
  | crd w i => exact answers_inWords checked (answers_inRange checked (quiet rfl _))
  | sput i =>
    refine answers_inRange checked (answers_needs checked fun _ => answers_next (Ends.settle ?_ rfl ?_))
    · exact .quiet (State.kept_of_offBlocks (s.emitCode_offBlocks i)) _
    · exact (s.emitCode_ported i).congr rfl rfl rfl rfl
  | bput b =>
    refine answers_inRange checked (ends (.closeUnit ?_))
    unfold State.bput
    split_ifs <;> rfl
  | bget =>
    refine ends (.close (.same _ _) ?_)
    unfold State.bget
    split_ifs <;> rfl
  | bflush =>
    have h := State.kept_of_offBlocks s.flush_offBlocks
    exact answers_next (Ends.settle (.quiet h _) rfl (s.flush_ported.congr rfl rfl rfl rfl))
  | bfill => exact quiet (State.kept_of_offBlocks s.refill_offBlocks) _
  | wcrd => exact quiet rfl _
  | rcrd => exact quiet rfl _
  | encode => exact answers_next (s.encode_ends.settle rfl (Flow.close_ported s.encode_ported))
  | decode => exact answers_next (s.decode_ends.settle rfl (Flow.close_ported s.decode_ported))
  | sget =>
    refine answers_needs checked fun _ => ?_
    rcases symbolLoop_offBlocks s.rounds root s with h | h
    · exact quiet (State.kept_of_offBlocks h) _
    · exact ends (.done (st := { s.status with trunc := true })
        ⟨rfl, rfl, .inr ⟨rfl, .inr rfl⟩, .inl, .inl, .inl⟩ (State.kept_of_offBlocks h) _)

/-- What every command but SRST and ECLR leaves of the host's, and how it changes STATUS and RES. -/
theorem exec_frame {i : Instr} {s t : State} (e : exec i s = .next t) (hs : i ≠ .srst) (he : i ≠ .eclr) :
    t.hosts = s.hosts ∧ ∃ st, FlagStep i s.status st ∧
      (t.status = st ∨ ∃ e, t.status = { st with err := st.err.or (some e) } ∧ t.res = s.res) := by
  rcases exec_ends i s hs he t e with h | h
  · exact ⟨h.hosts, h.status⟩
  · exact ⟨h.frame.1, s.status, .same i _, .inl h.frame.2⟩

/-- Settles O57: what the source and the sink hold is read off the port accesses, and the rest is what no command changes. -/
theorem commandsLeaveHostStateAlone : Obligations.CommandsLeaveHostStateAlone := by
  intro i s t e
  obtain ⟨evs, -, hsrc, -, hsnk⟩ := exec_ported i s t e
  have hsink : s.snk <+: t.snk := ⟨_, hsnk.symm⟩
  have hosts (h : t.hosts = s.hosts) : t.cfg = s.cfg ∧ t.src = s.src ∧ t.pending = s.pending ∧ t.reads = s.reads ∧
      t.draws = s.draws ∧ s.snk <+: t.snk ∧ (i ≠ .srst → t.arg = s.arg) := by
    have hcfg := congrArg State.cfg h
    have hpending := congrArg State.pending h
    have hreads := congrArg State.reads h
    have hdraws := congrArg State.draws h
    have harg := congrArg State.arg h
    exact ⟨hcfg, hsrc, hpending, hreads, hdraws, hsink, fun _ => harg⟩
  by_cases hs : i = .srst
  · subst hs
    cases e
    exact ⟨rfl, hsrc, rfl, rfl, rfl, hsink, absurd rfl⟩
  by_cases he : i = .eclr
  · subst he
    cases e
    exact hosts rfl
  · exact hosts (exec_frame e hs he).1

/-- Settles O58: SRST and ECLR set no flag, and every other command changes STATUS as `FlagStep` says. -/
theorem flagsSetOnlyByTheirCommands : Obligations.FlagsSetOnlyByTheirCommands := by
  intro i s t e
  by_cases hs : i = .srst
  · subst hs
    cases e
    exact ⟨nofun, nofun, nofun, nofun, fun _ => rfl⟩
  by_cases he : i = .eclr
  · subst he
    cases e
    exact ⟨fun h h' => absurd (h.symm.trans h') nofun, fun h h' => absurd (h.symm.trans h') nofun,
      fun h h' => absurd (h.symm.trans h') nofun, nofun, fun _ => rfl⟩
  obtain ⟨-, st, hst, hstatus⟩ := exec_frame e hs he
  have flags : t.status = { st with err := t.status.err } := by
    rcases hstatus with h | ⟨_, h, -⟩ <;> rw [h]
  rw [flags]
  refine ⟨fun h h' => ?_, fun h h' => ?_, fun h h' => ?_, fun h h' => ?_, fun h => hst.drop.trans h⟩
  · exact (hst.built h').resolve_left (by simp [h])
  · exact (hst.codes h').resolve_left (by simp [h])
  · exact (hst.tree h').resolve_left (by simp [h])
  · exact (hst.trunc.resolve_left fun e => absurd (h'.symm.trans (e.trans h)) nofun).2

/-- Settles O59: TRUNC and DROP are not cleared on the way, an error is recorded where none was, and RES is written only
where none is raised. -/
theorem stickyFieldsAndResOnError : Obligations.StickyFieldsAndResOnError := by
  intro i s t e hs he
  obtain ⟨-, st, hst, hstatus⟩ := exec_frame e hs he
  have htrunc : s.status.trunc = true → st.trunc = true := fun h => hst.trunc.elim (·.trans h) And.left
  rcases hstatus with h | ⟨x, h, hres⟩ <;> rw [h]
  · exact ⟨htrunc, hst.drop.trans, fun _ => hst.err.trans, fun h0 h1 => absurd (hst.err.trans h0) h1⟩
  · refine ⟨htrunc, hst.drop.trans, fun e' h' => ?_, fun _ _ => hres⟩
    show st.err.or (some x) = some e'
    rw [hst.err, h', Option.some_or]

end Sys2Proof.Machine
end

section
/-! SUPPORT. The invariant of the machine (10_state.md sections 2 to 8): what each part of a command keeps of it, what every
command does, and what every step does. -/

namespace Sys2Proof.Machine

/-! ### The blocks -/

theorem BufInv.of_offTables {s t : State} (hb : BufInv s) (h : t.offTables = s.offTables) : BufInv t :=
  have h1 : BufInv s.offTables := { hb with }
  have h2 : BufInv t.offTables := h ▸ h1
  { h2 with }

theorem BufInv.refill {s : State} (hb : BufInv s) : BufInv s.refill.2 := by
  obtain ⟨ib, tr, e, hwf, -, -, hin⟩ := s.refill_spec hb.ibufWf
  have hle : s.taken s.cfg.blockBytes ≤ s.cfg.blockBytes := Nat.min_le_left _ _
  rw [e]
  exact { hb with
    ifillMax := hle, rcurByte := Nat.zero_le _, rcurBit := fun _ => rfl, ibufWf := hwf
    ibufIn := fun c hc => (hin c hc).elim (hb.ibufIn c) fun h => lt_of_lt_of_le h hle }

/-- After Refill the cursor stands at the block's start, and the block holds as many bytes as were read (R133). -/
theorem State.refill_rcur (s : State) : s.refill.2.rcur = Cursor.zero ∧ s.refill.2.ifill = s.refill.1 := ⟨rfl, rfl⟩

theorem BufInv.nextBit {s : State} (hb : BufInv s) : BufInv s.nextBit.2 := by
  unfold State.nextBit
  split_ifs with h
  · show BufInv (if s.refill.1 = 0 then _ else _ : Option Bool × State).2
    split_ifs with h0
    · exact hb.refill
    · exact hb.refill.readBit (Nat.pos_of_ne_zero h0)
  · exact hb.readBit (lt_of_le_of_ne hb.rcurByte h)

theorem BufInv.emitCode {s : State} (hb : BufInv s) (i : Nat) : BufInv (s.emitCode i) := (s.emitCode_spec i hb).1

theorem BufInv.emitLoop (k : Nat) : ∀ {s : State}, BufInv s → BufInv (emitLoop k s) := by
  induction k with
  | zero => exact id
  | succ k ih =>
    intro s hb
    have hr : BufInv s.srcRead.2 := hb.of_offTables (State.offTables_of_offPorts s.srcRead_offPorts)
    unfold Machine.emitLoop
    generalize s.srcRead = r at hr ⊢
    obtain ⟨_ | c, t⟩ := r
    · exact hr
    · exact ih (hr.emitCode _)

theorem BufInv.writeArchive {s : State} (hb : BufInv s) : BufInv s.writeArchive := by
  rw [s.writeArchive_eq]
  exact (hb.headSent.emitLoop _).flush

theorem BufInv.payloadLoop (len k : Nat) : ∀ {count n : Nat} {s : State}, BufInv s →
    BufInv (payloadLoop len k count n s).2 := by
  induction k with
  | zero => exact fun hb => hb
  | succ k ih =>
    intro count n s hb
    have hr := hb.nextBit
    unfold Machine.payloadLoop
    split_ifs
    · generalize s.nextBit = r at hr ⊢
      obtain ⟨_ | b, t⟩ := r
      · exact { hr with }
      · show BufInv (if t.child n b < nSym then _ else _ : Nat × State).2
        split_ifs
        · exact ih { hr with }
        · exact ih hr
    · exact hb

theorem BufInv.symbolLoop (k : Nat) : ∀ {n : Nat} {s : State}, BufInv s → BufInv (symbolLoop k n s).2 := by
  induction k with
  | zero => exact fun hb => hb
  | succ k ih =>
    intro n s hb
    have hr := hb.nextBit
    unfold Machine.symbolLoop
    generalize s.nextBit = r at hr ⊢
    obtain ⟨_ | b, t⟩ := r
    · exact { hr with }
    · show BufInv (if t.child n b < nSym then _ else _ : Word × State).2
      split_ifs
      · exact hr
      · exact ih hr

/-! ### The tables -/

theorem TableInv.of_offBlocks {s t : State} (ht : TableInv s) (h : t.offBlocks = s.offBlocks) : TableInv t :=
  have h1 : TableInv s.offBlocks := { ht with }
  have h2 : TableInv t.offBlocks := h ▸ h1
  { h2 with }

theorem TableInv.of_offCounts {s t : State} (ht : TableInv s) (h : t.offCounts = s.offCounts) : TableInv t :=
  have h1 : TableInv s.offCounts := { ht with }
  have h2 : TableInv t.offCounts := h ▸ h1
  { h2 with }

/-- With TREE, BUILT and CODES clear, only LEN, CODE and PQ matter. -/
theorem TableInv.of_clear {s t : State} (ht : TableInv s) (hlen : t.len = s.len) (hcode : t.code = s.code)
    (hpq : t.pq = []) (htree : t.status.tree = false) (hbuilt : t.status.built = false)
    (hcodes : t.status.codes = false) : TableInv t where
  treeOk h := by simp [htree] at h
  builtTree h := by simp [hbuilt] at h
  builtShape h := by simp [hbuilt] at h
  codesBuilt h := by simp [hcodes] at h
  codesOk h := by simp [hcodes] at h
  codeTail := by
    unfold State.lenAt State.codeAt
    rw [hlen, hcode]
    exact ht.codeTail
  pqEmpty := hpq

/-- The part of the invariant that a command's own state carries. -/
structure Sound (s : State) : Prop where
  buf : BufInv s
  table : TableInv s

/-- The tree build leaves TREE and BUILT set over a complete tree, or all three flags clear. -/
theorem Sound.treeBuild {s : State} (h : Sound s) :
    (∃ t, s.treeBuild = .ok () t ∧ Sound t ∧ t.status.built = true) ∨
    ∃ e t, s.treeBuild = .raised e t ∧ Sound t := by
  rcases s.treeBuild_merged with ⟨t, -, hm, e⟩ | ⟨k, t, a, b, q, -, -, hm, -, -, -, e⟩ <;>
    have hlen : t.len = s.len := (congrArg State.len hm.frame :) <;>
    have hcode : t.code = s.code := (congrArg State.code hm.frame :) <;>
    have hst : t.status = s.clearTables.status := (congrArg State.status hm.frame :) <;>
    have hblocks : t.offTables = s.clearTables.offTables := (congrArg State.offTables hm.frame :)
  · refine .inl ⟨_, e, ⟨?_, ?_⟩, rfl⟩
    · exact BufInv.of_offTables (s := s.clearTables.markBuilt) { h.buf with } (congrArg State.markBuilt hblocks :)
    · have hcodes : t.status.codes = false := by rw [hst]; rfl
      have hclear : TableInv { t with pq := [] } :=
        h.table.of_clear hlen hcode rfl (by rw [hst]; rfl) (by rw [hst]; rfl) (by rw [hst]; rfl)
      exact
        { treeOk := fun _ => hm.arenaOk, builtTree := fun _ => rfl
          builtShape := fun _ => ⟨hm.treeShape, hm.weightsAdd⟩, codesBuilt := fun _ => rfl
          codesOk := fun hc => absurd (hc.symm.trans hcodes) nofun
          codeTail := hclear.codeTail, pqEmpty := rfl }
  · refine .inr ⟨_, _, e, ?_, ?_⟩
    · exact BufInv.of_offTables (s := s.clearTables) { h.buf with } hblocks
    · exact h.table.of_clear hlen hcode rfl (by rw [hst]; rfl) (by rw [hst]; rfl) (by rw [hst]; rfl)

/-- The bits above a code are 0 (R54). -/
theorem State.codeWalks_tail (s : State) {i j : Nat} {p : List Bool} (hi : i < nSym) (hp : codePath s.node i = some p)
    (hj : (s.codeWalks.lenAt i).toNat ≤ j) : (s.codeWalks.codeAt i).getLsbD j = false := by
  have hlen : p.length ≤ 255 := codePath_length _ _ _ hp
  rw [← State.codeOf_length, s.codeOf_codeWalks i p hi hp] at hj
  rw [s.codeAt_codeWalks i hi, hp, Option.getD_some, codeBits_getLsbD p j hlen, List.getElem?_eq_none hj]
  rfl

/-- CodeWalk's codes are the paths, with 0 above their lengths (R54, R220). -/
theorem TableInv.codeWalks {s : State} (ht : TableInv s) (hb : s.status.built = true) :
    TableInv s.codeWalks.markCodes := by
  obtain ⟨hshape, hw⟩ := ht.builtShape hb
  refine { ht with codesBuilt := fun _ => hb, codesOk := fun _ i hi => ?_, codeTail := fun i hi j hj => ?_ }
  · obtain ⟨p, hp, -⟩ := hshape.codePath_exists i hi
    exact hp.trans (congrArg some (s.codeOf_codeWalks i p hi hp).symm)
  · obtain ⟨p, hp, -⟩ := hshape.codePath_exists i hi
    exact s.codeWalks_tail hi hp hj

/-! ### LoadTree -/

theorem toNat_of_childOk {v : Index} (h : childOk v = true) : v.toNat ≤ 510 := by
  simp only [childOk, Bool.and_eq_true, decide_eq_true_eq] at h
  have := BitVec.toInt_eq_toNat_cond v
  split_ifs at this <;> omega

/-- New children that lie in the arena, and a new parent, keep it sound. -/
theorem ArenaOk.setNode_children {v : Vector Node 511} (h : ArenaOk v) (i : Nat) {l r : Index} (hl : l.toNat ≤ 510)
    (hr : r.toNat ≤ 510) : ArenaOk (setNode v i fun d => { d with left := l, right := r }) := by
  refine ⟨fun n hn => ?_, fun n hn hn' => ?_⟩ <;> rw [nodeOf_setNode] <;> split_ifs with hi
  · rw [← hi.1]
    exact h.1 n hn
  · exact h.1 n hn
  · exact ⟨hl, hr⟩
  · exact h.2 n hn hn'

theorem State.arenaReset_arenaOk (s : State) : ArenaOk s.arenaReset.node := by
  have hnode : ∀ n, n ≤ root → nodeOf s.arenaReset.node n = _ := fun n hn => nodeOf_arenaOf _ n hn
  refine ⟨fun n hn => ?_, fun n _ hn => ?_⟩ <;> rw [hnode n hn]
  · exact toNat_ofNat_index hn
  · exact ⟨Nat.zero_le _, Nat.zero_le _⟩

theorem readLen_node (k : Nat) (j : Nat) (len : Word) (s : State) : (readLen k j len s).state.node = s.node :=
  (congrArg State.node (readLen_offPorts k j len s) :)

/-- Each entry of the tree table is checked before it is written (R283). -/
theorem State.loadEntry_arenaOk (s : State) (i : Nat) (h : ArenaOk s.node) : ArenaOk (s.loadEntry i).state.node := by
  have h1 : s.readLE16.state.node = s.node := (congrArg State.node s.readLE16_offPorts :)
  unfold State.loadEntry
  generalize s.readLE16 = x at h1 ⊢
  cases x with
  | raised e t => exact h1.symm ▸ h
  | ok l t =>
    have h2 : t.readLE16.state.node = s.node := (congrArg State.node t.readLE16_offPorts :).trans h1
    rw [Flow.bind_ok]
    generalize t.readLE16 = y at h2 ⊢
    cases y with
    | raised e u => exact h2.symm ▸ h
    | ok r u =>
      have hu : ArenaOk u.node := h2.symm ▸ h
      rw [Flow.bind_ok]
      split_ifs with hok
      · obtain ⟨hl, hr⟩ := Bool.and_eq_true_iff.mp hok
        exact hu.setNode_children i (toNat_of_childOk hl) (toNat_of_childOk hr)
      · exact hu

theorem loadEntries_arenaOk (is : List Nat) : ∀ s : State, ArenaOk s.node → ArenaOk (loadEntries is s).state.node := by
  induction is with
  | nil => exact fun _ h => h
  | cons i is ih =>
    intro s h
    have h1 := s.loadEntry_arenaOk i h
    unfold loadEntries
    generalize s.loadEntry i = x at h1 ⊢
    cases x with
    | raised e t => exact h1
    | ok _ t => exact ih t h1

theorem State.loadTree_arenaOk {s t : State} (h : s.loadTree = .ok () t) : ArenaOk t.node := by
  have h1 := readLen_node 8 0 0 s.clearTables.arenaReset
  unfold State.loadTree at h
  obtain ⟨len, u, e, h⟩ := Flow.bind_eq_ok h
  obtain ⟨_, v, e', h⟩ := Flow.bind_eq_ok h
  rw [e] at h1
  have h2 := loadEntries_arenaOk ((List.range 255).map (256 + ·)) u (h1.symm ▸ s.clearTables.arenaReset_arenaOk)
  rw [e'] at h2
  cases h
  exact h2

/-- LoadTree leaves TREE set over a sound arena, or all three flags clear. -/
theorem Sound.loadTree {s : State} (h : Sound s) :
    (∃ t, s.loadTree = .ok () t ∧ Sound t) ∨ ∃ e t, s.loadTree = .raised e t ∧ Sound t := by
  have clear {t : State} (ht : t.offNodes = s.clearTables.offNodes) : Sound t :=
    have hst : t.status = s.clearTables.status := (congrArg State.status ht :)
    ⟨BufInv.of_offTables (s := s.clearTables) { h.buf with } (State.offTables_of_offNodes ht),
      h.table.of_clear (congrArg State.len ht :) (congrArg State.code ht :)
        ((congrArg State.pq ht :).trans h.table.pqEmpty) (by rw [hst]; rfl) (by rw [hst]; rfl) (by rw [hst]; rfl)⟩
  rcases s.loadTree_offNodes with ⟨t, e, ht⟩ | ⟨r, t, e, ht⟩
  · refine .inl ⟨t, e, ?_⟩
    have hst : t.status = s.clearTables.markTree.status := (congrArg State.status ht :)
    have hclear : Sound { t with status := s.clearTables.status } :=
      clear (congrArg (fun x : State => { x with status := s.clearTables.status }) ht :)
    have hbuilt : t.status.built = false := by rw [hst]; rfl
    have hcodes : t.status.codes = false := by rw [hst]; rfl
    exact
      ⟨{ hclear.buf with },
        { treeOk := fun _ => s.loadTree_arenaOk e, builtTree := fun hb => absurd (hb.symm.trans hbuilt) nofun
          builtShape := fun hb => absurd (hb.symm.trans hbuilt) nofun
          codesBuilt := fun hc => absurd (hc.symm.trans hcodes) nofun
          codesOk := fun hc => absurd (hc.symm.trans hcodes) nofun
          codeTail := hclear.table.codeTail, pqEmpty := hclear.table.pqEmpty }⟩
  · exact .inr ⟨r, t, e, clear ht⟩

end Sys2Proof.Machine
end

section
/-! SUPPORT. The invariant of the machine along steps (10_state.md sections 2 to 8): what every command keeps of it, held
commands included, and then every action of the host. -/

namespace Sys2Proof.Machine

/-! ### Commands -/

section
variable {s t : State}

theorem Sound.res (h : Sound s) (v : Word) : Sound { s with res := v } := ⟨{ h.buf with }, { h.table with }⟩

theorem Sound.raise (h : Sound s) (e : Err) : Sound (s.raise e) := ⟨{ h.buf with }, { h.table with }⟩

theorem Sound.of_offPorts (h : Sound s) (e : t.offPorts = s.offPorts) : Sound t :=
  ⟨h.buf.of_offTables (State.offTables_of_offPorts e), h.table.of_offBlocks (congrArg State.offBlocks e :)⟩

theorem Sound.of_offCounts (h : Sound s) (e : t.offCounts = s.offCounts) : Sound t :=
  ⟨h.buf.of_offTables (State.offTables_of_offCounts e), h.table.of_offCounts e⟩

theorem Sound.close {x : Flow Word} (h : Sound x.state) : Sound x.close := by
  cases x with
  | ok v t => exact h.res v
  | raised e t => exact h.raise e

theorem Sound.closeUnit {x : Flow Unit} (h : Sound x.state) : Sound x.closeUnit := by
  cases x with
  | ok v t => exact h
  | raised e t => exact h.raise e

theorem Flow.bind_sound {α β : Type} {x : Flow α} {f : α → State → Flow β} (h : Sound x.state)
    (h' : ∀ a t, Sound t → Sound (f a t).state) : Sound (x.bind f).state := by
  cases x with
  | ok a t => exact h' a t h
  | raised e t => exact h

theorem Sound.settle (hs : Sound s) (ht : Sound t) (i : Instr) : Sound (s.settle i t) := by
  rcases s.settle_cases i t with ⟨r, e⟩ | ⟨r, -, -, e⟩ <;> rw [e]
  · exact ⟨{ ht.buf with }, { ht.table with }⟩
  · rw [State.stall, s.replay_frame]
    exact ⟨{ hs.buf with }, { hs.table with }⟩

variable (h : Sound s)
include h

theorem Sound.writeArchive : Sound s.writeArchive :=
  ⟨h.buf.writeArchive, h.table.of_offBlocks s.writeArchive_offBlocks⟩

theorem Sound.codeWalks (hb : s.status.built = true) : Sound s.codeWalks.markCodes :=
  ⟨{ h.buf with }, h.table.codeWalks hb⟩

theorem Sound.payloadLoop (len k count n : Nat) : Sound (payloadLoop len k count n s).2 := by
  refine ⟨h.buf.payloadLoop len k, ?_⟩
  rcases payloadLoop_offBlocks len k count n s with e | e
  · exact h.table.of_offBlocks e
  · exact TableInv.of_offBlocks (s := s.markTrunc) { h.table with } e

theorem Sound.symbolLoop (k n : Nat) : Sound (symbolLoop k n s).2 := by
  refine ⟨h.buf.symbolLoop k, ?_⟩
  rcases symbolLoop_offBlocks k n s with e | e
  · exact h.table.of_offBlocks e
  · exact TableInv.of_offBlocks (s := s.markTrunc) { h.table with } e

theorem Sound.encode : Sound s.encode.state := by
  refine Flow.bind_sound (h.of_offCounts s.freqPass_offCounts) fun _ t ht => ?_
  rcases ht.treeBuild with ⟨u, e, hu, hb⟩ | ⟨r, u, e, hu⟩ <;> rw [e]
  · exact (hu.codeWalks hb).writeArchive
  · exact hu

theorem Sound.decodeStart : Sound s.decodeStart :=
  ⟨{ h.buf with ifillMax := Nat.zero_le _, rcurByte := le_rfl, rcurBit := fun _ => rfl }, { h.table with }⟩

theorem Sound.decode : Sound s.decode.state := by
  refine Flow.bind_sound (h.decodeStart.of_offPorts (checkMagic_offPorts _ _)) fun _ t ht => ?_
  rcases ht.loadTree with ⟨u, e, hu⟩ | ⟨r, u, e, hu⟩ <;> rw [e]
  · exact hu.payloadLoop _ _ _ _
  · exact hu

/-- Every command but SRST. -/
theorem Sound.exec (i : Instr) (hi : i ≠ .srst) : Answers (exec i s) Sound := by
  have same {t : State} (hb : t.offTables = s.offTables) (ht : t.offBlocks = s.offBlocks) : Answers (.next t) Sound :=
    answers_next ⟨h.buf.of_offTables hb, h.table.of_offBlocks ht⟩
  have res (v : Word) : Answers (.next { s with res := v }) Sound := answers_next (h.res v)
  cases i with
  | nop => exact answers_next h
  | srst => exact absurd rfl hi
  | eclr => exact answers_next ⟨{ h.buf with }, { h.table with }⟩
  | fclr => exact answers_next (h.of_offCounts rfl)
  | fadd b => exact answers_inRange h.raise (answers_next (Sound.closeUnit (h.of_offCounts (s.tally_offCounts b))))
  | fcnt =>
    exact answers_next (Sound.close (Flow.bind_sound (h.of_offCounts s.freqPass_offCounts) fun _ _ ht => ht))
  | frd i => exact answers_inRange h.raise (res _)
  | fwr i => exact answers_inRange h.raise (answers_next (h.of_offCounts rfl))
  | trd => exact res _
  | tbld =>
    refine answers_next (Sound.close ?_)
    rcases h.treeBuild with ⟨t, e, ht, -⟩ | ⟨r, t, e, ht⟩ <;> rw [e] <;> exact ht
  | nrd f n => exact answers_inRange h.raise (res _)
  | cgen =>
    refine answers_needs h.raise fun hb => ?_
    split_ifs
    · exact answers_next ((h.codeWalks hb).res _)
    · exact fun _ => nofun
  | clen i => exact answers_inRange h.raise (res _)
  | crd w i => exact answers_inWords h.raise (answers_inRange h.raise (res _))
  | sput i =>
    have hend : Sound (s.emitCode i) := ⟨h.buf.emitCode i, h.table.of_offBlocks (s.emitCode_offBlocks i)⟩
    exact answers_inRange h.raise (answers_needs h.raise fun _ => answers_next (h.settle (hend.res _) _))
  | bput b =>
    refine answers_inRange h.raise (answers_next (Sound.closeUnit ?_))
    unfold State.bput
    split_ifs with hfull
    · exact h
    · exact ⟨h.buf.writeBit (lt_of_le_of_ne h.buf.wcurByte hfull) _, { h.table with }⟩
  | bget =>
    refine answers_next (Sound.close ?_)
    unfold State.bget
    split_ifs with hend
    · exact h
    · exact ⟨h.buf.readBit (lt_of_le_of_ne h.buf.rcurByte hend), { h.table with }⟩
  | bflush =>
    have hend : Sound s.flush.2 := ⟨h.buf.flush, h.table.of_offBlocks s.flush_offBlocks⟩
    exact answers_next (h.settle (hend.res _) _)
  | bfill =>
    have hend : Sound s.refill.2 := ⟨h.buf.refill, h.table.of_offBlocks s.refill_offBlocks⟩
    exact answers_next (hend.res _)
  | wcrd => exact res _
  | rcrd => exact res _
  | encode => exact answers_next (h.settle h.encode.close _)
  | decode => exact answers_next (h.settle h.decode.close _)
  | sget => exact answers_needs h.raise fun _ => answers_next ((h.symbolLoop _ _).res _)

end

/-! ### Ports and reset -/

theorem posAfter_le {len p : Nat} (h : p ≤ len) (es : List PortEvent) : posAfter len p es ≤ len := by
  induction es generalizing p with
  | nil => exact h
  | cons e es ih =>
    cases e with
    | srcRead =>
      refine ih ?_
      split_ifs <;> omega
    | srcRewind => exact ih (Nat.zero_le _)
    | snkWrite b => exact ih h

theorem PortInv.of_ported {s t : State} (h : PortInv s) (hp : Ported s t) : PortInv t := by
  obtain ⟨evs, -, hsrc, hpos, -⟩ := hp
  refine ⟨hsrc ▸ h.srcLen, ?_⟩
  rw [hpos, hsrc]
  exact posAfter_le h.posIn evs

theorem RunInv.of_none {s : State} (h : s.running = none) : RunInv s := fun r hr => by
  rw [h] at hr
  cases hr

/-- Reset values, over whatever the host owns (R65). -/
theorem Inv.resetCore {s : State} (hblock : 1 ≤ s.cfg.blockBytes) (hp : PortInv s) : Inv s.resetCore where
  buf :=
    { block := hblock, wcurByte := Nat.zero_le _, wcurBit := fun _ => rfl, ifillMax := Nat.zero_le _
      rcurByte := le_rfl, rcurBit := fun _ => rfl, obufWf := rfl, obufIn := nofun, ibufWf := rfl, ibufIn := nofun
      begun := fun h => absurd rfl h }
  port := { hp with }
  table :=
    { treeOk := nofun, builtTree := nofun, builtShape := nofun, codesBuilt := nofun, codesOk := nofun
      codeTail := fun i _ j _ => by rw [s.codeAt_resetCore]; exact BitVec.getLsbD_zero
      pqEmpty := rfl }
  run := .of_none rfl

/-- A held command is well described. -/
theorem Stalls.runInv {i : Instr} {s t : State} (h : Stalls i s t) (hp : PortInv s) : RunInv t := by
  obtain ⟨u, r, hi, hroom, hpt, hr, rfl⟩ := h
  obtain ⟨es, b, rest, -, -, e⟩ := State.stall_spec i hroom hpt hr
  rw [e]
  rintro _ ⟨⟩
  exact ⟨hi, rfl, hp.posIn, by simp⟩

/-- Every command keeps the invariant. -/
theorem Inv.exec {s : State} (h : Inv s) (hr : s.running = none) (i : Instr) : Answers (exec i s) Inv := by
  intro t e
  by_cases hs : i = .srst
  · subst hs
    cases e
    exact .resetCore h.buf.block h.port
  obtain ⟨hbuf, htable⟩ := Sound.exec ⟨h.buf, h.table⟩ i hs t e
  refine ⟨hbuf, h.port.of_ported (exec_ported i s t e), htable, ?_⟩
  by_cases he : i = .eclr
  · subst he
    cases e
    exact .of_none hr
  · rcases exec_ends i s hs he t e with hend | hst
    · exact .of_none (hend.running.trans hr)
    · exact hst.runInv h.port

/-! ### Steps -/

theorem running_of_idle {s : State} (hb : s.busy = false) : s.running = none :=
  Option.isNone_iff_eq_none.mp (Option.isSome_eq_false_iff.mp hb)

section
variable {s : State} (h : Inv s)
include h

theorem Inv.issue (hr : s.running = none) (w : BitVec 32) : Answers (issue w s) Inv := by
  have h0 : Inv { s with trace := [] } := ⟨{ h.buf with }, { h.port with }, { h.table with }, h.run⟩
  unfold Machine.issue
  split_ifs
  · exact answers_next h
  · cases Sys2Proof.decode w with
    | error e => exact answers_next ⟨{ h0.buf with }, { h0.port with }, { h0.table with }, h0.run⟩
    | ok i => exact h0.exec hr i

theorem Inv.markDrop : Inv s.markDrop := ⟨{ h.buf with }, { h.port with }, { h.table with }, h.run⟩

theorem Inv.cmdWrite (v : Word) : Answers (cmdWrite v s) Inv := by
  cases hb : s.busy with
  | false => rw [cmdWrite_idle v hb]; exact h.issue (running_of_idle hb) _
  | true => rw [cmdWrite_busy v hb]; exact answers_next h.markDrop

/-- A held command is resumed from a state with the invariant. -/
theorem Inv.unstalled {r : Running} (hr : s.running = some r) (room : Option Nat) : Inv (unstalled r room s) :=
  have hpos := (h.run r hr).2.2.1
  ⟨{ h.buf with }, ⟨h.port.srcLen, hpos⟩, { h.table with }, .of_none rfl⟩

theorem Inv.setRoom (room : Option Nat) : Answers (setRoom room s) Inv := by
  unfold Machine.setRoom
  cases hr : s.running with
  | none => exact answers_next ⟨{ h.buf with }, { h.port with }, { h.table with }, .of_none rfl⟩
  | some r => exact (h.unstalled hr room).exec rfl r.instr

end

/-- The reset input keeps the invariant, wherever the ports stand. -/
theorem Inv.abortAfter {s : State} (hblock : 1 ≤ s.cfg.blockBytes) (hp : PortInv s) (k : Nat) (o : Out) :
    Answers (abortAfter k s o) Inv := by
  intro t e
  cases o with
  | fault f => cases e
  | refused f => cases e
  | next u =>
    cases e
    generalize ((u.trace.drop s.trace.length).take k) = es
    have hpos := s.replay_pos es
    rw [s.replay_frame]
    rw [hpos]
    have hi : Inv { s with pos := posAfter s.src.length s.pos es, snk := (s.replay es).snk, room := (s.replay es).room }.resetCore :=
      .resetCore hblock ⟨hp.srcLen, posAfter_le hp.posIn es⟩
    exact ⟨{ hi.buf with }, { hi.port with }, { hi.table with }, hi.run⟩

/-- Every action of the host keeps the invariant. -/
theorem Inv.hostAct {s : State} (h : Inv s) (a : HostAction) : Answers (hostAct a s) Inv := by
  cases a with
  | write off width v =>
    show Answers (hostWrite off width v s) Inv
    unfold hostWrite
    split_ifs
    · exact answers_next h
    · split
      · exact h.cmdWrite v
      · refine answers_next ?_
        unfold argWrite
        split_ifs
        · exact h.markDrop
        · exact ⟨{ h.buf with }, { h.port with }, { h.table with }, h.run⟩
      · exact answers_next h
  | read off width => exact answers_next ⟨{ h.buf with }, { h.port with }, { h.table with }, h.run⟩
  | attachSource bytes p =>
    show Answers (attachSource bytes p s) Inv
    unfold attachSource
    split_ifs with hb hlen hpos
    · exact fun _ => nofun
    · exact fun _ => nofun
    · exact fun _ => nofun
    · refine answers_next ⟨{ h.buf with }, ⟨not_le.mp hlen, not_lt.mp hpos⟩, { h.table with }, ?_⟩
      exact .of_none (running_of_idle (Bool.eq_false_iff.mpr hb))
  | replaceSink bytes =>
    show Answers (replaceSink bytes s) Inv
    unfold replaceSink
    split_ifs with hb
    · exact fun _ => nofun
    · exact answers_next ⟨{ h.buf with }, { h.port with }, { h.table with },
        .of_none (running_of_idle (Bool.eq_false_iff.mpr hb))⟩
  | setRoom room => exact h.setRoom room
  | wait =>
    refine answers_next ?_
    unfold hostWait
    split_ifs
    · exact ⟨{ h.buf with }, { h.port with }, { h.table with }, h.run⟩
    · exact h
  | reset => 
    have hi := Inv.resetCore h.buf.block h.port
    exact answers_next ⟨{ hi.buf with }, { hi.port with }, { hi.table with }, hi.run⟩
  | commandReset v k => exact Inv.abortAfter (s := { s with trace := [] }) h.buf.block { h.port with } k _
  | roomReset room k => exact Inv.abortAfter (s := { s with room := room }) h.buf.block { h.port with } k _

/-- A step takes the host's next action off the list and answers it, or is idle. -/
theorem step_cases (s : State) :
    (s.pending = [] ∧ step s = .next s) ∨
    ∃ a rest, s.pending = a :: rest ∧ step s = hostAct a { s with pending := rest } := by
  cases hp : s.pending with
  | nil => exact .inl ⟨rfl, step_idle s hp⟩
  | cons a rest => exact .inr ⟨a, rest, rfl, step_eq s a rest hp⟩

/-- What the host has planned is no part of the invariant. -/
theorem Inv.pending {s : State} (h : Inv s) (rest : List HostAction) : Inv { s with pending := rest } :=
  ⟨{ h.buf with }, { h.port with }, { h.table with }, h.run⟩

/-- Settles O54: every part of a command keeps the blocks and the tables sound, its port accesses keep the position in the
source, a command that is held keeps the state it was issued in, and so does everything else the host can do. -/
theorem stepKeepsInv : Obligations.StepKeepsInv := by
  intro s t h e
  rcases step_cases s with ⟨-, hstep⟩ | ⟨a, rest, -, hstep⟩ <;> rw [hstep] at e
  · cases e
    exact h
  · exact (h.pending rest).hostAct a t e

/-- Settles O55: it is the case of `resetCore` where the host's fields are those of the reset state. -/
theorem resetHasInv : Obligations.ResetHasInv :=
  Inv.resetCore (s := State.reset) (by decide) ⟨by decide, le_rfl⟩

/-! ### Faults -/

/-- The answer is no fault. -/
def NoFault (o : Out) : Prop := ∀ f, o ≠ .fault f

theorem noFault_next (t : State) : NoFault (.next t) := fun _ => nofun

theorem noFault_inRange {limit imm : Nat} {s : State} {go : Out} (h : NoFault go) : NoFault (inRange limit imm s go) := by
  unfold inRange
  split_ifs
  · exact noFault_next _
  · exact h

theorem noFault_inWords {w : Nat} {s : State} {go : Out} (h : NoFault go) : NoFault (inWords w s go) := by
  unfold inWords
  split_ifs
  · exact noFault_next _
  · exact h

theorem noFault_needs {flag : Bool} {s : State} {go : Out} (h : flag = true → NoFault go) : NoFault (needs flag s go) := by
  rcases needs_cases flag s go with ⟨hf, e⟩ | ⟨-, e⟩ <;> rw [e]
  · exact h hf
  · exact noFault_next _

/-- No command faults, for the walk of CGEN ends on a complete tree (R222). -/
theorem exec_noFault {s : State} (h : s.status.built = true → TreeShape s.node) (i : Instr) : NoFault (exec i s) := by
  cases i
  case fadd | frd | fwr | nrd | clen | bput => exact noFault_inRange (noFault_next _)
  case crd => exact noFault_inWords (noFault_inRange (noFault_next _))
  case sput => exact noFault_inRange (noFault_needs fun _ => noFault_next _)
  case sget => exact noFault_needs fun _ => noFault_next _
  case cgen =>
    refine noFault_needs fun hb => ?_
    rw [(h hb).walksEnd_eq_true, if_pos rfl]
    exact noFault_next _
  all_goals exact noFault_next _

theorem Inv.exec_noFault {s : State} (h : Inv s) (i : Instr) : NoFault (Machine.exec i s) :=
  Machine.exec_noFault (fun hb => (h.table.builtShape hb).1) i

theorem Inv.cmdWrite_noFault {s : State} (h : Inv s) (v : Word) : NoFault (Machine.cmdWrite v s) := by
  unfold Machine.cmdWrite Machine.issue
  split_ifs
  · exact noFault_next _
  · exact noFault_next _
  · cases Sys2Proof.decode (v.setWidth 32) with
    | error e => exact noFault_next _
    | ok i => exact Machine.exec_noFault (s := { s with trace := [] }) (fun hb => (h.table.builtShape hb).1) i

theorem Inv.setRoom_noFault {s : State} (h : Inv s) (room : Option Nat) : NoFault (Machine.setRoom room s) := by
  unfold Machine.setRoom
  cases hr : s.running with
  | none => exact noFault_next _
  | some r => exact (h.unstalled hr room).exec_noFault r.instr

theorem noFault_abortAfter {k : Nat} {s : State} {o : Out} (h : NoFault o) : NoFault (abortAfter k s o) := by
  cases o with
  | next t => exact noFault_next _
  | fault f => exact absurd rfl (h f)
  | refused r => exact fun _ => nofun

theorem Inv.hostAct_noFault {s : State} (h : Inv s) (a : HostAction) : NoFault (Machine.hostAct a s) := by
  cases a with
  | write off width v =>
    show NoFault (hostWrite off width v s)
    unfold hostWrite
    split_ifs
    · exact noFault_next _
    · split
      · exact h.cmdWrite_noFault v
      · exact noFault_next _
      · exact noFault_next _
  | read off width => exact noFault_next _
  | attachSource bytes p =>
    show NoFault (attachSource bytes p s)
    unfold attachSource
    split_ifs <;> exact fun _ => nofun
  | replaceSink bytes =>
    show NoFault (replaceSink bytes s)
    unfold replaceSink
    split_ifs <;> exact fun _ => nofun
  | setRoom room => exact h.setRoom_noFault room
  | wait => exact noFault_next _
  | reset => exact noFault_next _
  | commandReset v k =>
    exact noFault_abortAfter
      (Inv.cmdWrite_noFault (s := { s with trace := [] }) ⟨{ h.buf with }, { h.port with }, { h.table with }, h.run⟩ v)
  | roomReset room k => exact noFault_abortAfter (h.setRoom_noFault room)

/-- Settles O56: every command a step runs, a held one included, starts from a state with the invariant, whose tree is
complete when BUILT = 1. -/
theorem stepNeverFaults : Obligations.StepNeverFaults := by
  refine ⟨fun s f h => ?_, fun s hb hw => ?_⟩
  · rcases step_cases s with ⟨-, e⟩ | ⟨a, rest, -, e⟩ <;> rw [e]
    · exact noFault_next s f
    · exact (h.pending rest).hostAct_noFault a f
  · show needs s.status.built s (if walksEnd s.node then _ else _) = _
    rw [hb, needs_true, hw]
    rfl

end Sys2Proof.Machine
end

section
/-! SUPPORT. The host port (10_state.md section 2, 20_memory.md sections 2 and 5): what a step makes of each action of the
host, while no command is held and while one is. -/

namespace Sys2Proof.Machine

/-! ### Issuing a command -/

/-- Settles O5: with BUSY = 0 the write is issued, and a word that ERR does not block is run. -/
theorem stepRunsDecodedCommand : Obligations.StepRunsDecodedCommand := by
  intro s v rest i hp hb herr hd
  rw [step_issue s v rest hp hb]
  exact issue_decoded (s := { s with pending := rest }) herr hd

/-- Settles O7: with BUSY = 0 the write is issued, and the word is refused. -/
theorem illegalWordsRaise : Obligations.IllegalWordsRaise := by
  intro s v rest e hp hb herr hd
  rw [step_issue s v rest hp hb]
  exact issue_illegal (s := { s with pending := rest }) herr hd

/-! ### The register window -/

/-- R32: a write that is not a 64-bit write to CMD or ARG is ignored. -/
theorem hostWrite_ignored {off width : Nat} (v : Word) (s : State) (h : width ≠ 64 ∨ (off ≠ 0x00 ∧ off ≠ 0x08)) :
    hostWrite off width v s = .next s := by
  unfold hostWrite
  split_ifs with hw
  · rfl
  · obtain ⟨h0, h8⟩ := h.resolve_left hw
    split
    · exact absurd rfl h0
    · exact absurd rfl h8
    · rfl

/-- R32: an access that is not a 64-bit read of ARG, RES or STATUS reads 0. -/
theorem readValue_unmapped {off width : Nat} (s : State)
    (h : width ≠ 64 ∨ (off ≠ 0x00 ∧ off ≠ 0x08 ∧ off ≠ 0x10 ∧ off ≠ 0x18)) : readValue off width s = 0 := by
  unfold readValue
  split_ifs with hw
  · rfl
  · obtain ⟨-, h8, h10, h18⟩ := h.resolve_left hw
    split
    · exact absurd rfl h8
    · exact absurd rfl h10
    · exact absurd rfl h18
    · rfl

theorem hostRead_idle (off width : Nat) {s : State} (hb : s.busy = false) :
    hostRead off width s = { s with reads := s.reads ++ [readValue off width s] } := by
  simp [hostRead, hb]

/-- Settles O10: each access is told by its offset and width, and with BUSY = 0 RES and STATUS read what they hold. -/
theorem registerWindow : Obligations.RegisterWindow := by
  refine ⟨fun s off width v rest hp h => ?_, fun s off width rest hp hb => ?_, fun s hb => ?_,
    fun s off width h => readValue_unmapped s h⟩
  · rw [step_eq s _ rest hp]
    exact hostWrite_ignored v _ h
  · rw [step_eq s _ rest hp]
    exact congrArg _ (hostRead_idle off width (s := { s with pending := rest }) hb)
  · have hr := running_of_idle hb
    refine ⟨rfl, rfl, ?_, ?_⟩
    · show resRead s = s.res
      rw [resRead, hr]
    · show statusRead s = statusWord false s.status
      rw [statusRead, hr]

/-- Settles O11: STATUS is its fields put together, and each bit is found behind those below it. -/
theorem statusLayout : Obligations.StatusLayout := by
  intro busy st
  have hbit (b : Bool) (i : Nat) : (BitVec.ofBool b).getLsbD i = (decide (i = 0) && b) := BitVec.getLsbD_ofBool b i
  refine ⟨?_, ?_, ?_, ?_, ?_, ?_, ?_, ?_, ?_, fun i hi => ?_, rfl, rfl, rfl, rfl, rfl, rfl, rfl, rfl, rfl⟩
  case refine_9 =>
    refine BitVec.eq_of_getLsbD_eq fun i hi => ?_
    simp only [statusWord, BitVec.getLsbD_extractLsb', BitVec.getLsbD_append, hbit]
    grind
  all_goals
    simp only [statusWord, BitVec.getLsbD_append, hbit]
    grind

/-! ### Attaching the ports, waiting and idle steps -/

theorem not_busy {s : State} (hb : s.busy = false) : ¬ s.busy = true := Bool.eq_false_iff.mp hb

/-- R82: the checks of an attached source, in order. -/
theorem attachSource_answers (bytes : List Byte) (p : Nat) (s : State) :
    (s.busy = true → attachSource bytes p s = .refused .sourceChangedWhileBusy) ∧
    (s.busy = false → w64 ≤ bytes.length → attachSource bytes p s = .refused .sourceTooLong) ∧
    (s.busy = false → bytes.length < w64 → bytes.length < p → attachSource bytes p s = .refused .sourcePosition) ∧
    (s.busy = false → bytes.length < w64 → p ≤ bytes.length →
      attachSource bytes p s = .next { s with src := bytes, pos := p }) := by
  unfold attachSource
  refine ⟨fun hb => if_pos hb, fun hb hl => ?_, fun hb hl hpos => ?_, fun hb hl hpos => ?_⟩ <;> rw [if_neg (not_busy hb)]
  · exact if_pos hl
  · rw [if_neg (not_le.mpr hl), if_pos hpos]
  · rw [if_neg (not_le.mpr hl), if_neg (not_lt.mpr hpos)]

/-- R83: the sink is replaced between commands only. -/
theorem replaceSink_answers (bytes : List Byte) (s : State) :
    (s.busy = true → replaceSink bytes s = .refused .sinkReplacedWhileBusy) ∧
    (s.busy = false → replaceSink bytes s = .next { s with snk := bytes }) :=
  ⟨fun hb => if_pos hb, fun hb => if_neg (not_busy hb)⟩

theorem setRoom_idle (room : Option Nat) {s : State} (hr : s.running = none) :
    setRoom room s = .next { s with room := room } := by
  unfold setRoom
  rw [hr]

/-- Settles O12: the checks of each action are made in order, and with BUSY = 0 the rest does what it says. -/
theorem portAttachment : Obligations.PortAttachment := by
  refine ⟨fun s bytes p rest hp => ?_, fun s bytes rest hp => ?_, fun s hb => ⟨step_idle s, fun rest hp => ?_,
    fun room rest hp => ?_⟩⟩ <;> rw [step_eq s _ rest hp]
  · exact attachSource_answers bytes p { s with pending := rest }
  · exact replaceSink_answers bytes { s with pending := rest }
  · exact congrArg Host.Outcome.next (if_neg (not_busy hb))
  · have hr := running_of_idle hb
    exact (setRoom_idle room (s := { s with pending := rest }) hr).trans (by rw [hr])

/-! ### While a command is held -/

/-- Settles O13: while a command is held, RES and STATUS are read from before or from after it, as `readsAfter` chooses. -/
theorem readsWhileBusy : Obligations.ReadsWhileBusy := by
  intro s r hr
  have hstatus : readValue 0x18 64 s =
      statusWord true { (if Config.readsAfter s.draws then r.statusAfter else s.status) with drop := s.status.drop } := by
    show statusRead s = _
    rw [statusRead, hr]
  have hres : readValue 0x10 64 s = if Config.readsAfter s.draws then r.resAfter else s.res := by
    show resRead s = _
    rw [resRead, hr]
  rw [hstatus, hres]
  refine ⟨(statusLayout true _).1, ?_, ?_⟩ <;> split_ifs
  · exact .inr rfl
  · exact .inl rfl
  · exact .inr rfl
  · exact .inl rfl

/-- While a command is held, what the host does but give the sink room or assert reset is answered by a state that differs
in DROP and in the host's own fields alone. -/
theorem hostAct_busy {s t : State} (hb : s.busy = true) {a : HostAction} (ha : ∀ room, a ≠ .setRoom room)
    (hreset : a ≠ .reset) (hcr : ∀ v k, a ≠ .commandReset v k) (hrr : ∀ room k, a ≠ .roomReset room k)
    (e : hostAct a s = .next t) :
    (∃ off v, a = .write off 64 v ∧ (off = 0x00 ∨ off = 0x08) ∧ t = s.markDrop) ∨
    (∃ off width v, a = .write off width v ∧ (width ≠ 64 ∨ (off ≠ 0x00 ∧ off ≠ 0x08)) ∧ t = s) ∨
    (∃ off width, a = .read off width ∧ t = hostRead off width s) ∨
    (a = .wait ∧ t = { s with pending := .wait :: s.pending }) := by
  cases a with
  | write off width v =>
    by_cases h : width ≠ 64 ∨ (off ≠ 0x00 ∧ off ≠ 0x08)
    · have hs : s = t := Host.Outcome.next.inj ((hostWrite_ignored v s h).symm.trans e)
      exact .inr (.inl ⟨off, width, v, rfl, h, hs.symm⟩)
    · obtain ⟨hw, hoff⟩ := not_or.mp h
      obtain rfl := not_not.mp hw
      refine .inl ⟨off, v, rfl, by tauto, ?_⟩
      rcases (by tauto : off = 0x00 ∨ off = 0x08) with rfl | rfl
      · exact (Host.Outcome.next.inj ((cmdWrite_busy v hb).symm.trans e)).symm
      · exact (Host.Outcome.next.inj e).symm.trans (argWrite_busy v hb)
  | read off width =>
    cases e
    exact .inr (.inr (.inl ⟨off, width, rfl, rfl⟩))
  | attachSource bytes p =>
    cases ((attachSource_answers bytes p s).1 hb).symm.trans e
  | replaceSink bytes =>
    cases ((replaceSink_answers bytes s).1 hb).symm.trans e
  | setRoom room => exact absurd rfl (ha room)
  | wait =>
    refine .inr (.inr (.inr ⟨rfl, ?_⟩))
    exact (Host.Outcome.next.inj e).symm.trans (if_pos hb)
  | reset => exact absurd rfl hreset
  | commandReset v k => exact absurd rfl (hcr v k)
  | roomReset room k => exact absurd rfl (hrr room k)

/-- Settles O15: of the host's actions, a write that is dropped sets DROP, a read is recorded, and a wait stays in front. -/
theorem heldCommandStaysHeld : Obligations.HeldCommandStaysHeld := by
  intro s t hb hroom hreset hcr hrr e
  rcases step_cases s with ⟨hp, hstep⟩ | ⟨a, rest, hp, hstep⟩ <;> rw [hstep] at e
  · cases e
    exact ⟨hb, rfl, fun _ _ _ h => by simp [hp] at h, fun _ => rfl, fun _ => rfl, fun _ h => by simp [hp] at h⟩
  · have hact := hostAct_busy (s := { s with pending := rest }) hb (fun room h => hroom room rest (by rw [hp, h]))
      (fun h => hreset rest (by rw [hp, h])) (fun v k h => hcr v k rest (by rw [hp, h]))
      (fun room k h => hrr room k rest (by rw [hp, h])) e
    rw [hp]
    rcases hact with ⟨off, v, rfl, hoff, rfl⟩ | ⟨off, width, v, rfl, hoff, rfl⟩ | ⟨off, width, rfl, rfl⟩ | ⟨rfl, rfl⟩
    · exact ⟨hb, rfl, fun _ _ _ _ _ => rfl, fun h => by grind, nofun, nofun⟩
    · exact ⟨hb, rfl, fun _ _ _ h h' => by grind, fun _ => rfl, nofun, nofun⟩
    · exact ⟨hb, rfl, nofun, fun _ => rfl, nofun, nofun⟩
    · refine ⟨hb, rfl, nofun, fun _ => rfl, nofun, fun _ _ => ?_⟩
      show { s with pending := .wait :: rest } = s
      rw [← hp]

end Sys2Proof.Machine
end

section
/-! SUPPORT. The commands of the frequency table, and those that read a table, a node or a cursor back (42_frequency.md,
43_tree.md section 2, 44_codes.md section 2, 41_bitstream.md R139 and R140). -/

namespace Sys2Proof.Machine

/-- Settles O23: the first error is kept as `Option.or` keeps its first value. -/
theorem raiseKeepsFirstError : Obligations.RaiseKeepsFirstError := by
  refine fun s e => ⟨rfl, fun h => ?_, fun e' h => ?_⟩ <;> rw [State.raise_status, h] <;> rfl

/-! ### Frequency table -/

/-- Settles O24: FreqClear's table reads 0 everywhere. -/
theorem fclrClearsTheTable : Obligations.FclrClearsTheTable :=
  fun s => ⟨s.freqClear, rfl, rfl, fun i _ => s.freqAt_freqClear i⟩

/-- What FADD answers for a byte value (R161). -/
theorem exec_fadd {b : Nat} (hb : b ≤ 255) (s : State) : exec (.fadd b) s = .next (s.tally b).closeUnit :=
  inRange_pass s _ hb

/-- Settles O25: Tally adds to the one count and to TOTAL, unless one of the two would pass 2^64 - 1. -/
theorem faddCountsOneByte : Obligations.FaddCountsOneByte := by
  intro s b hb
  rw [exec_fadd hb]
  rcases s.tally_cases b with ⟨hf, ht, e⟩ | ⟨h, e⟩ <;> rw [e]
  · refine ⟨fun _ _ => ⟨_, rfl, rfl, ?_, add_one_toNat _ ht, fun i hi => ?_⟩, fun h => absurd h (by omega)⟩
    · have hfreq := s.freqAt_setFreq b b (s.freqAt b + 1)
      rw [if_pos ⟨rfl, Nat.lt_succ_of_le hb⟩] at hfreq
      exact (congrArg BitVec.toNat hfreq).trans (add_one_toNat _ hf)
    · exact (s.freqAt_setFreq b i _).trans (if_neg fun h => hi h.1)
  · exact ⟨fun hf ht => absurd h (by omega), fun _ => rfl⟩

/-- The frequency pass counts every byte, whatever the position, and rewinds the source (R162, R251). -/
theorem State.freqPass_counts (s : State) (hs : s.src.length < w64) :
    ∃ t, s.freqPass = .ok () t ∧ t = { s with freq := t.freq, total := t.total, pos := 0, trace := t.trace } ∧
      (∀ b, b < nSym → (t.freqAt b).toNat = s.src.count (BitVec.ofNat 8 b)) ∧ t.total.toNat = s.src.length ∧
      t.trace = s.trace ++ [.srcRewind] ++ List.replicate (s.src.length + 1) .srcRead ++ [.srcRewind] := by
  have hclear : ∀ b, (s.srcRewind.freqClear.freqAt b).toNat = 0 := fun b => by rw [State.freqAt_freqClear]; rfl
  obtain ⟨t, e, hframe, htrace, htotal, hfreq⟩ := countLoop_spec (s.src.length + 1) s.srcRewind.freqClear
    (by simp) (by simpa using hs) fun b _ => by
      rw [hclear, Nat.zero_add]
      exact lt_of_le_of_lt List.count_le_length (by simpa using hs)
  refine ⟨t.srcRewind, ?_, ?_, fun b hb => ?_, by simpa using htotal, ?_⟩
  · show (countLoop (s.src.length + 1) s.srcRewind.freqClear).bind _ = _
    rw [e, Flow.bind_ok]
  · rw [State.srcRewind, hframe]
    rfl
  · exact (hfreq b hb).trans (by rw [hclear, Nat.zero_add]; rfl)
  · rw [State.srcRewind_trace, htrace]
    rfl

/-- What FCNT answers for a source that the host may attach (R162, R163). -/
theorem exec_fcnt {s t : State} (e : s.freqPass = .ok () t) : exec .fcnt s = .next { t with res := t.total } := by
  show Host.Outcome.next (s.freqPass.bind fun _ s => .ok s.total s).close = _
  rw [e]
  rfl

/-- Settles O26: the frequency pass begins with a rewind and reads up to the source's end, and no count can pass the
number of bytes. -/
theorem fcntCountsTheSource : Obligations.FcntCountsTheSource := by
  intro s hs
  obtain ⟨t, e, hframe, hcounts, htotal, htrace⟩ := s.freqPass_counts hs
  refine ⟨_, exec_fcnt e, ?_, hcounts, htotal, rfl, htrace⟩
  rw [hframe]

/-- Settles O27: FWR writes the one count. -/
theorem fwrLoadsOneCount : Obligations.FwrLoadsOneCount := by
  intro s i hi
  refine ⟨s.setFreq i s.arg, inRange_pass s _ hi, rfl, ?_, fun j hj => ?_⟩ <;> rw [State.freqAt_setFreq]
  · exact if_pos ⟨rfl, Nat.lt_succ_of_le hi⟩
  · exact if_neg fun h => hj h.1

/-! ### Read-back commands -/

/-- R225: there is no code bit 255. -/
theorem codeWord_getLsbD (c : BitVec 255) (w k : Nat) (hk : k < 64) :
    (codeWord c w).getLsbD k = if 64 * w + k ≤ 254 then c.getLsbD (64 * w + k) else false := by
  rw [codeWord, BitVec.getLsbD_setWidth, BitVec.getLsbD_ushiftRight, decide_eq_true hk, Bool.true_and]
  split_ifs with h
  · rfl
  · exact BitVec.getLsbD_of_ge _ _ (by omega)

/-- Settles O28: an operand in range passes its check, and each of the six answers RES alone. -/
theorem readBackCommands : Obligations.ReadBackCommands := by
  refine fun s => ⟨fun i hi => inRange_pass s _ hi, rfl, fun i hi => inRange_pass s _ hi, fun w i hw hi => ?_,
    fun h => ?_, fun h => ?_, ⟨_, rfl⟩, ⟨_, rfl⟩⟩
  · exact ⟨_, (inWords_pass s _ hw).trans (inRange_pass s _ hi), codeWord_getLsbD _ w⟩
  · exact congrArg (fun v => Host.Outcome.next { s with res := v }) (resOfNat_eq h)
  · exact congrArg (fun v => Host.Outcome.next { s with res := v }) (resOfNat_eq h)

/-- Settles O35: a node in range passes its check, and sign extension keeps the signed value. -/
theorem nrdReadsOneField : Obligations.NrdReadsOneField := by
  intro s n hn
  have hexec (f : NodeField) : exec (.nrd f n) s = .next { s with res := (s.nodeAt n).field f } := inRange_pass s _ hn
  exact ⟨hexec .sym, hexec .weight, hexec .left, hexec .right, hexec .parent⟩

/-! ### Code table -/

theorem le_foldl_max (f : Nat → Nat) (l : List Nat) : ∀ m, m ≤ l.foldl (fun m i => max m (f i)) m ∧
    ∀ i ∈ l, f i ≤ l.foldl (fun m i => max m (f i)) m := by
  induction l with
  | nil => exact fun m => ⟨le_rfl, nofun⟩
  | cons j l ih =>
    intro m
    obtain ⟨hm, hl⟩ := ih (max m (f j))
    refine ⟨(le_max_left _ _).trans hm, fun i hi => ?_⟩
    rcases List.mem_cons.mp hi with rfl | hi
    · exact (le_max_right _ _).trans hm
    · exact hl i hi

theorem foldl_max_mem (f : Nat → Nat) (l : List Nat) : ∀ m, l.foldl (fun m i => max m (f i)) m = m ∨
    ∃ i ∈ l, l.foldl (fun m i => max m (f i)) m = f i := by
  induction l with
  | nil => exact fun m => .inl rfl
  | cons j l ih =>
    intro m
    rcases ih (max m (f j)) with h | ⟨i, hi, h⟩
    · rw [List.foldl_cons, h]
      rcases max_choice m (f j) with h' | h' <;> rw [h']
      · exact .inl rfl
      · exact .inr ⟨j, List.mem_cons_self, rfl⟩
    · exact .inr ⟨i, List.mem_cons_of_mem _ hi, h⟩

/-- R220: no length is greater than the one CGEN returns, and some length is that one. -/
theorem State.maxLen_spec (s : State) :
    (∀ i, i < nSym → (s.lenAt i).toNat ≤ s.maxLen) ∧ ∃ i, i < nSym ∧ s.maxLen = (s.lenAt i).toNat := by
  obtain ⟨-, hle⟩ := le_foldl_max (fun i => (s.lenAt i).toNat) (List.range nSym) 0
  refine ⟨fun i hi => hle i (List.mem_range.mpr hi), ?_⟩
  rcases foldl_max_mem (fun i => (s.lenAt i).toNat) (List.range nSym) 0 with h | ⟨i, hi, h⟩
  · exact ⟨0, by decide, le_antisymm (h.le.trans (Nat.zero_le _)) (hle 0 (List.mem_range.mpr (by decide)))⟩
  · exact ⟨i, List.mem_range.mp hi, h⟩

/-- Settles O36: on a complete tree every walk ends, each code is its walk's path, and RES is the greatest of the lengths. -/
theorem cgenGeneratesTheCodes : Obligations.CgenGeneratesTheCodes := by
  intro s hb h
  have e := execCgen_of_treeShape s hb h
  obtain ⟨hmax, i, hi, hlen⟩ := s.codeWalks.markCodes.maxLen_spec
  have hres : (BitVec.ofNat 64 s.codeWalks.markCodes.maxLen).toNat = s.codeWalks.markCodes.maxLen := by
    have hlt := (s.codeWalks.markCodes.lenAt i).isLt
    rw [← hlen] at hlt
    exact Nat.mod_eq_of_lt (by omega)
  generalize BitVec.ofNat 64 s.codeWalks.markCodes.maxLen = v at e hres
  refine ⟨_, e, rfl, fun i hi => ?_, i, hi, hres.trans hlen⟩
  obtain ⟨p, hp, hpos, -⟩ := h.codePath_exists i hi
  have hcode : s.codeWalks.codeOf i = p := s.codeOf_codeWalks i p hi hp
  have hlenp : (s.codeWalks.lenAt i).toNat = p.length := by rw [← State.codeOf_length, hcode]
  exact ⟨hp.trans (congrArg some hcode.symm), hcode.symm ▸ h.reachesLeaf_codePath hi hp, hlenp.symm ▸ hpos,
    hres.symm ▸ hmax i hi, fun j hj => s.codeWalks_tail hi hp hj⟩

end Sys2Proof.Machine
end

section
/-! SUPPORT. The commands of the bit stream and SPUT (41_bitstream.md section 2, 44_codes.md R226): the bytes that Flush sends
are the bits written, packed (20_memory.md R86, R91). -/

namespace Sys2Proof.Machine

/-! ### Packing -/

theorem packBits_length (bits : List Bool) : (packBits bits).length = (bits.length + 7) / 8 := by simp [packBits]

/-- Byte `k` of some packed bits. -/
theorem packBits_getElem? (bits : List Bool) (k : Nat) (hk : k < (bits.length + 7) / 8) :
    (packBits bits)[k]? = some (BitVec.ofFnLE fun j : Fin 8 => bits[8 * k + j.val]?.getD false) := by
  simp [packBits, hk]

/-- A byte is told by its eight bits. -/
theorem ofFnLE_eq_iff (f : Fin 8 → Bool) (b : Byte) : BitVec.ofFnLE f = b ↔ ∀ j : Fin 8, f j = b.getLsbD j := by
  constructor
  · rintro rfl j
    simp
  · intro h
    refine BitVec.eq_of_getLsbD_eq fun i hi => ?_
    rw [← h ⟨i, hi⟩]
    simp [hi]

theorem packBits_byteBits (b : Byte) (rest : List Bool) : packBits (byteBits b ++ rest) = b :: packBits rest := by
  apply List.ext_getElem?
  intro k
  have hlen : (byteBits b ++ rest).length = rest.length + 8 := by simp; omega
  by_cases hk : k < (rest.length + 8 + 7) / 8
  · rw [packBits_getElem? _ _ (by rw [hlen]; exact hk)]
    cases k with
    | zero =>
      rw [List.getElem?_cons_zero, Option.some_inj, ofFnLE_eq_iff]
      intro j
      simp [byteBits, List.getElem?_append]
    | succ k =>
      rw [List.getElem?_cons_succ, packBits_getElem? _ _ (by omega)]
      congr 2
      funext j
      rw [List.getElem?_append_right (by simp; omega), byteBits_length]
      congr 2
      omega
  · rw [List.getElem?_eq_none (by rw [packBits_length, hlen]; omega),
      List.getElem?_eq_none (by rw [List.length_cons, packBits_length]; omega)]

/-- Whole bytes are packed as they are, and what follows them behind them. -/
theorem packBits_bytesBits (bs : List Byte) (rest : List Bool) : packBits (bytesBits bs ++ rest) = bs ++ packBits rest := by
  induction bs with
  | nil => rfl
  | cons b bs ih => rw [bytesBits_cons, List.append_assoc, packBits_byteBits, ih, List.cons_append]

/-! ### Flush -/

theorem State.written_eq (s : State) : s.written = (s.wcur.bits + 7) / 8 := by
  have := s.wcur.bit.isLt
  unfold State.written Cursor.bits
  split_ifs with h
  · have : s.wcur.bit.val ≠ 0 := fun e => h (Fin.ext e)
    omega
  · have : s.wcur.bit.val = 0 := by simpa using h
    omega

theorem State.outBits_length (s : State) : s.outBits.length = s.wcur.bits := by simp [State.outBits]

/-- The begun bytes are the bits written, packed: the bits above the cursor are 0 (R131). -/
theorem State.begunBytes_eq (s : State) (hb : BufInv s) :
    (List.range s.written).map s.obuf.read = packBits s.outBits := by
  have hw := s.written_eq
  apply List.ext_getElem?
  intro k
  by_cases hk : k < s.written
  · rw [packBits_getElem? _ _ (by rw [s.outBits_length]; omega)]
    simp only [List.getElem?_map, List.getElem?_range hk, Option.map_some, Option.some_inj]
    refine Eq.symm ((ofFnLE_eq_iff _ _).mpr fun j => ?_)
    by_cases hj : 8 * k + j.val < s.wcur.bits
    · have hd : (8 * k + j.val) / 8 = k := by omega
      have hm : (8 * k + j.val) % 8 = j.val := by omega
      simp [State.outBits, hj, hd, hm]
    · have hbyte := s.wcur.div_bits
      have hbit := s.wcur.mod_bits
      have hkb : k = s.wcur.byte := by omega
      rw [List.getElem?_eq_none (by rw [s.outBits_length]; omega), hkb]
      exact (hb.begun (fun e => by rw [e] at hbit; simp at hbit; omega) _ (by omega)).symm
  · rw [List.getElem?_eq_none (by simp; omega), List.getElem?_eq_none (by rw [packBits_length, s.outBits_length]; omega)]

/-- Flush sends the bits written, packed (R131). -/
theorem State.flush_snk (s : State) (hb : BufInv s) : s.flush.2.snk = s.snk ++ packBits s.outBits := by
  rw [s.flush_snd, s.begunBytes_eq hb]

/-- Settles O41: Flush sends the begun bytes, which are the bits written, packed. -/
theorem bflushSendsTheBlock : Obligations.BflushSendsTheBlock := by
  intro s hroom hb
  have hexec : exec .bflush s = .next { s.flush.2 with res := resOfNat s.written } :=
    congrArg Host.Outcome.next (State.settle_none _ _ _ hroom)
  refine ⟨_, s.written, hexec, s.written_eq, ?_, ?_, s.flush_snk hb, resOfNat_eq⟩
  · rw [s.flush_snd]
    rfl
  · rw [s.flush_snd]

/-! ### Single bits -/

/-- Settles O39: the cursor tells whether the block is full, and WriteBit writes the bit there. -/
theorem bputWritesOneBit : Obligations.BputWritesOneBit := by
  intro s bit hbit hb
  have hexec : exec (.bput bit) s = .next (s.bput bit).closeUnit := inRange_pass s _ hbit
  rw [hexec, State.bput]
  refine ⟨fun h => ?_, fun h => by rw [if_pos h]; rfl⟩
  rw [if_neg h.ne]
  exact ⟨_, rfl, rfl, Cursor.bits_next _, s.outBits_writeBit _ hb.obufWf,
    fun a ha => s.writeBit_other _ a hb.obufWf ha, hb.writeBit h _⟩

/-- Settles O40: the cursor tells whether the block is used up, and ReadBit takes the first of its bits. -/
theorem bgetReadsOneBit : Obligations.BgetReadsOneBit := by
  intro s hb
  have hexec : exec .bget s = .next s.bget.close := rfl
  rw [hexec, State.bget]
  refine ⟨fun h => ?_, fun h => by rw [if_pos h]; rfl⟩
  rw [if_neg h.ne]
  refine ⟨_, s.readBit.1, rfl, rfl, s.blockBits_readBit h, Cursor.bits_next _, ?_⟩
  show (BitVec.ofBool s.readBit.1).setWidth 64 = _
  cases s.readBit.1 <;> rfl

/-! ### Blocks and codes -/

/-- Settles O42: Refill reads a block's worth of bytes, or what is left of the source, which fits 64 bits. -/
theorem bfillRefillsTheBlock : Obligations.BfillRefillsTheBlock := by
  intro s hb hp
  obtain ⟨ib, tr, e, -, hnew, hold, -⟩ := s.refill_spec hb.ibufWf
  have hexec : exec .bfill s = .next { s.refill.2 with res := resOfNat s.refill.1 } := rfl
  have hfit : s.taken s.cfg.blockBytes < w64 := by
    have := hp.srcLen
    simp only [State.taken]
    omega
  rw [e] at hexec
  exact ⟨_, _, hexec, rfl, by rw [resOfNat_eq hfit]; rfl, hnew, hold⟩

/-- Settles O38: EmitCode emits the code's bits one by one, and each EmitBit sends a block once it is full. -/
theorem sputAppendsTheCode : Obligations.SputAppendsTheCode := by
  intro s i hi hcodes hroom hb
  have hexec : exec (.sput i) s = .next { s.emitCode i with res := (s.lenAt i).setWidth 64 } := by
    refine (inRange_pass s _ hi).trans ?_
    rw [hcodes, needs_true, State.settle_none _ _ _ hroom]
  obtain ⟨hbuf, hbits, hsnk, hlen, hframe⟩ := State.emitBits_spec (s.codeOf i) s hb
  refine ⟨_, hexec, ?_, hbits, hsnk, hlen, { hbuf with }, State.emitBits_wcur _ s hb⟩
  rw [State.emitCode, hframe]

end Sys2Proof.Machine
end

section
/-! SUPPORT. The order of the tree build (43_tree.md section 1): what one merge step does, where an overflow stops it, that
the tree depends on the counts alone, and that the lower of two nodes is extracted first. -/

namespace Sys2Proof.Machine

/-! ### One merge step -/

/-- Settles O31: the step overflows or makes the writes of `mergeNodes`, and inserts its node's key. -/
theorem mergeStepMergesTwoKeys : Obligations.MergeStepMergesTwoKeys := by
  intro s k a b q hk hpq ha hb hab hq
  have hne : a.index.toNat ≠ b.index.toNat := fun e => hab (BitVec.eq_of_toNat_eq e)
  have hnode (n : Nat) := nodeOf_mergeNodes s.node (256 + k) n a b (by simp; omega) ha hb hne
  rcases s.mergeStep_cases k a b q hpq with ⟨hw, e⟩ | ⟨hw, e⟩ <;> rw [e]
  · exact ⟨fun _ => rfl, fun h => absurd hw (not_le.mpr h)⟩
  · refine ⟨fun h => absurd hw (not_lt.mpr h), fun _ => ⟨_, rfl, rfl, ?_⟩⟩
    have hnew := hnode (256 + k)
    rw [if_pos rfl] at hnew
    have hchild {n : Nat} (hn : n ≠ 256 + k) (h : n = a.index.toNat ∨ n = b.index.toNat) :=
      (hnode n).trans ((if_neg hn).trans (if_pos h))
    refine ⟨?_, ?_, ?_, ?_, ?_, hchild ha.ne (.inl rfl), hchild hb.ne (.inr rfl), fun n h1 h2 h3 => ?_,
      pqInsert_perm _ q, fun hs => pqInsert_pairwise _ q (fun x hx e => ?_) hs⟩
    · exact (congrArg (fun d => d.weight.toNat) hnew).trans (add_toNat_of_lt _ _ hw)
    · exact congrArg Node.left hnew
    · exact congrArg Node.right hnew
    · exact (congrArg Node.sym hnew :)
    · exact (congrArg Node.parent hnew :)
    · exact (hnode n).trans ((if_neg h1).trans (if_neg (not_or.mpr ⟨h2, h3⟩)))
    · have hx := hq x hx
      rw [e, toNat_ofNat_index (by omega)] at hx
      exact lt_irrefl _ hx

/-! ### The order of extraction -/

/-- Node `a` is lower than node `b` by weight, then by index (00_scope.md R26). -/
def Precedes (v : Vector Node 511) (a b : Nat) : Prop :=
  (nodeOf v a).weight.toNat < (nodeOf v b).weight.toNat ∨ ((nodeOf v a).weight = (nodeOf v b).weight ∧ a < b)

theorem Precedes.weight_le {v : Vector Node 511} {a b : Nat} (h : Precedes v a b) :
    (nodeOf v a).weight.toNat ≤ (nodeOf v b).weight.toNat := by
  rcases h with h | ⟨h, -⟩
  · exact h.le
  · rw [h]

theorem Precedes.asymm {v : Vector Node 511} {a b : Nat} (h : Precedes v a b) : ¬ Precedes v b a := by
  unfold Precedes at h ⊢
  simp only [← BitVec.toNat_inj] at h ⊢
  omega

theorem precedes_of_lt {v : Vector Node 511} {a b : Nat} (h : a < b)
    (hw : (nodeOf v a).weight.toNat ≤ (nodeOf v b).weight.toNat) : Precedes v a b := by
  rcases lt_or_eq_of_le hw with hw | hw
  · exact .inl hw
  · exact .inr ⟨BitVec.eq_of_toNat_eq hw, h⟩

theorem Precedes.congr {v v' : Vector Node 511} {a b : Nat} (ha : (nodeOf v' a).weight = (nodeOf v a).weight)
    (hb : (nodeOf v' b).weight = (nodeOf v b).weight) : Precedes v' a b ↔ Precedes v a b := by
  unfold Precedes
  rw [ha, hb]

/-- Node `a` has an earlier parent than node `b`, or the left place under the same one. -/
def ParentBefore (v : Vector Node 511) (a b : Nat) : Prop :=
  (nodeOf v a).parent.toNat < (nodeOf v b).parent.toNat ∨
  ((nodeOf v a).parent = (nodeOf v b).parent ∧ (nodeOf v (nodeOf v a).parent.toNat).left.toNat = a ∧
    (nodeOf v (nodeOf v a).parent.toNat).right.toNat = b)

/-- The nodes below `bound` that have a parent were extracted in rising order, before those that have none. -/
structure Extracted (v : Vector Node 511) (bound : Nat) : Prop where
  top : ∀ a b, a < bound → b < bound → (nodeOf v a).parent ≠ 0 → (nodeOf v b).parent = 0 → Precedes v a b
  order : ∀ a b, a < bound → b < bound → (nodeOf v a).parent ≠ 0 → (nodeOf v b).parent ≠ 0 → Precedes v a b →
    ParentBefore v a b

section
variable {s t : State} {k : Nat} {a b : Key} {q : List Key}

/-- The key of a node without a parent is in PQ. -/
theorem Merged.key_mem (h : Merged s k t) {n : Nat} (hk : k ≤ 255) (hn : n < 256 + k) (hp : (nodeOf t.node n).parent = 0) :
    ⟨(nodeOf t.node n).weight, BitVec.ofNat 16 n⟩ ∈ t.pq := by
  have e : (BitVec.ofNat 16 n).toNat = n := toNat_ofNat_index (by omega)
  exact (h.keys _).mpr ⟨by rwa [e], by rwa [e], by rw [e]⟩

theorem Merged.precedes_iff (h : Merged s k t) {x y : Key} (hx : x ∈ t.pq) (hy : y ∈ t.pq) :
    Precedes t.node x.index.toNat y.index.toNat ↔ x.before y = true := by
  obtain ⟨-, -, wx⟩ := (h.keys x).mp hx
  obtain ⟨-, -, wy⟩ := (h.keys y).mp hy
  rw [Key.before_iff, Precedes, wx, wy, BitVec.toNat_inj]

variable (h : Merged s k t) (hq : t.pq = a :: b :: q)
include h hq

/-- The first key is lower than the second. -/
theorem Merged.precedes_heads : Precedes t.node a.index.toNat b.index.toNat := by
  have hs := h.sorted
  rw [hq] at hs
  exact (h.precedes_iff (by simp [hq]) (by simp [hq])).mpr (List.rel_of_pairwise_cons hs List.mem_cons_self)

/-- The two first keys are lower than those of all other nodes without a parent. -/
theorem Merged.precedes_rest (hk : k ≤ 255) {n : Nat} (hn : n < 256 + k) (hp : (nodeOf t.node n).parent = 0)
    (ha : n ≠ a.index.toNat) (hb : n ≠ b.index.toNat) :
    Precedes t.node a.index.toNat n ∧ Precedes t.node b.index.toNat n := by
  have e : (BitVec.ofNat 16 n).toNat = n := toNat_ofNat_index (by omega)
  have hmem := h.key_mem hk hn hp
  have htail : (⟨(nodeOf t.node n).weight, BitVec.ofNat 16 n⟩ : Key) ∈ q :=
    (h.mem_tail_iff hq _).mpr ⟨hmem, fun h => ha (by rw [← e, ← h]), fun h => hb (by rw [← e, ← h])⟩
  have hs := h.sorted
  rw [hq] at hs
  have hpre {x : Key} (hx : x ∈ t.pq) (hbefore : x.before ⟨(nodeOf t.node n).weight, BitVec.ofNat 16 n⟩ = true) :
      Precedes t.node x.index.toNat n := by
    have := (h.precedes_iff hx hmem).mpr hbefore
    rwa [e] at this
  exact ⟨hpre (by simp [hq]) (List.rel_of_pairwise_cons hs (List.mem_cons_of_mem _ htail)),
    hpre (by simp [hq]) (List.rel_of_pairwise_cons hs.tail htail)⟩

variable (hk : k ≤ 254)
include hk

/-- A merge step leaves the order of the nodes there before. -/
theorem Merged.precedes_merge {m n : Nat} (hm : m < 256 + k) (hn : n < 256 + k) :
    Precedes (t.merge (256 + k) a b q).node m n ↔ Precedes t.node m n :=
  Precedes.congr (congrArg Node.weight (h.nodeOf_merge_old hq hk m hm.ne) :)
    (congrArg Node.weight (h.nodeOf_merge_old hq hk n hn.ne) :)

/-- A merge step's own node is not lower than its children. -/
theorem Merged.precedes_merge_new (hw : a.weight.toNat + b.weight.toNat < w64) {m : Nat} (hm : m < 256 + k)
    (hle : (nodeOf t.node m).weight.toNat ≤ a.weight.toNat + b.weight.toNat) :
    Precedes (t.merge (256 + k) a b q).node m (256 + k) := by
  have hnew := congrArg Node.weight (h.nodeOf_merge hq hk (256 + k))
  rw [if_pos rfl] at hnew
  refine precedes_of_lt hm ?_
  rw [hnew, add_toNat_of_lt _ _ hw, h.nodeOf_merge_old hq hk m hm.ne]
  exact hle

/-- A node that has a parent after the step had one before, or is one of the two extracted. -/
theorem Merged.parent_merge_cases (m : Nat) (hm : (nodeOf (t.merge (256 + k) a b q).node m).parent ≠ 0) :
    m < 256 + (k + 1) → m < 256 + k ∧ ((nodeOf t.node m).parent ≠ 0 ∨ m = a.index.toNat ∨ m = b.index.toNat) := by
  intro hlt
  obtain ⟨ha, hb, -⟩ := h.heads hq
  have hp := h.parent_merge hq hk m
  by_cases hc : m = a.index.toNat ∨ m = b.index.toNat
  · exact ⟨by omega, .inr hc⟩
  · rw [if_neg hc] at hp
    rw [hp] at hm
    refine ⟨lt_of_le_of_ne (by omega) fun e => hm ?_, .inl hm⟩
    rw [h.fresh m e.ge (by omega)]

theorem Extracted.step (hx : Extracted t.node (256 + k)) (hw : a.weight.toNat + b.weight.toNat < w64) :
    Extracted (t.merge (256 + k) a b q).node (256 + (k + 1)) := by
  obtain ⟨ha, hb, hab, pa, pb, wa, wb⟩ := h.heads hq
  have hidx : (BitVec.ofNat 16 (256 + k)).toNat = 256 + k := toNat_ofNat_index (by omega)
  have hpar := h.parent_merge hq hk
  have hcases := h.parent_merge_cases hq hk
  refine ⟨fun m n hm hn hpm hpn => ?_, fun m n hm hn hpm hpn hmn => ?_⟩
  · obtain ⟨hm, hold⟩ := hcases m hpm hm
    have hnc : ¬ (n = a.index.toNat ∨ n = b.index.toNat) := fun hc => by
      have := hpar n
      rw [if_pos hc, hpn] at this
      exact absurd (congrArg BitVec.toNat this) (by rw [hidx]; simp; omega)
    by_cases hnew : n = 256 + k
    · rw [hnew]
      refine h.precedes_merge_new hq hk hw hm ?_
      rcases hold with hold | rfl | rfl
      · have := (hx.top m _ hm ha hold pa).weight_le
        rw [wa] at this
        omega
      · rw [wa]; omega
      · rw [wb]; omega
    · have hn : n < 256 + k := by omega
      have hpn' : (nodeOf t.node n).parent = 0 := by
        have := hpar n
        rw [if_neg hnc, hpn] at this
        exact this.symm
      obtain ⟨hna, hnb⟩ := not_or.mp hnc
      obtain ⟨hra, hrb⟩ := h.precedes_rest hq (by omega) hn hpn' hna hnb
      rw [h.precedes_merge hq hk hm hn]
      rcases hold with hold | rfl | rfl
      · exact hx.top m n hm hn hold hpn'
      · exact hra
      · exact hrb
  · obtain ⟨hm, holdm⟩ := hcases m hpm hm
    obtain ⟨hn, holdn⟩ := hcases n hpn hn
    rw [h.precedes_merge hq hk hm hn] at hmn
    have hkeep {m : Nat} (hold : (nodeOf t.node m).parent ≠ 0) := h.parent_merge_of_ne_zero hq hk m hold
    have hlow {m : Nat} (hm : m < 256 + k) (hold : (nodeOf t.node m).parent ≠ 0) :
        (nodeOf t.node m).parent.toNat < 256 + k := ((h.parent m hm).resolve_left hold).2.1
    have hext {m : Nat} (hc : m = a.index.toNat ∨ m = b.index.toNat) := (hpar m).trans (if_pos hc)
    rcases holdm with holdm | hcm <;> rcases holdn with holdn | hcn
    · have hold := hx.order m n hm hn holdm holdn hmn
      unfold ParentBefore at hold ⊢
      rw [hkeep holdm, hkeep holdn, h.nodeOf_merge_old hq hk _ (hlow hm holdm).ne]
      exact hold
    · refine .inl ?_
      rw [hkeep holdm, hext hcn, hidx]
      exact hlow hm holdm
    · refine absurd hmn (Precedes.asymm (hx.top n m hn hm holdn ?_))
      rcases hcm with rfl | rfl <;> assumption
    · have hab' := h.precedes_heads hq
      rcases hcm with rfl | rfl <;> rcases hcn with rfl | rfl
      · exact absurd hmn hmn.asymm
      · have hnew := h.nodeOf_merge hq hk (256 + k)
        rw [if_pos rfl] at hnew
        refine .inr ⟨(hext (.inl rfl)).trans (hext (.inr rfl)).symm, ?_⟩
        rw [hext (.inl rfl), hidx, hnew]
        exact ⟨rfl, rfl⟩
      · exact absurd hmn hab'.asymm
      · exact absurd hmn hmn.asymm

end

/-- The nodes extracted in the first `k` merge steps were extracted in rising order. -/
theorem extracted_of_mergeSteps {s : State} (h0 : Merged s 0 s) (k : Nat) : k ≤ 255 → ∀ t,
    mergeSteps (List.range k) s = .ok () t → Merged s k t ∧ Extracted t.node (256 + k) := by
  induction k with
  | zero =>
    rintro - t ⟨⟩
    have hp (n : Nat) (hn : n < 256) : (nodeOf s.node n).parent = 0 :=
      (h0.parent n hn).resolve_right fun ⟨h1, h2, _⟩ => by omega
    exact ⟨h0, fun a b ha _ hpa => absurd (hp a ha) hpa, fun a b ha _ hpa => absurd (hp a ha) hpa⟩
  | succ k ih =>
    intro hk t e
    rw [List.range_succ, mergeSteps_concat] at e
    obtain ⟨_, u, hu, e⟩ := Flow.bind_eq_ok e
    obtain ⟨hm, hx⟩ := ih (by omega) u hu
    obtain ⟨a, b, q, hq⟩ := hm.pq_eq (by omega)
    rcases u.mergeStep_cases k a b q hq with ⟨-, e'⟩ | ⟨hw, e'⟩ <;> rw [e'] at e <;> cases e
    exact ⟨hm.step hq (by omega) hw, Extracted.step hm hq (by omega) hx hw⟩

/-! ### TBLD -/

/-- The tree build when the counts' sum fits makes all its merge steps (R190). -/
theorem State.treeBuild_complete (s : State) (hs : s.freqSum < w64) :
    ∃ t, Merged s.clearTables.treeInit.pqSeed 255 t ∧ Extracted t.node 511 ∧
      s.treeBuild = .ok () t.treeFinish.markBuilt := by
  rcases s.treeBuild_merged with ⟨t, e, -, e'⟩ | ⟨k, t, a, b, q, -, -, hm, -, hq, hw, -⟩
  · obtain ⟨hm, hx⟩ := extracted_of_mergeSteps (merged_zero s.clearTables) 255 le_rfl t e
    exact ⟨t, hm, hx, e'⟩
  · exact absurd (hw.trans (hm.weights_le hq)) (not_le.mpr hs)

/-- What TBLD answers once its tree is built (R190). -/
theorem exec_tbld_of_ok {s t : State} (e : s.treeBuild = .ok () t) :
    exec .tbld s = .next { t with res := (t.nodeAt root).weight } := by
  show Host.Outcome.next (s.treeBuild.bind fun _ s => .ok (s.nodeAt root).weight s).close = _
  rw [e]
  rfl

theorem exec_tbld_of_raised {s t : State} {x : Err} (e : s.treeBuild = .raised x t) :
    exec .tbld s = .next (t.raise x) := by
  show Host.Outcome.next (s.treeBuild.bind fun _ s => .ok (s.nodeAt root).weight s).close = _
  rw [e]
  rfl

/-- In the finished tree the lower of two nodes below the root comes first under their parents. -/
theorem Extracted.parentBefore_treeFinish {s t : State} (hm : Merged s 255 t) (hx : Extracted t.node 511) {a b : Nat}
    (ha : a < 510) (hb : b < 510) (h : Precedes t.treeFinish.node a b) : ParentBefore t.treeFinish.node a b := by
  have hparent {n : Nat} (hn : n < 510) : (nodeOf t.node n).parent ≠ 0 := fun e => by
    have := (hm.parent_of_lt_root n hn).1
    rw [e] at this
    simp at this
  have hl := t.nodeOf_treeFinish_of_lt ha
  have hr := t.nodeOf_treeFinish_of_lt hb
  rw [Precedes, hl, hr] at h
  have hbefore := hx.order a b (by omega) (by omega) (hparent ha) (hparent hb) h
  have hkids (n : Nat) : (nodeOf t.treeFinish.node n).left = (nodeOf t.node n).left ∧
      (nodeOf t.treeFinish.node n).right = (nodeOf t.node n).right := by
    rw [t.nodeOf_treeFinish]
    split_ifs with e
    · rw [e]; exact ⟨rfl, rfl⟩
    · exact ⟨rfl, rfl⟩
  unfold ParentBefore at hbefore ⊢
  rw [hl, hr, (hkids _).1, (hkids _).2]
  exact hbefore

/-- Settles O34: the merge steps extract the nodes in rising order, and a node's parent and place tell when it was
extracted. -/
theorem tieBreakLaw : Obligations.TieBreakLaw := by
  intro s t a b hs e ha hb h
  obtain ⟨u, hm, hx, e'⟩ := s.treeBuild_complete hs
  rw [exec_tbld_of_ok e'] at e
  cases e
  exact hx.parentBefore_treeFinish hm ha hb h

/-- Settles O30: the build stops at the first step whose two least keys overflow, and the invariant of the merge steps
says what the arena holds then. -/
theorem tbldOverflow : Obligations.TbldOverflow := by
  intro s hs
  rcases s.treeBuild_merged with ⟨t, -, hm, -⟩ | ⟨k, t, a, b, q, hk, hsteps, hm, hstep, hq, hw, e⟩
  · exact absurd (nodeOf t.treeFinish.node 510).weight.isLt (by rw [hm.weight_root]; exact not_lt.mpr hs)
  obtain ⟨ha, hb, -, pa, pb, wa, wb⟩ := hm.heads hq
  refine ⟨_, k, exec_tbld_of_raised e, by omega, ?_, ⟨t, hsteps, hstep, rfl⟩, hm.sym, hm.leaf, fun n hn hn' => ?_, hm.fresh,
    hm.parent, a.index.toNat, b.index.toNat, ha, hb, hm.precedes_heads hq, pa, pb, ?_,
    fun n hn hp hna hnb => (hm.precedes_rest hq (by omega) hn hp hna hnb).2⟩
  · rw [State.raise, hm.frame]
    rfl
  · have hj := hm.joined n hn hn'
    exact ⟨hj.leftBelow, hj.rightBelow, hj.childrenDiffer, hj.leftParent, hj.rightParent, hj.weight⟩
  · show w64 ≤ (nodeOf t.node _).weight.toNat + (nodeOf t.node _).weight.toNat
    rw [wa, wb]
    exact hw

/-! ### The counts decide -/

/-- Two parts of a command that go on, or end, alike. -/
def Flow.Rel {α : Type} (R : State → State → Prop) : Flow α → Flow α → Prop
  | .ok a s, .ok b t => a = b ∧ R s t
  | .raised e s, .raised e' t => e = e' ∧ R s t
  | .ok _ _, .raised _ _ => False
  | .raised _ _, .ok _ _ => False

theorem Flow.Rel.bind {α β : Type} {R R' : State → State → Prop} {x y : Flow α} {f g : α → State → Flow β}
    (h : x.Rel R y) (hraised : ∀ s t, R s t → R' s t) (h' : ∀ a s t, R s t → (f a s).Rel R' (g a t)) :
    (x.bind f).Rel R' (y.bind g) := by
  cases x <;> cases y
  · obtain ⟨rfl, hr⟩ := h
    exact h' _ _ _ hr
  · exact h.elim
  · exact h.elim
  · exact ⟨h.1, hraised _ _ h.2⟩

/-- Two states have the same nodes and the same keys. -/
def SameTree (s t : State) : Prop := s.node = t.node ∧ s.pq = t.pq

theorem SameTree.mergeStep {s t : State} (h : SameTree s t) (k : Nat) :
    (s.mergeStep k).Rel SameTree (t.mergeStep k) := by
  unfold State.mergeStep
  rw [← h.2]
  split
  · split_ifs
    · exact ⟨rfl, h⟩
    · refine ⟨rfl, ?_, rfl⟩
      rw [State.merge_node, State.merge_node, h.1]
  · exact ⟨rfl, h⟩

theorem SameTree.mergeSteps (ks : List Nat) : ∀ {s t : State}, SameTree s t →
    (mergeSteps ks s).Rel SameTree (mergeSteps ks t) := by
  induction ks with
  | nil => exact fun h => ⟨rfl, h⟩
  | cons k ks ih => exact fun h => (h.mergeStep k).bind (fun _ _ h => h) fun _ _ _ h => ih h

/-- The tree build sees FREQ alone (R199). -/
theorem State.treeBuild_sameTree {s t : State} (h : s.freq = t.freq) : s.treeBuild.Rel SameTree t.treeBuild := by
  have hfreq : s.freqAt = t.freqAt := by
    funext i
    rw [State.freqAt, State.freqAt, h]
  have h0 : SameTree s.clearTables.treeInit.pqSeed t.clearTables.treeInit.pqSeed := by
    constructor
    · show (arenaOf fun n => _) = (arenaOf fun n => _)
      exact congrArg (fun f : Nat → Word => arenaOf fun n =>
        { sym := BitVec.ofNat 16 n, weight := if n < nSym then f n else 0, left := 0, right := 0, parent := 0 }) hfreq
    · exact congrArg initialKeys hfreq
  have h1 := SameTree.mergeSteps (List.range 255) h0
  have hall (u : State) : mergeAll u = Machine.mergeSteps (List.range 255) u := by
    unfold mergeAll
    rfl
  rw [← hall, ← hall] at h1
  rcases s.treeBuild_cases with ⟨u, hu, e⟩ | ⟨x, u, hu, e⟩ <;>
    rcases t.treeBuild_cases with ⟨v, hv, e'⟩ | ⟨y, v, hv, e'⟩ <;> rw [e, e'] <;> rw [hu, hv] at h1
  · refine ⟨rfl, ?_, rfl⟩
    exact congrArg (fun w => setNode w root fun d => { d with parent := BitVec.ofNat 16 root }) h1.2.1
  · exact h1.elim
  · exact h1.elim
  · exact ⟨h1.1, h1.2.1, rfl⟩

/-- How TBLD ends shows in BUILT (R190, R193). -/
theorem exec_tbld_cases {s t : State} (e : exec .tbld s = .next t) :
    (∃ u, s.treeBuild = .ok () u ∧ t.node = u.node ∧ t.status.built = true) ∨
    ∃ x u, s.treeBuild = .raised x u ∧ t.node = u.node ∧ t.status.built = false := by
  rcases s.treeBuild_offTables with ⟨u, e', h⟩ | ⟨x, u, e', h⟩
  · rw [exec_tbld_of_ok e'] at e
    cases e
    exact .inl ⟨u, e', rfl, (congrArg (fun x => x.status.built) h :)⟩
  · rw [exec_tbld_of_raised e'] at e
    cases e
    exact .inr ⟨x, u, e', rfl, (congrArg (fun x => x.status.built) h :)⟩

/-- Settles O33: the two builds go on alike, from nodes and keys that are read off the counts. -/
theorem treeIsFunctionOfCounts : Obligations.TreeIsFunctionOfCounts := by
  intro s s' t t' hfreq e e'
  have h := State.treeBuild_sameTree hfreq
  rcases exec_tbld_cases e with ⟨u, hu, hn, hb⟩ | ⟨x, u, hu, hn, hb⟩ <;>
    rcases exec_tbld_cases e' with ⟨v, hv, hn', hb'⟩ | ⟨y, v, hv, hn', hb'⟩ <;> rw [hu, hv] at h
  · exact ⟨hn.trans (h.2.1.trans hn'.symm), hb.trans hb'.symm⟩
  · exact h.elim
  · exact h.elim
  · exact ⟨hn.trans (h.2.1.trans hn'.symm), hb.trans hb'.symm⟩

end Sys2Proof.Machine
end

section
/-! SUPPORT. Equal counts (43_tree.md section 1): the nodes' weights then rise with their indices, so that by the tie-break
law the nodes are extracted in the order of their indices, and node 256 + k joins nodes 2k and 2k + 1. -/

namespace Sys2Proof.Machine

/-- A rising function from the numbers below `N` to themselves leaves each where it is. -/
theorem eq_self_of_rising {f : Nat → Nat} {N : Nat} (hmono : ∀ a b, a < b → b < N → f a < f b)
    (hlt : ∀ a, a < N → f a < N) : ∀ n, n < N → f n = n := by
  have hge : ∀ n, n < N → n ≤ f n := by
    intro n
    induction n with
    | zero => exact fun _ => Nat.zero_le _
    | succ n ih =>
      intro hn
      have := ih (by omega)
      have := hmono n (n + 1) (by omega) hn
      omega
  have hle : ∀ d n, n + d < N → f n + d < N := by
    intro d
    induction d with
    | zero => exact hlt
    | succ d ih =>
      intro n hn
      have := ih (n + 1) (by omega)
      have := hmono n (n + 1) (by omega) (by omega)
      omega
  intro n hn
  have := hge n hn
  have := hle (N - 1 - n) n (by omega)
  omega

/-! ### Places in the order of extraction -/

/-- The place of node `n` in the order of extraction, as its parent and its side tell it. -/
def placeOf (v : Vector Node 511) (n : Nat) : Nat :=
  2 * ((nodeOf v n).parent.toNat - 256) + if (nodeOf v (nodeOf v n).parent.toNat).right.toNat = n then 1 else 0

section
variable {v : Vector Node 511} (h : TreeShape v)
include h

theorem TreeShape.placeOf_lt (n : Nat) (hn : n < 510) : placeOf v n < 510 := by
  obtain ⟨h1, h2, -⟩ := h.isChild n hn
  simp only [nSym_eq, root_eq] at h1 h2
  unfold placeOf
  split_ifs <;> omega

/-- The node that comes first under the parents has the earlier place. -/
theorem TreeShape.placeOf_lt_of_parentBefore {a b : Nat} (ha : a < 510) (hb : b < 510) (hab : a ≠ b)
    (hp : ParentBefore v a b) : placeOf v a < placeOf v b := by
  obtain ⟨ha1, -⟩ := h.isChild a ha
  obtain ⟨hb1, -⟩ := h.isChild b hb
  simp only [nSym_eq] at ha1 hb1
  unfold placeOf
  rcases hp with hlt | ⟨heq, -, hright⟩
  · split_ifs <;> omega
  · rw [← heq, hright, if_neg hab.symm, if_pos rfl]
    omega

/-- If the nodes come under their parents in the order of their indices, node 256 + k joins nodes 2k and 2k + 1. -/
theorem TreeShape.flat (hord : ∀ a b, a < b → b < 510 → ParentBefore v a b) :
    (∀ n, n < 510 → parentOf v n = 256 + n / 2) ∧
    ∀ k, k ≤ 254 → (nodeOf v (256 + k)).left.toNat = 2 * k ∧ (nodeOf v (256 + k)).right.toNat = 2 * k + 1 := by
  have hplace : ∀ n, n < 510 → placeOf v n = n := eq_self_of_rising
    (fun a b hab hb => h.placeOf_lt_of_parentBefore (by omega) hb hab.ne (hord a b hab hb)) h.placeOf_lt
  have hside (n : Nat) (hn : n < 510) : parentOf v n = 256 + n / 2 ∧
      ((nodeOf v (parentOf v n)).right.toNat = n ↔ n % 2 = 1) := by
    have hp := hplace n hn
    obtain ⟨h1, -⟩ := h.isChild n hn
    simp only [nSym_eq] at h1
    unfold placeOf at hp
    unfold parentOf
    split_ifs at hp with hr
    · exact ⟨by omega, fun _ => by omega, fun _ => hr⟩
    · exact ⟨by omega, fun h' => absurd h' hr, fun _ => by omega⟩
  refine ⟨fun n hn => (hside n hn).1, fun k hk => ⟨?_, ?_⟩⟩
  · obtain ⟨hp, hr⟩ := hside (2 * k) (by omega)
    obtain ⟨-, -, hc⟩ := h.isChild (2 * k) (by simp; omega)
    have e : parentOf v (2 * k) = 256 + k := by omega
    rw [e] at hr
    change (nodeOf v (parentOf v (2 * k))).left.toNat = 2 * k ∨ (nodeOf v (parentOf v (2 * k))).right.toNat = 2 * k at hc
    rw [e] at hc
    exact hc.resolve_right fun h' => by have := hr.mp h'; omega
  · obtain ⟨hp, hr⟩ := hside (2 * k + 1) (by omega)
    rw [show parentOf v (2 * k + 1) = 256 + k by omega] at hr
    exact hr.mpr (by omega)

/-! ### Weights that rise with the indices -/

/-- By the tie-break law an internal node weighs no more than the next one, since its children are the lower ones. -/
theorem TreeShape.weight_le_succ (hw : WeightsAdd v)
    (hlaw : ∀ a b, a < 510 → b < 510 → Precedes v a b → ParentBefore v a b) {n : Nat} (hn : 256 ≤ n) (hn' : n < 510) :
    (nodeOf v n).weight.toNat ≤ (nodeOf v (n + 1)).weight.toNat := by
  have hle {a b : Nat} (ha : a < 510) (hb : b < 510) (hpa : parentOf v a = n) (hpb : parentOf v b = n + 1) :
      (nodeOf v a).weight.toNat ≤ (nodeOf v b).weight.toNat := by
    by_contra hlt
    rcases hlaw b a hb ha (.inl (not_le.mp hlt)) with hp | ⟨hp, -⟩
    · change parentOf v b < parentOf v a at hp
      omega
    · have hp : parentOf v b = parentOf v a := congrArg BitVec.toNat hp
      omega
  have hn1 : n ≤ root := hn'.le
  have hn2 : n + 1 ≤ root := hn'
  have l1 := h.leftBelow n hn hn1
  have r1 := h.rightBelow n hn hn1
  have l2 := h.leftBelow (n + 1) (by simp; omega) hn2
  have r2 := h.rightBelow (n + 1) (by simp; omega) hn2
  rw [hw n hn hn1, hw (n + 1) (by simp; omega) hn2]
  exact Nat.add_le_add
    (hle (by omega) (by omega) (h.leftParent n hn hn1) (h.leftParent (n + 1) (by simp; omega) hn2))
    (hle (by omega) (by omega) (h.rightParent n hn hn1) (h.rightParent (n + 1) (by simp; omega) hn2))

/-- Over equal counts the weights rise with the indices. -/
theorem TreeShape.weight_mono (hw : WeightsAdd v)
    (hlaw : ∀ a b, a < 510 → b < 510 → Precedes v a b → ParentBefore v a b) {c : Nat}
    (hleaf : ∀ i, i < 256 → (nodeOf v i).weight.toNat = c) {a b : Nat} (hab : a ≤ b) : b ≤ 510 →
    (nodeOf v a).weight.toNat ≤ (nodeOf v b).weight.toNat := by
  induction b, hab using Nat.le_induction with
  | base => exact fun _ => le_rfl
  | succ b _ ih =>
    intro hb
    refine (ih (by omega)).trans ?_
    rcases lt_trichotomy b 255 with h' | rfl | h'
    · rw [hleaf b (by omega), hleaf (b + 1) (by omega)]
    · have hl := h.leftBelow 256 (by simp) (by simp)
      rw [hw 256 (by simp) (by simp), hleaf 255 (by omega), hleaf _ hl]
      omega
    · exact h.weight_le_succ hw hlaw (by omega) (by omega)

/-! ### Depth -/

/-- Eight links lead from every leaf of the flat tree to the root, and no fewer. -/
theorem codePath_length_of_flat (hp : ∀ n, n < 510 → parentOf v n = 256 + n / 2) {i : Nat} (hi : i < nSym) :
    ∃ p, codePath v i = some p ∧ p.length = 8 := by
  obtain ⟨p, hpath, -⟩ := h.codePath_exists i hi
  obtain ⟨hroot, hbefore⟩ := codePath_links hpath
  simp only [nSym_eq] at hi
  have hbelow (j : Nat) (hj : j ≤ 8) :
      512 - 2 ^ (9 - j) ≤ (parentOf v)^[j] i ∧ (parentOf v)^[j] i < 512 - 2 ^ (8 - j) := by
    induction j with
    | zero => exact ⟨Nat.zero_le _, hi⟩
    | succ j ih =>
      obtain ⟨hlow, hhigh⟩ := ih (by omega)
      have hpow : 2 ^ (9 - j) = 2 * 2 ^ (8 - j) := by rw [show 9 - j = 8 - j + 1 by omega, pow_succ']
      have hpow' : 2 ^ (8 - j) = 2 * 2 ^ (8 - (j + 1)) := by rw [show 8 - j = 8 - (j + 1) + 1 by omega, pow_succ']
      have hpos : 0 < 2 ^ (8 - (j + 1)) := Nat.two_pow_pos _
      rw [Function.iterate_succ_apply', hp _ (by omega), show 9 - (j + 1) = 8 - j by omega]
      omega
  refine ⟨p, hpath, ?_⟩
  rcases lt_trichotomy p.length 8 with hlt | heq | hgt
  · have hlast := (hbelow p.length hlt.le).2
    have hpow : 2 ≤ 2 ^ (8 - p.length) := Nat.pow_le_pow_right (n := 2) (by omega) (by omega : 1 ≤ 8 - p.length)
    rw [hroot] at hlast
    simp only [root_eq] at hlast
    omega
  · exact heq
  · have hlast := hbelow 8 le_rfl
    exact absurd (by simp at hlast ⊢; omega) (hbefore 8 hgt)

end

/-- Settles O32: over equal counts the weights rise with the indices, so the tie-break law orders the nodes by index. -/
theorem equalCountsTopology : Obligations.EqualCountsTopology := by
  intro s c hc hsum
  have hfit : s.freqSum < w64 := by
    have hmap : (List.range nSym).map (fun i => (s.freqAt i).toNat) = (List.range nSym).map fun _ => c.toNat :=
      List.map_congr_left fun i hi => by rw [hc i (List.mem_range.mp hi)]
    rw [State.freqSum, hmap, List.map_const', List.sum_replicate, List.length_range]
    exact hsum
  obtain ⟨t, hm, hx, e⟩ := s.treeBuild_complete hfit
  have hshape := hm.treeShape
  have hlaw (a b : Nat) (ha : a < 510) (hb : b < 510) := hx.parentBefore_treeFinish hm ha hb
  have hleaf (i : Nat) (hi : i < 256) : (nodeOf t.treeFinish.node i).weight.toNat = c.toNat := by
    rw [t.nodeOf_treeFinish_of_lt (by omega), (hm.leaf i hi).1]
    exact congrArg BitVec.toNat (hc i hi)
  obtain ⟨hparent, hkids⟩ := hshape.flat fun a b hab hb => hlaw a b (by omega) hb
    (precedes_of_lt hab (hshape.weight_mono hm.weightsAdd hlaw hleaf hab.le hb.le))
  exact ⟨_, exec_tbld_of_ok e, hkids, fun i hi => codePath_length_of_flat hshape hparent hi⟩

end Sys2Proof.Machine
end

section
/-! SUPPORT. What commands do not depend on: how many bytes the sink accepts (20_memory.md R83), and the bytes of the blocks
that the rules leave unspecified (10_state.md R55, R57). Two states that differ in these alone go through every part of a
command alike. -/

namespace Sys2Proof.Machine

/-! ### States that differ in the room of the sink and in block bytes -/

/-- The blocks of the two states hold the same bytes (`true`), or the same bits written and unread (`false`). -/
def BlocksAlike : Bool → State → State → Prop
  | true, s, s' => s'.obuf = s.obuf ∧ s'.ibuf = s.ibuf
  | false, s, s' => BufInv s ∧ BufInv s' ∧ s'.outBits = s.outBits ∧ s'.blockBits = s.blockBits

/-- The two states have room for `r` and for `r'` bytes, alike blocks, and all else the same. -/
structure Alike (m : Bool) (r r' : Option Nat) (s s' : State) : Prop where
  room : s.room = r
  frame : s' = { s with obuf := s'.obuf, ibuf := s'.ibuf, room := r' }
  blocks : BlocksAlike m s s'

/-- The blocks of a state, and the room of its sink. -/
def State.blocks (s : State) : State :=
  { State.reset with
    cfg := s.cfg, obuf := s.obuf, wcur := s.wcur, ibuf := s.ibuf, ifill := s.ifill, rcur := s.rcur, room := s.room }

theorem BufInv.of_blocks {s t : State} (hb : BufInv s) (h : t.blocks = s.blocks) : BufInv t :=
  have h1 : BufInv s.blocks := { hb with }
  have h2 : BufInv t.blocks := h ▸ h1
  { h2 with }

theorem BlocksAlike.of_blocks {m : Bool} {s s' t t' : State} (h : BlocksAlike m s s') (ht : t.blocks = s.blocks)
    (ht' : t'.blocks = s'.blocks) : BlocksAlike m t t' := by
  have ho : t.outBits = s.outBits := (congrArg State.outBits ht :)
  have ho' : t'.outBits = s'.outBits := (congrArg State.outBits ht' :)
  have hi : t.blockBits = s.blockBits := (congrArg State.blockBits ht :)
  have hi' : t'.blockBits = s'.blockBits := (congrArg State.blockBits ht' :)
  cases m with
  | true =>
    have e1 : t.obuf = s.obuf := (congrArg State.obuf ht :)
    have e2 : t'.obuf = s'.obuf := (congrArg State.obuf ht' :)
    have e3 : t.ibuf = s.ibuf := (congrArg State.ibuf ht :)
    have e4 : t'.ibuf = s'.ibuf := (congrArg State.ibuf ht' :)
    exact ⟨by rw [e1, e2, h.1], by rw [e3, e4, h.2]⟩
  | false =>
    obtain ⟨hb, hb', hout, hblock⟩ := h
    exact ⟨hb.of_blocks ht, hb'.of_blocks ht', by rw [ho, ho', hout], by rw [hi, hi', hblock]⟩

section
variable {m : Bool} {r r' : Option Nat} {s s' : State}

/-- An update that neither reads nor writes the blocks and the room keeps states alike. -/
theorem Alike.map (h : Alike m r r' s s') (f : State → State)
    (hf : ∀ s o b r, f { s with obuf := o, ibuf := b, room := r } = { f s with obuf := o, ibuf := b, room := r })
    (hk : ∀ s, (f s).blocks = s.blocks) : Alike m r r' (f s) (f s') := by
  have hroom : (f s).room = s.room := (congrArg State.room (hk s) :)
  have ho : (f s').obuf = s'.obuf := (congrArg State.obuf (hk s') :)
  have hi : (f s').ibuf = s'.ibuf := (congrArg State.ibuf (hk s') :)
  refine ⟨hroom.trans h.room, ?_, h.blocks.of_blocks (hk s) (hk s')⟩
  rw [ho, hi, ← hf, ← h.frame]

/-- What is read off neither the blocks nor the room is the same in both. -/
theorem Alike.read {β : Type} (h : Alike m r r' s s') (g : State → β)
    (hg : ∀ s o b r, g { s with obuf := o, ibuf := b, room := r } = g s) : g s' = g s := by
  rw [h.frame]
  exact hg s _ _ _

variable (h : Alike m r r' s s')
include h

/-! ### Ports, counts and nodes -/

theorem Alike.srcRead : s'.srcRead.1 = s.srcRead.1 ∧ Alike m r r' s.srcRead.2 s'.srcRead.2 := by
  have hget : s'.src[s'.pos]? = s.src[s.pos]? := h.read (fun s => s.src[s.pos]?) fun _ _ _ _ => rfl
  rcases s.srcRead_cases with ⟨b, hb, e⟩ | ⟨hl, e⟩
  · rw [e, s'.srcRead_some b (hget.trans hb)]
    exact ⟨rfl, h.map (fun s => { s with pos := s.pos + 1, trace := s.trace ++ [.srcRead] }) (fun _ _ _ _ => rfl)
      fun _ => rfl⟩
  · rw [e, s'.srcRead_none (hget.trans (List.getElem?_eq_none hl))]
    exact ⟨rfl, h.map (fun s => { s with trace := s.trace ++ [.srcRead] }) (fun _ _ _ _ => rfl) fun _ => rfl⟩

theorem Alike.tally (b : Nat) : (s.tally b).Rel (Alike m r r') (s'.tally b) := by
  have hf : s'.freqAt b = s.freqAt b := h.read (fun s => s.freqAt b) fun _ _ _ _ => rfl
  have ht : s'.total = s.total := h.read State.total fun _ _ _ _ => rfl
  have hu := h.map (fun s => { s.setFreq b (s.freqAt b + 1) with total := s.total + 1 }) (fun _ _ _ _ => rfl)
    fun _ => rfl
  unfold State.tally
  rw [hf, ht] at hu ⊢
  split_ifs
  · exact ⟨rfl, h⟩
  · exact ⟨rfl, hu⟩

end

section
variable {m : Bool} {r r' : Option Nat}

theorem Alike.countLoop (k : Nat) : ∀ {s s' : State}, Alike m r r' s s' →
    (countLoop k s).Rel (Alike m r r') (countLoop k s') := by
  induction k with
  | zero => exact fun h => ⟨rfl, h⟩
  | succ k ih =>
    intro s s' h
    obtain ⟨h1, h2⟩ := h.srcRead
    unfold Machine.countLoop
    generalize s.srcRead = x, s'.srcRead = y at h1 h2 ⊢
    obtain ⟨_ | c, t⟩ := x <;> obtain ⟨_, t'⟩ := y <;> cases h1
    · exact ⟨rfl, h2⟩
    · exact (h2.tally _).bind (fun _ _ h => h) fun _ _ _ h => ih h

theorem Alike.mergeStep {s s' : State} (h : Alike m r r' s s') (k : Nat) :
    (s.mergeStep k).Rel (Alike m r r') (s'.mergeStep k) := by
  have hpq : s'.pq = s.pq := h.read State.pq fun _ _ _ _ => rfl
  unfold State.mergeStep
  rw [hpq]
  split
  · split_ifs
    · exact ⟨rfl, h⟩
    · exact ⟨rfl, h.map (fun s => s.merge (256 + k) _ _ _) (fun _ _ _ _ => rfl) fun _ => rfl⟩
  · exact ⟨rfl, h⟩

theorem Alike.mergeSteps (ks : List Nat) : ∀ {s s' : State}, Alike m r r' s s' →
    (mergeSteps ks s).Rel (Alike m r r') (mergeSteps ks s') := by
  induction ks with
  | nil => exact fun h => ⟨rfl, h⟩
  | cons k ks ih => exact fun h => (h.mergeStep k).bind (fun _ _ h => h) fun _ _ _ h => ih h

theorem mergeAll_eq (s : State) : mergeAll s = Machine.mergeSteps (List.range 255) s := by
  unfold mergeAll
  rfl

variable {s s' : State} (h : Alike m r r' s s')
include h

theorem Alike.freqPass : s.freqPass.Rel (Alike m r r') s'.freqPass := by
  have h0 := h.map (fun s => s.srcRewind.freqClear) (fun _ _ _ _ => rfl) fun _ => rfl
  have hlen : s'.src.length = s.src.length := h.read (fun s => s.src.length) fun _ _ _ _ => rfl
  show ((Machine.countLoop (s.src.length + 1) _).bind _).Rel _ ((Machine.countLoop (s'.src.length + 1) _).bind _)
  rw [hlen]
  exact (Alike.countLoop _ h0).bind (fun _ _ h => h) fun _ _ _ h =>
    ⟨rfl, h.map State.srcRewind (fun _ _ _ _ => rfl) fun _ => rfl⟩

theorem Alike.treeBuild : s.treeBuild.Rel (Alike m r r') s'.treeBuild := by
  have h0 := h.map (fun s => s.clearTables.treeInit.pqSeed) (fun _ _ _ _ => rfl) fun _ => rfl
  have h1 := Alike.mergeSteps (List.range 255) h0
  rw [← mergeAll_eq, ← mergeAll_eq] at h1
  rcases s.treeBuild_cases with ⟨u, hu, e⟩ | ⟨x, u, hu, e⟩ <;>
    rcases s'.treeBuild_cases with ⟨v, hv, e'⟩ | ⟨y, v, hv, e'⟩ <;> rw [e, e'] <;> rw [hu, hv] at h1
  · exact ⟨rfl, h1.2.map (fun s => s.treeFinish.markBuilt) (fun _ _ _ _ => rfl) fun _ => rfl⟩
  · exact h1.elim
  · exact h1.elim
  · exact ⟨h1.1, h1.2.map (fun s => { s with pq := [] }) (fun _ _ _ _ => rfl) fun _ => rfl⟩

/-! ### An archive's header -/

end

section
variable {m : Bool} {r r' : Option Nat}

theorem Alike.checkMagic (ms : List Byte) : ∀ {s s' : State}, Alike m r r' s s' →
    (checkMagic ms s).Rel (Alike m r r') (checkMagic ms s') := by
  induction ms with
  | nil => exact fun h => ⟨rfl, h⟩
  | cons b ms ih =>
    intro s s' h
    obtain ⟨h1, h2⟩ := h.srcRead
    unfold Machine.checkMagic
    generalize s.srcRead = x, s'.srcRead = y at h1 h2 ⊢
    obtain ⟨_ | c, t⟩ := x <;> obtain ⟨_, t'⟩ := y <;> cases h1
    · exact ⟨rfl, h2⟩
    · show (if c = b then Machine.checkMagic ms t else .raised .format t : Flow Unit).Rel (Alike m r r')
        (if c = b then Machine.checkMagic ms t' else .raised .format t' : Flow Unit)
      split_ifs
      · exact ih h2
      · exact ⟨rfl, h2⟩

theorem Alike.headByte {s s' : State} (h : Alike m r r' s s') : s.headByte.Rel (Alike m r r') s'.headByte := by
  obtain ⟨h1, h2⟩ := h.srcRead
  unfold State.headByte
  generalize s.srcRead = x, s'.srcRead = y at h1 h2 ⊢
  obtain ⟨_ | c, t⟩ := x <;> obtain ⟨_, t'⟩ := y <;> cases h1 <;> exact ⟨rfl, h2⟩

theorem Alike.readLen (k : Nat) : ∀ (j : Nat) (len : Word) {s s' : State}, Alike m r r' s s' →
    (readLen k j len s).Rel (Alike m r r') (readLen k j len s') := by
  induction k with
  | zero => exact fun _ _ _ _ h => ⟨rfl, h⟩
  | succ k ih => exact fun j len _ _ h => h.headByte.bind (fun _ _ h => h) fun _ _ _ h => ih _ _ h

theorem Alike.readLE16 {s s' : State} (h : Alike m r r' s s') : s.readLE16.Rel (Alike m r r') s'.readLE16 :=
  h.headByte.bind (fun _ _ h => h) fun _ _ _ h => h.headByte.bind (fun _ _ h => h) fun _ _ _ h => ⟨rfl, h⟩

theorem Alike.loadEntry {s s' : State} (h : Alike m r r' s s') (i : Nat) :
    (s.loadEntry i).Rel (Alike m r r') (s'.loadEntry i) :=
  h.readLE16.bind (fun _ _ h => h) fun lft _ _ h => h.readLE16.bind (fun _ _ h => h) fun rgt _ _ h => by
    split_ifs
    · exact ⟨rfl, h.map (fun s => s.modNode i fun d => { d with left := lft, right := rgt }) (fun _ _ _ _ => rfl)
        fun _ => rfl⟩
    · exact ⟨rfl, h⟩

theorem Alike.loadEntries (is : List Nat) : ∀ {s s' : State}, Alike m r r' s s' →
    (loadEntries is s).Rel (Alike m r r') (loadEntries is s') := by
  induction is with
  | nil => exact fun h => ⟨rfl, h⟩
  | cons i is ih => exact fun h => (h.loadEntry i).bind (fun _ _ h => h) fun _ _ _ h => ih h

theorem Alike.loadTree {s s' : State} (h : Alike m r r' s s') : s.loadTree.Rel (Alike m r r') s'.loadTree := by
  have h0 := h.map (fun s => s.clearTables.arenaReset) (fun _ _ _ _ => rfl) fun _ => rfl
  refine (h0.readLen 8 0 0).bind (fun _ _ h => h) fun len _ _ h => ?_
  exact (h.loadEntries _).bind (fun _ _ h => h) fun _ _ _ h =>
    ⟨rfl, h.map (fun s => { s with total := len }.markTree) (fun _ _ _ _ => rfl) fun _ => rfl⟩

/-! ### The output stream -/

section
variable {s s' : State} (h : Alike m r r' s s')
include h

/-- Both have begun the same bytes: they are the bits written, packed. -/
theorem Alike.begunBytes : (List.range s'.written).map s'.obuf.read = (List.range s.written).map s.obuf.read := by
  have hw : s'.written = s.written := h.read State.written fun _ _ _ _ => rfl
  have hblocks := h.blocks
  cases m with
  | true => rw [hw, hblocks.1]
  | false =>
    obtain ⟨hb, hb', hout, -⟩ := hblocks
    rw [s'.begunBytes_eq hb', s.begunBytes_eq hb, hout]

/-- Bytes sent, and the output cursor put back at (0, 0). -/
theorem Alike.send (bs : List Byte) :
    Alike m r r'
      { s with snk := s.snk ++ bs, trace := s.trace ++ bs.map .snkWrite, wcur := Cursor.zero }
      { s' with snk := s'.snk ++ bs, trace := s'.trace ++ bs.map .snkWrite, wcur := Cursor.zero } := by
  have h1 := h.map (fun t => { t with snk := t.snk ++ bs, trace := t.trace ++ bs.map .snkWrite }) (fun _ _ _ _ => rfl)
    fun _ => rfl
  refine ⟨h.room, (congrArg (fun t : State => { t with wcur := Cursor.zero }) h1.frame :), ?_⟩
  have hblocks := h.blocks
  cases m with
  | true => exact hblocks
  | false =>
    obtain ⟨hb, hb', -, hin⟩ := hblocks
    exact ⟨{ hb with wcurByte := Nat.zero_le _, wcurBit := fun _ => rfl, begun := fun h => absurd rfl h },
      { hb' with wcurByte := Nat.zero_le _, wcurBit := fun _ => rfl, begun := fun h => absurd rfl h }, rfl, hin⟩

theorem Alike.flush : s'.flush.1 = s.flush.1 ∧ Alike m r r' s.flush.2 s'.flush.2 := by
  have hw : s'.written = s.written := h.read State.written fun _ _ _ _ => rfl
  rw [s.flush_eq, s'.flush_eq, h.begunBytes]
  exact ⟨hw, h.send _⟩

theorem Alike.flushIfFull : Alike m r r' s.flushIfFull s'.flushIfFull := by
  have hfull : (s'.wcur.byte = s'.cfg.blockBytes) = (s.wcur.byte = s.cfg.blockBytes) :=
    h.read (fun s => s.wcur.byte = s.cfg.blockBytes) fun _ _ _ _ => rfl
  unfold State.flushIfFull
  simp only [hfull]
  split_ifs
  · exact h.flush.2
  · exact h

theorem Alike.writeBit (b : Bool) (hlt : BufInv s → s.wcur.byte < s.cfg.blockBytes) :
    Alike m r r' (s.writeBit b) (s'.writeBit b) := by
  have hw : s'.wcur = s.wcur := h.read State.wcur fun _ _ _ _ => rfl
  have hc : s'.cfg = s.cfg := h.read State.cfg fun _ _ _ _ => rfl
  refine ⟨h.room, ?_, ?_⟩
  · have hframe := congrArg (fun t : State => { t with obuf := (s'.writeBit b).obuf, wcur := s.wcur.next }) h.frame
    simp only [State.writeBit, hw] at hframe ⊢
    exact hframe
  · have hblocks := h.blocks
    cases m with
    | true =>
      refine ⟨?_, hblocks.2⟩
      simp only [State.writeBit, hw, hblocks.1]
    | false =>
      obtain ⟨hb, hb', hout, hin⟩ := hblocks
      exact ⟨hb.writeBit (hlt hb) b, hb'.writeBit (by rw [hw, hc]; exact hlt hb) b,
        by rw [s'.outBits_writeBit b hb'.obufWf, s.outBits_writeBit b hb.obufWf, hout], hin⟩

omit h in
/-- After Flush-if-full the block has room. -/
theorem BufInv.wcur_flushIfFull {s : State} (hb : BufInv s.flushIfFull) :
    s.flushIfFull.wcur.byte < s.flushIfFull.cfg.blockBytes := by
  unfold State.flushIfFull at hb ⊢
  split_ifs at hb ⊢ with hfull
  · exact hb.block
  · exact lt_of_le_of_ne hb.wcurByte hfull

theorem Alike.emitBit (b : Bool) : Alike m r r' (s.emitBit b) (s'.emitBit b) :=
  (h.flushIfFull.writeBit b fun hb => hb.wcur_flushIfFull).flushIfFull

end

theorem Alike.emitBits (bits : List Bool) : ∀ {s s' : State}, Alike m r r' s s' →
    Alike m r r' (bits.foldl State.emitBit s) (bits.foldl State.emitBit s') := by
  induction bits with
  | nil => exact id
  | cons b bits ih => exact fun h => ih (h.emitBit b)

theorem Alike.emitCode {s s' : State} (h : Alike m r r' s s') (i : Nat) :
    Alike m r r' (s.emitCode i) (s'.emitCode i) := by
  have hcode : s'.codeOf i = s.codeOf i := h.read (fun s => s.codeOf i) fun _ _ _ _ => rfl
  unfold State.emitCode
  rw [hcode]
  exact h.emitBits _

theorem Alike.emitLoop (k : Nat) : ∀ {s s' : State}, Alike m r r' s s' →
    Alike m r r' (emitLoop k s) (emitLoop k s') := by
  induction k with
  | zero => exact id
  | succ k ih =>
    intro s s' h
    obtain ⟨h1, h2⟩ := h.srcRead
    unfold Machine.emitLoop
    generalize s.srcRead = x, s'.srcRead = y at h1 h2 ⊢
    obtain ⟨_ | c, t⟩ := x <;> obtain ⟨_, t'⟩ := y <;> cases h1
    · exact h2
    · exact ih (h2.emitCode _)

theorem Alike.writeArchive {s s' : State} (h : Alike m r r' s s') : Alike m r r' s.writeArchive s'.writeArchive := by
  have hhead : s'.headBytes = s.headBytes := h.read State.headBytes fun _ _ _ _ => rfl
  have hlen : s'.src.length = s.src.length := h.read (fun s => s.src.length) fun _ _ _ _ => rfl
  have h0 := h.send s.headBytes
  rw [s.writeArchive_eq, s'.writeArchive_eq, hlen, State.headSent, State.headSent, hhead]
  exact (Alike.emitLoop _ h0).flush.2

theorem Alike.encode {s s' : State} (h : Alike m r r' s s') : s.encode.Rel (Alike m r r') s'.encode := by
  have hsnk : s'.snk = s.snk := h.read State.snk fun _ _ _ _ => rfl
  unfold State.encode
  refine h.freqPass.bind (fun _ _ h => h) fun _ _ _ h => h.treeBuild.bind (fun _ _ h => h) fun _ t t' h => ?_
  have h1 := (h.map (fun s => s.codeWalks.markCodes) (fun _ _ _ _ => rfl) fun _ => rfl).writeArchive
  have hsnk1 := h1.read State.snk fun _ _ _ _ => rfl
  exact ⟨by rw [hsnk1, hsnk], h1⟩

end

end Sys2Proof.Machine
end

section
/-! SUPPORT. What commands do not depend on, continued: the input stream, the decoder and whole commands. -/

namespace Sys2Proof.Machine

/-! ### The input stream -/

/-- Refill's loop reads neither the blocks nor the room. -/
theorem refillLoop_over (k : Nat) : ∀ (n : Nat) (s : State) (o b : Memory) (r : Option Nat),
    ∃ b', refillLoop k n { s with obuf := o, ibuf := b, room := r } =
        ((refillLoop k n s).1, { (refillLoop k n s).2 with obuf := o, ibuf := b', room := r }) ∧
      (b = s.ibuf → b' = (refillLoop k n s).2.ibuf) := by
  induction k with
  | zero => exact fun n s o b r => ⟨b, rfl, id⟩
  | succ k ih =>
    intro n s o b r
    unfold refillLoop
    rcases s.srcRead_cases with ⟨c, hc, e⟩ | ⟨hl, e⟩
    · rw [e, State.srcRead_some { s with obuf := o, ibuf := b, room := r } c hc]
      obtain ⟨b', e', hb'⟩ := ih (n + 1)
        { s with pos := s.pos + 1, trace := s.trace ++ [.srcRead], ibuf := s.ibuf.write n c } o (b.write n c) r
      exact ⟨b', e', fun h => hb' (by rw [h])⟩
    · rw [e, State.srcRead_none { s with obuf := o, ibuf := b, room := r } (List.getElem?_eq_none hl)]
      exact ⟨b, rfl, id⟩

theorem State.refill_over (s : State) (o b : Memory) (r : Option Nat) :
    ∃ b', ({ s with obuf := o, ibuf := b, room := r } : State).refill =
        (s.refill.1, { s.refill.2 with obuf := o, ibuf := b', room := r }) ∧
      (b = s.ibuf → b' = s.refill.2.ibuf) := by
  obtain ⟨b', e, hb'⟩ := refillLoop_over s.cfg.blockBytes 0 s o b r
  refine ⟨b', ?_, hb'⟩
  unfold State.refill
  show ((refillLoop s.cfg.blockBytes 0 { s with obuf := o, ibuf := b, room := r }).1, _) = _
  rw [e]

/-- The bits of a refilled block are read off the source. -/
theorem State.blockBits_refill (s : State) (hw : s.ibuf.wf = true) :
    s.refill.2.blockBits = (List.range (8 * s.taken s.cfg.blockBytes)).map fun j =>
      (s.src[s.pos + j / 8]?.getD 0).getLsbD (j % 8) := by
  obtain ⟨ib, tr, e, -, hread, -⟩ := s.refill_spec hw
  rw [e]
  show (List.range (8 * s.taken s.cfg.blockBytes - 0)).map (fun j => (ib.read ((0 + j) / 8)).getLsbD ((0 + j) % 8)) = _
  refine List.map_congr_left fun j hj => ?_
  rw [List.mem_range] at hj
  rw [Nat.zero_add, hread (j / 8) (by omega)]
  rfl

section
variable {m : Bool} {r r' : Option Nat} {s s' : State} (h : Alike m r r' s s')
include h

theorem Alike.refill : s'.refill.1 = s.refill.1 ∧ Alike m r r' s.refill.2 s'.refill.2 := by
  obtain ⟨b, e, hb⟩ := s.refill_over s'.obuf s'.ibuf r'
  obtain ⟨b0, e0, -⟩ := s.refill_over s.obuf s.ibuf s.room
  have hself : s.refill.2.obuf = s.obuf ∧ s.refill.2.room = s.room := by
    have e0 : s.refill = (s.refill.1, { s.refill.2 with obuf := s.obuf, ibuf := b0, room := s.room }) := e0
    exact ⟨(congrArg (fun x => x.2.obuf) e0 :), (congrArg (fun x => x.2.room) e0 :)⟩
  rw [← h.frame] at e
  have hblocks := h.blocks
  have hn : s'.refill.1 = s.refill.1 := by rw [e]
  refine ⟨hn, hself.2.trans h.room, by rw [e], ?_⟩
  cases m with
  | true =>
    refine ⟨?_, ?_⟩
    · rw [e, hself.1]
      exact hblocks.1
    · rw [e]
      exact hb hblocks.2
  | false =>
    obtain ⟨hbuf, hbuf', hout, -⟩ := hblocks
    have hbits : s'.refill.2.blockBits = s.refill.2.blockBits := by
      rw [s.blockBits_refill hbuf.ibufWf, s'.blockBits_refill hbuf'.ibufWf]
      exact h.read (fun s => (List.range (8 * s.taken s.cfg.blockBytes)).map fun j =>
        (s.src[s.pos + j / 8]?.getD 0).getLsbD (j % 8)) fun _ _ _ _ => rfl
    have hkeep : ∀ {t : State}, BufInv t → t.refill.2.outBits = t.outBits := by
      intro t ht
      obtain ⟨ib, tr, e, -⟩ := t.refill_spec ht.ibufWf
      rw [e]
      rfl
    exact ⟨hbuf.refill, hbuf'.refill, by rw [hkeep hbuf, hkeep hbuf', hout], hbits⟩

theorem Alike.readBit (hlt : BufInv s → s.rcur.byte < s.ifill) :
    s'.readBit.1 = s.readBit.1 ∧ Alike m r r' s.readBit.2 s'.readBit.2 := by
  have hcur : s'.rcur = s.rcur := h.read State.rcur fun _ _ _ _ => rfl
  have hfill : s'.ifill = s.ifill := h.read State.ifill fun _ _ _ _ => rfl
  have hframe : s'.readBit.2 = { s.readBit.2 with obuf := s'.obuf, ibuf := s'.ibuf, room := r' } := by
    unfold State.readBit
    rw [hcur]
    exact (congrArg (fun t : State => { t with rcur := s.rcur.next }) h.frame :)
  have hblocks := h.blocks
  cases m with
  | true =>
    refine ⟨?_, h.room, hframe, hblocks⟩
    unfold State.readBit
    rw [hcur, hblocks.2]
  | false =>
    obtain ⟨hb, hb', hout, hin⟩ := hblocks
    have hlt' : s'.rcur.byte < s'.ifill := by
      rw [hcur, hfill]
      exact hlt hb
    rw [s.blockBits_readBit (hlt hb), s'.blockBits_readBit hlt', List.cons.injEq] at hin
    exact ⟨hin.1, h.room, hframe, hb.readBit (hlt hb), hb'.readBit hlt', hout, hin.2⟩

theorem Alike.nextBit : s'.nextBit.1 = s.nextBit.1 ∧ Alike m r r' s.nextBit.2 s'.nextBit.2 := by
  have hused : (s'.rcur.byte = s'.ifill) = (s.rcur.byte = s.ifill) :=
    h.read (fun s => s.rcur.byte = s.ifill) fun _ _ _ _ => rfl
  obtain ⟨hn, hrefill⟩ := h.refill
  unfold State.nextBit
  simp only [hused, hn]
  split_ifs with hu h0
  · exact ⟨rfl, hrefill⟩
  · obtain ⟨hbit, hread⟩ := hrefill.readBit fun _ => by
      rw [s.refill_rcur.1, s.refill_rcur.2]
      exact Nat.pos_of_ne_zero h0
    exact ⟨congrArg some hbit, hread⟩
  · obtain ⟨hbit, hread⟩ := h.readBit fun hb => lt_of_le_of_ne hb.rcurByte hu
    exact ⟨congrArg some hbit, hread⟩

theorem Alike.child (n : Nat) (b : Bool) : s'.child n b = s.child n b :=
  h.read (fun s => s.child n b) fun _ _ _ _ => rfl

theorem Alike.decodeStart : Alike m r r' s.decodeStart s'.decodeStart := by
  have h1 := h.map State.srcRewind (fun _ _ _ _ => rfl) fun _ => rfl
  refine ⟨h.room, (congrArg (fun t : State => { t with ifill := 0, rcur := Cursor.zero }) h1.frame :), ?_⟩
  have hblocks := h.blocks
  cases m with
  | true => exact hblocks
  | false =>
    obtain ⟨hb, hb', hout, -⟩ := hblocks
    exact ⟨{ hb with ifillMax := Nat.zero_le _, rcurByte := le_rfl, rcurBit := fun _ => rfl },
      { hb' with ifillMax := Nat.zero_le _, rcurByte := le_rfl, rcurBit := fun _ => rfl }, hout, rfl⟩

end

/-! ### The decoder -/

section
variable {m : Bool} {r r' : Option Nat}

theorem Alike.payloadLoop (len k : Nat) : ∀ (count n : Nat) {s s' : State}, Alike m r r' s s' →
    (payloadLoop len k count n s').1 = (payloadLoop len k count n s).1 ∧
    Alike m r r' (payloadLoop len k count n s).2 (payloadLoop len k count n s').2 := by
  induction k with
  | zero => exact fun _ _ _ _ h => ⟨rfl, h⟩
  | succ k ih =>
    intro count n s s' h
    obtain ⟨h1, h2⟩ := h.nextBit
    unfold Machine.payloadLoop
    split_ifs
    · generalize s.nextBit = x, s'.nextBit = y at h1 h2 ⊢
      obtain ⟨_ | b, t⟩ := x <;> obtain ⟨_, t'⟩ := y <;> cases h1
      · exact ⟨rfl, h2.map State.markTrunc (fun _ _ _ _ => rfl) fun _ => rfl⟩
      · show (if t'.child n b < nSym then _ else _ : Nat × State).1 =
          (if t.child n b < nSym then _ else _ : Nat × State).1 ∧
          Alike m r r' (if t.child n b < nSym then _ else _ : Nat × State).2
            (if t'.child n b < nSym then _ else _ : Nat × State).2
        rw [h2.child]
        split_ifs
        · exact ih _ _ (h2.map (fun s => s.snkWrite _) (fun _ _ _ _ => rfl) fun _ => rfl)
        · exact ih _ _ h2
    · exact ⟨rfl, h⟩

theorem Alike.symbolLoop (k : Nat) : ∀ (n : Nat) {s s' : State}, Alike m r r' s s' →
    (symbolLoop k n s').1 = (symbolLoop k n s).1 ∧ Alike m r r' (symbolLoop k n s).2 (symbolLoop k n s').2 := by
  induction k with
  | zero => exact fun _ _ _ h => ⟨h.read State.res fun _ _ _ _ => rfl, h⟩
  | succ k ih =>
    intro n s s' h
    obtain ⟨h1, h2⟩ := h.nextBit
    unfold Machine.symbolLoop
    generalize s.nextBit = x, s'.nextBit = y at h1 h2 ⊢
    obtain ⟨_ | b, t⟩ := x <;> obtain ⟨_, t'⟩ := y <;> cases h1
    · exact ⟨rfl, h2.map State.markTrunc (fun _ _ _ _ => rfl) fun _ => rfl⟩
    · show (if t'.child n b < nSym then _ else _ : Word × State).1 =
        (if t.child n b < nSym then _ else _ : Word × State).1 ∧
        Alike m r r' (if t.child n b < nSym then _ else _ : Word × State).2
          (if t'.child n b < nSym then _ else _ : Word × State).2
      rw [h2.child]
      split_ifs
      · exact ⟨rfl, h2⟩
      · exact ih _ h2

theorem Alike.decode {s s' : State} (h : Alike m r r' s s') : s.decode.Rel (Alike m r r') s'.decode := by
  have hmagic : s'.cfg.magic = s.cfg.magic := h.read (fun s => s.cfg.magic) fun _ _ _ _ => rfl
  show ((Machine.checkMagic s.cfg.magic.toList s.decodeStart).bind _).Rel _
    ((Machine.checkMagic s'.cfg.magic.toList s'.decodeStart).bind _)
  rw [hmagic]
  refine (Alike.checkMagic _ h.decodeStart).bind (fun _ _ h => h) fun _ _ _ h =>
    h.loadTree.bind (fun _ _ h => h) fun _ t t' h => ?_
  have htotal : t'.total = t.total := h.read State.total fun _ _ _ _ => rfl
  have hrounds : t'.rounds = t.rounds := h.read State.rounds fun _ _ _ _ => rfl
  obtain ⟨h1, h2⟩ := Alike.payloadLoop t.total.toNat t.rounds 0 root h
  rw [htotal, hrounds]
  exact ⟨by rw [h1], h2⟩

end

/-! ### How commands end -/

section
variable {m : Bool} {r r' : Option Nat} {s s' : State}

theorem Alike.res (h : Alike m r r' s s') (v : Word) : Alike m r r' { s with res := v } { s' with res := v } :=
  h.map (fun s => { s with res := v }) (fun _ _ _ _ => rfl) fun _ => rfl

theorem Alike.raise (h : Alike m r r' s s') (e : Err) : Alike m r r' (s.raise e) (s'.raise e) :=
  h.map (fun s => s.raise e) (fun _ _ _ _ => rfl) fun _ => rfl

theorem Alike.close {x y : Flow Word} (h : x.Rel (Alike m r r') y) : Alike m r r' x.close y.close := by
  cases x <;> cases y
  · obtain ⟨rfl, h⟩ := h
    exact h.res _
  · exact h.elim
  · exact h.elim
  · obtain ⟨rfl, h⟩ := h
    exact h.raise _

theorem Alike.closeUnit {x y : Flow Unit} (h : x.Rel (Alike m r r') y) : Alike m r r' x.closeUnit y.closeUnit := by
  cases x <;> cases y
  · exact h.2
  · exact h.elim
  · exact h.elim
  · obtain ⟨rfl, h⟩ := h
    exact h.raise _

end

/-- Where SPUT ends if the sink accepts every byte. -/
def State.sputEnd (sym : Nat) (s : State) : State :=
  if sym > maxSymbol then s.raise .range
  else if s.status.codes then { s.emitCode sym with res := (s.lenAt sym).setWidth 64 }
  else s.raise .seq

/-- Where a command that writes the sink ends if the sink accepts every byte; other commands are not asked. -/
def State.sinkEnd (i : Instr) (s : State) : State :=
  match i with
  | .bflush => { s.flush.2 with res := resOfNat s.flush.1 }
  | .sput sym => s.sputEnd sym
  | .encode => s.encode.close
  | .decode => s.decode.close
  | _ => s

/-- A command that sends nothing is not held. -/
theorem State.settle_of_quiet (i : Instr) {s t : State} (hsnk : t.snk = s.snk) (hroom : t.room = s.room) :
    s.settle i t = t := by
  cases h : s.room with
  | none => exact State.settle_none i s t h
  | some r =>
    rw [State.settle_room i s t r h (by rw [hsnk]; omega), hsnk, Nat.sub_self, Nat.sub_zero, ← h, ← hroom, ← hsnk]

/-- Every command that writes the sink ends where `settle` takes its end. -/
theorem exec_sink {i : Instr} (hi : writesSink i = true) (s : State) :
    exec i s = .next (s.settle i (s.sinkEnd i)) := by
  cases i <;> simp only [writesSink, Bool.false_eq_true] at hi
  case sput sym =>
    have hquiet (e : Err) : s.settle (.sput sym) (s.raise e) = s.raise e := State.settle_of_quiet _ rfl rfl
    show inRange maxSymbol sym s (needs s.status.codes s _) = .next (s.settle _ (s.sputEnd sym))
    unfold inRange State.sputEnd
    split_ifs with hr hc
    · rw [hquiet]
    · rw [hc]
      rfl
    · rw [Bool.eq_false_iff.mpr hc, hquiet]
      rfl
  all_goals rfl

theorem Alike.sputEnd {m : Bool} {r r' : Option Nat} {s s' : State} (h : Alike m r r' s s') (sym : Nat) :
    Alike m r r' (s.sputEnd sym) (s'.sputEnd sym) := by
  have hc : s'.status = s.status := h.read State.status fun _ _ _ _ => rfl
  have hl : s'.lenAt sym = s.lenAt sym := h.read (fun s => s.lenAt sym) fun _ _ _ _ => rfl
  unfold State.sputEnd
  rw [hc, hl]
  split_ifs
  · exact h.raise _
  · exact (h.emitCode sym).res _
  · exact h.raise _

theorem Alike.sinkEnd {m : Bool} {r r' : Option Nat} {s s' : State} (h : Alike m r r' s s') (i : Instr) :
    Alike m r r' (s.sinkEnd i) (s'.sinkEnd i) := by
  cases i
  case bflush =>
    obtain ⟨hn, hf⟩ := h.flush
    show Alike m r r' { s.flush.2 with res := resOfNat s.flush.1 } { s'.flush.2 with res := resOfNat s'.flush.1 }
    rw [hn]
    exact hf.res _
  case sput sym => exact h.sputEnd sym
  case encode => exact Alike.close h.encode
  case decode => exact Alike.close h.decode
  all_goals exact h

end Sys2Proof.Machine
end

section
/-! SUPPORT. Sinks that stall (20_memory.md R83, 70_reset_and_hazards.md R386): a command with room for too few bytes is held
on the way to the end it has with a sink that accepts every byte, and goes on to that end. -/

namespace Sys2Proof.Machine

section
variable {i : Instr} {s u : State} (hi : writesSink i = true) (e : exec i { s with room := none } = .next u)
include hi e

/-- With room for `r` bytes the command is on its way to the same end. -/
theorem exec_room (r : Nat) :
    exec i { s with room := some r } = .next (State.settle i { s with room := some r } { u with room := some r }) := by
  rw [exec_sink hi, State.settle_none _ _ _ rfl] at e
  have h0 : Alike true none (some r) { s with room := none } { s with room := some r } := ⟨rfl, rfl, rfl, rfl⟩
  have h := h0.sinkEnd i
  rw [Host.Outcome.next.inj e] at h
  have hframe := h.frame
  rw [h.blocks.1, h.blocks.2] at hframe
  rw [exec_sink hi, hframe]

theorem exec_idle (hr : s.running = none) : u.running = none := by
  rcases exec_ends i { s with room := none } (by rintro rfl; cases hi) (by rintro rfl; cases hi) u e with h | h
  · exact h.running.trans hr
  · obtain ⟨_, _, _, hroom, -⟩ := h
    cases hroom

/-- Everything the command can do with room for `r` bytes. -/
theorem exec_room_cases (r : Nat) :
    (u.snk.length ≤ s.snk.length + r ∧
      exec i { s with room := some r } = .next { u with room := some (r - (u.snk.length - s.snk.length)) }) ∨
    (s.snk.length + r < u.snk.length ∧ ∃ es b rest, u.trace = s.trace ++ es ++ .snkWrite b :: rest ∧
      u.snk = s.snk ++ sentBytes es ++ b :: sentBytes rest ∧ (sentBytes es).length = r ∧
      exec i { s with room := some r } = .next { s with
        pos := posAfter s.src.length s.pos es, snk := s.snk ++ sentBytes es, room := some 0, trace := s.trace ++ es
        running := some
          { instr := i, pos := s.pos, snkLen := s.snk.length, resAfter := u.res, statusAfter := u.status } }) := by
  have hport : Ported { s with room := some r } { u with room := some r } := exec_ported i { s with room := none } u e
  rw [exec_room hi e r]
  rcases le_or_gt u.snk.length (s.snk.length + r) with hle | hlt
  · refine .inl ⟨hle, ?_⟩
    rw [State.settle_room i { s with room := some r } { u with room := some r } r rfl
      (by show u.snk.length - s.snk.length ≤ r; omega)]
  · have hn : r < u.snk.length - s.snk.length := by omega
    obtain ⟨es, b, rest, htrace, hlen, hstall⟩ := State.stall_spec i rfl hport hn
    obtain ⟨evs, hevs, -, -, hsnk⟩ := hport
    have htrace : u.trace = s.trace ++ es ++ .snkWrite b :: rest := htrace
    have hevs : u.trace = s.trace ++ evs := hevs
    rw [hevs, List.append_assoc, List.append_cancel_left_eq] at htrace
    refine .inr ⟨hlt, es, b, rest, by rw [hevs, htrace, List.append_assoc], ?_, hlen, ?_⟩
    · rw [htrace, sentBytes_append, ← List.append_assoc] at hsnk
      exact hsnk
    · rw [State.settle_stall i { s with room := some r } { u with room := some r } r rfl hn, hstall]

end

/-- Settles O14: with too little room the command is held where `stall` says, and with enough it ends as with a sink that
accepts every byte. -/
theorem sinkHoldsCommand : Obligations.SinkHoldsCommand := by
  intro s u i r hi hr e
  rcases exec_room_cases hi e r with ⟨hle, h⟩ | ⟨hlt, es, b, rest, htrace, hsnk, hlen, h⟩
  · exact ⟨fun hlt => by omega, fun _ => h⟩
  · refine ⟨fun _ => ⟨_, h, rfl, rfl, ?_, ⟨es, b, rest, htrace, rfl, rfl, rfl⟩, rfl⟩, fun hle => by omega⟩
    rw [hsnk, ← hlen, ← List.length_append, List.take_left]

/-! ### Held commands -/

theorem Held.withHost {i : Instr} {s u h : State} (hh : Held i s u h) (p : List HostAction) (r : List Word) (d : Nat)
    (b : Bool) : Held i s u (h.withHost p r d b) where
  running := hh.running
  room := hh.room
  unsent := hh.unsent
  sent := hh.sent
  before := hh.before
  accesses := hh.accesses
  frame := (congrArg (State.withHost p r d b) hh.frame :)

/-- A command that stalls is held, whatever the host's fields and DROP. -/
theorem held_of_stall {i : Instr} {s u : State} {es rest : List PortEvent} {b : Byte}
    (htrace : u.trace = s.trace ++ es ++ .snkWrite b :: rest)
    (hsnk : u.snk = s.snk ++ sentBytes es ++ b :: sentBytes rest) (drop : Bool) :
    Held i s u { s with
      pos := posAfter s.src.length s.pos es, snk := s.snk ++ sentBytes es, room := some 0, trace := s.trace ++ es
      running := some
        { instr := i, pos := s.pos, snkLen := s.snk.length, resAfter := u.res
          statusAfter := { u.status with drop := drop } } } where
  running := ⟨drop, rfl⟩
  room := rfl
  unsent := by
    rw [hsnk]
    simp
  sent := by rw [hsnk, List.take_left]
  before := List.prefix_append _ _
  accesses := ⟨es, b, rest, htrace, rfl, rfl, rfl⟩
  frame := rfl

section
variable {i : Instr} {s u h : State} (hh : Held i s u h)
include hh

theorem Held.busy : h.busy = true := by
  obtain ⟨drop, hr⟩ := hh.running
  rw [State.busy, hr]
  rfl

theorem Held.host : h.src = s.src ∧ h.cfg = s.cfg := by
  rw [hh.frame]
  exact ⟨rfl, rfl⟩

/-- The accesses still to be made lead from where the command is held to its end. -/
theorem Held.ported (hp : Ported s u) : Ported h u := by
  obtain ⟨es, b, rest, htrace, htrace', hpos, hsnk⟩ := hh.accesses
  obtain ⟨evs, hevs, hsrc, hpos', hsnk'⟩ := hp
  rw [hevs, List.append_assoc, List.append_cancel_left_eq] at htrace
  rw [htrace] at hevs hpos' hsnk'
  refine ⟨.snkWrite b :: rest, ?_, hsrc.trans hh.host.1.symm, ?_, ?_⟩
  · rw [hevs, htrace', List.append_assoc]
  · rw [hpos', posAfter_append, hpos, hh.host.1]
  · rw [hsnk', sentBytes_append, hsnk, List.append_assoc]

/-- Room given to a held command runs it again from where it was issued, with the room it has used up on top. -/
theorem Held.setRoom (hr : s.running = none) (ht : s.trace = []) (rest : List HostAction) (room : Option Nat) :
    Machine.setRoom room { h with pending := rest } =
      exec i { s.withHost rest h.reads h.draws h.status.drop with
        room := room.map (· + (h.snk.length - s.snk.length)) } := by
  obtain ⟨drop, hrun⟩ := hh.running
  have hsnk : h.snk.take s.snk.length = s.snk := (List.prefix_iff_eq_take.mp hh.before).symm
  have hstate : ({ h with running := none, pos := s.pos, snk := s.snk, trace := [], room := none } : State) =
      { s.withHost h.pending h.reads h.draws h.status.drop with room := none } := by
    rw [hh.frame, State.withHost, ← hr, ← ht]
  show (match h.running with
    | none => _
    | some r => exec r.instr (unstalled r room { h with pending := rest })) = _
  rw [hrun]
  refine congrArg (exec i) ?_
  unfold unstalled
  dsimp only
  rw [hsnk]
  exact congrArg (fun t : State =>
    { t with pending := rest, room := room.map (· + (h.snk.length - s.snk.length)) }) hstate

end

/-- A command with a sink that accepts every byte does the same whatever the host's fields and DROP hold. -/
theorem exec_withHost_none {i : Instr} {s u : State} (hi : writesSink i = true)
    (e : exec i { s with room := none } = .next u) (p : List HostAction) (r : List Word) (d : Nat) (b : Bool) :
    exec i { s.withHost p r d b with room := none } = .next (u.withHost p r d b) :=
  exec_withHost p r d b i { s with room := none } u hi rfl e

/-- Settles O16: a held command keeps what it was issued with, so room given later runs it to the end it would have had, or
until the sink is full again. -/
theorem heldCommandResumes : Obligations.HeldCommandResumes := by
  intro i s u hi hr ht e
  refine ⟨fun r t et hb => ?_, fun h hh => ⟨fun t h1 h2 h3 h4 et => ?_, fun rest hp => ?_, fun k rest hp => ?_⟩⟩
  · rcases exec_room_cases hi e r with ⟨-, h⟩ | ⟨-, es, b, rest, htrace, hsnk, -, h⟩
    · rw [h] at et
      cases et
      rw [State.busy, exec_idle hi e hr] at hb
      cases hb
    · rw [h] at et
      cases et
      exact held_of_stall htrace hsnk u.status.drop
  · obtain ⟨-, hframe, -⟩ := heldCommandStaysHeld h t hh.busy h1 h2 h3 h4 et
    rw [hframe]
    exact hh.withHost t.pending t.reads t.draws t.status.drop
  · rw [step_eq h _ rest hp]
    exact (hh.setRoom hr ht rest none).trans (exec_withHost_none hi e _ _ _ _)
  · have hle := hh.before.length_le
    have hstep : step h = exec i { s.withHost rest h.reads h.draws h.status.drop with
        room := some (k + (h.snk.length - s.snk.length)) } :=
      (step_eq h _ rest hp).trans (hh.setRoom hr ht rest (some k))
    rw [hstep]
    rcases exec_room_cases hi (exec_withHost_none hi e rest h.reads h.draws h.status.drop)
      (k + (h.snk.length - s.snk.length)) with ⟨hfit, hex⟩ | ⟨hfull, es, b, rest', htrace, hsnk, hlen, hex⟩
    · have hfit : u.snk.length ≤ s.snk.length + (k + (h.snk.length - s.snk.length)) := hfit
      refine ⟨fun _ => hex.trans ?_, fun hlt => by omega⟩
      have hroom : k + (h.snk.length - s.snk.length) - (u.snk.length - s.snk.length) =
          h.snk.length + k - u.snk.length ∨ u.snk.length < h.snk.length := by omega
      have hunsent := hh.unsent
      show Host.Outcome.next { u.withHost rest h.reads h.draws h.status.drop with
        room := some (k + (h.snk.length - s.snk.length) - (u.snk.length - s.snk.length)) } = _
      rw [hroom.resolve_right (by omega)]
      rfl
    · have hfull : s.snk.length + (k + (h.snk.length - s.snk.length)) < u.snk.length := hfull
      refine ⟨fun hle => by omega, fun _ => ⟨_, hex, ?_, ?_, rfl, rfl, rfl, rfl⟩⟩
      · exact (held_of_stall (s := s) (u := u) htrace hsnk h.status.drop).withHost rest h.reads h.draws h.status.drop
      · show (s.snk ++ sentBytes es).length = _
        rw [List.length_append, hlen]
        omega

/-! ### Reset inside a command -/

theorem issue_ported {w : BitVec 32} {s u : State} (ht : s.trace = []) (e : issue w s = .next u) : Ported s u := by
  have hs : ({ s with trace := [] } : State) = s := by rw [← ht]
  unfold issue at e
  split_ifs at e
  · cases e
    exact .refl s
  · rw [hs] at e
    split at e
    · cases e
      exact .silent rfl rfl rfl rfl
    · exact exec_ported _ _ _ e

/-- Reset after a run that made no port access only resets. -/
theorem abortAfter_silent (k : Nat) {s t : State} (h : t.trace = s.trace) :
    abortAfter k s (.next t) = .next { s.resetCore with trace := [] } := by
  have hnil : (t.trace.drop s.trace.length).take k = [] := by rw [h, List.drop_length, List.take_nil]
  show Host.Outcome.next (resetInput (s.replay ((t.trace.drop s.trace.length).take k))) = _
  rw [hnil]
  rfl

theorem step_commandReset {s : State} {v : Word} {k : Nat} {rest : List HostAction}
    (hp : s.pending = .commandReset v k :: rest) :
    step s = abortAfter k { s with pending := rest, trace := [] } (cmdWrite v { s with pending := rest, trace := [] }) :=
  step_eq s _ rest hp

theorem step_roomReset {s : State} {room : Option Nat} {k : Nat} {rest : List HostAction}
    (hp : s.pending = .roomReset room k :: rest) :
    step s = abortAfter k { s with pending := rest, room := room } (setRoom room { s with pending := rest }) :=
  step_eq s _ rest hp

/-- Reset inside a run on ports that have not been accessed yet. -/
theorem abortAfter_issued (k : Nat) {s u : State} (ht : s.trace = []) (hp : Ported s u) :
    ∃ t, abortAfter k s (.next u) = .next t ∧ t.snk = s.snk ++ sentBytes (u.trace.take k) ∧
      t.pos = posAfter s.src.length s.pos (u.trace.take k) ∧
      (u.trace.length ≤ k → t.snk = u.snk ∧ t.pos = u.pos) ∧
      t = { State.reset with
        cfg := s.cfg, src := s.src, pos := t.pos, snk := t.snk
        room := s.room.map fun r => r - (sentBytes (u.trace.take k)).length
        pending := s.pending, reads := s.reads, draws := s.draws } := by
  obtain ⟨t, e, hsnk, hpos, hframe⟩ := abortAfter_next k s u
  obtain ⟨evs, hevs, -, hpos', hsnk'⟩ := hp
  rw [ht, List.nil_append] at hevs
  rw [ht, List.length_nil, List.drop_zero] at hsnk hpos hframe
  refine ⟨t, e, hsnk, hpos, fun hk => ?_, hframe⟩
  rw [List.take_of_length_le hk] at hsnk hpos
  rw [hsnk, hpos, hevs, ← hsnk', ← hpos']
  exact ⟨rfl, rfl⟩

/-- The accesses made of those left when the sink is given room. -/
def madeWith (left : List PortEvent) : Option Nat → List PortEvent
  | none => left
  | some r => untilFull r left

/-- With room given, a held command makes its next accesses until the sink is full again. -/
theorem Held.setRoom_next {i : Instr} {s u h : State} (hi : writesSink i = true) (hr : s.running = none)
    (ht : s.trace = []) (e : exec i { s with room := none } = .next u) (hh : Held i s u h) {left : List PortEvent}
    (hleft : u.trace = h.trace ++ left) (hsent : u.snk = h.snk ++ sentBytes left) (rest : List HostAction)
    (room : Option Nat) :
    ∃ t, Machine.setRoom room { h with pending := rest } = .next t ∧ t.trace = h.trace ++ madeWith left room := by
  rw [hh.setRoom hr ht rest room]
  have hnone := exec_withHost_none hi e rest h.reads h.draws h.status.drop
  cases room with
  | none => exact ⟨_, hnone, hleft⟩
  | some r =>
    obtain ⟨es, -, -, -, htrace, -, hsnk⟩ := hh.accesses
    rw [ht, List.nil_append] at htrace
    have hlen : h.snk.length - s.snk.length = (sentBytes es).length := by
      rw [hsnk, List.length_append, Nat.add_sub_cancel_left]
    rcases exec_room_cases hi hnone (r + (h.snk.length - s.snk.length)) with
      ⟨hfit, hex⟩ | ⟨-, es', b, rest', htrace', -, hlen', hex⟩
    · refine ⟨_, hex, ?_⟩
      have hfit : u.snk.length ≤ s.snk.length + (r + (h.snk.length - s.snk.length)) := hfit
      have hle := hh.before.length_le
      rw [hsent, List.length_append] at hfit
      show u.trace = h.trace ++ untilFull r left
      rw [untilFull_all left r (by omega)]
      exact hleft
    · refine ⟨_, hex, ?_⟩
      have htrace' : u.trace = s.trace ++ es' ++ .snkWrite b :: rest' := htrace'
      have hfull : untilFull (r + (h.snk.length - s.snk.length)) u.trace = es' := by
        have h0 := untilFull_append es' (.snkWrite b :: rest') 0
        rw [htrace', ht, List.nil_append, ← hlen']
        simpa [untilFull] using h0
      rw [hleft, htrace, hlen, Nat.add_comm, untilFull_append] at hfull
      show s.trace ++ es' = h.trace ++ untilFull r left
      rw [ht, List.nil_append, htrace, hfull]

/-- Settles O18: `abortAfter` replays the first `k` of the accesses that the run would make, which for a held command are
those left until the sink is full again. -/
theorem resetAbortsCommand : Obligations.ResetAbortsCommand := by
  refine ⟨fun s v k rest hp => ⟨fun hb u e => ?_, fun hb => ?_⟩, fun s room k rest hp hb => ?_,
    fun i s u h hi hr ht e hh room k rest hp => ?_⟩
  · obtain ⟨t, et, hsnk, hpos, hall, hframe⟩ := abortAfter_issued k rfl (issue_ported rfl e)
    refine ⟨t, ?_, hsnk, hpos, hall, by rw [hframe]⟩
    rw [step_commandReset hp, cmdWrite_idle v (s := { s with pending := rest, trace := [] }) hb, e]
    exact et
  · refine ⟨s.resetCore, rfl, ?_⟩
    rw [step_commandReset hp, cmdWrite_busy v (s := { s with pending := rest, trace := [] }) hb]
    exact abortAfter_silent k rfl
  · refine ⟨_, rfl, ?_⟩
    rw [step_roomReset hp, setRoom_idle room (s := { s with pending := rest }) (running_of_idle hb)]
    exact abortAfter_silent k rfl
  · obtain ⟨left, hleft, -, hpos, hsnk⟩ := hh.ported (exec_ported i { s with room := none } u e)
    obtain ⟨t, et, htrace⟩ := hh.setRoom_next hi hr ht e hleft hsnk rest room
    obtain ⟨t', et', hsnk', hpos', hframe⟩ := abortAfter_next k { h with pending := rest, room := room } t
    have hdrop : t.trace.drop h.trace.length = madeWith left room := by rw [htrace, List.drop_left]
    obtain ⟨hsrc, hcfg⟩ := hh.host
    change t'.snk = h.snk ++ sentBytes ((t.trace.drop h.trace.length).take k) at hsnk'
    change t'.pos = posAfter h.src.length h.pos ((t.trace.drop h.trace.length).take k) at hpos'
    rw [hdrop] at hsnk' hpos'
    rw [hsrc] at hpos hpos'
    refine ⟨left, (madeWith left room).take k, t', hleft, by cases room <;> rfl, ?_, hsnk', hpos', fun hroom hk => ?_, ?_⟩
    · rw [step_roomReset hp, et]
      exact et'
    · rw [hroom] at hsnk' hpos'
      rw [hsnk', hpos', madeWith, List.take_of_length_le hk, hsnk, hpos]
      exact ⟨rfl, rfl⟩
    · rw [← hdrop, ← hsrc, ← hcfg, hframe]

end Sys2Proof.Machine
end

section
/-! SUPPORT. Bits that cannot be observed (10_state.md R55, R57): states whose blocks hold the same bits written and unread
give, under every command, next states of which the same holds. -/

namespace Sys2Proof.Machine

/-- The two states differ in block bytes alone, and not in the bits written and unread. -/
def SameBits (s s' : State) : Prop :=
  s' = { s with obuf := s'.obuf, ibuf := s'.ibuf } ∧ s'.outBits = s.outBits ∧ s'.blockBits = s.blockBits

/-- If the first answer is a next state, so is the second, and the two differ in bits that cannot be observed. -/
def SameOut (o o' : Out) : Prop := ∀ t, o = .next t → ∃ t', o' = .next t' ∧ SameBits t t'

theorem SameBits.next {t t' : State} (h : SameBits t t') : SameOut (.next t) (.next t') := by
  intro u e
  cases e
  exact ⟨t', rfl, h⟩

/-- A command that is held, in terms of the accesses it has made. -/
theorem State.stall_eq (i : Instr) (s u : State) :
    State.stall i s u = { s with
      pos := posAfter s.src.length s.pos (untilFull (s.room.getD 0) (u.trace.drop s.trace.length))
      snk := s.snk ++ sentBytes (untilFull (s.room.getD 0) (u.trace.drop s.trace.length))
      room := s.room.map fun r => r - (sentBytes (untilFull (s.room.getD 0) (u.trace.drop s.trace.length))).length
      trace := s.trace ++ untilFull (s.room.getD 0) (u.trace.drop s.trace.length)
      running := some
        { instr := i, pos := s.pos, snkLen := s.snk.length, resAfter := u.res, statusAfter := u.status } } := by
  unfold State.stall
  dsimp only
  rw [s.replay_frame, s.replay_pos, s.replay_snk, s.replay_room]

section
variable {r : Option Nat} {s s' : State} (h : Alike false r r s s')
include h

theorem Alike.sameBits : SameBits s s' := by
  refine ⟨?_, h.blocks.2.2.1, h.blocks.2.2.2⟩
  have hframe := h.frame
  rw [← h.room] at hframe
  exact hframe

theorem Alike.sameOut : SameOut (.next s) (.next s') := h.sameBits.next

theorem Alike.settle {u u' : State} (i : Instr) (hu : Alike false r r u u') :
    SameBits (s.settle i u) (s'.settle i u') := by
  have hroom' : s'.room = s.room := by rw [h.frame, h.room]
  have hlen : u'.snk.length - s'.snk.length = u.snk.length - s.snk.length := by
    rw [hu.read State.snk fun _ _ _ _ => rfl, h.read State.snk fun _ _ _ _ => rfl]
  obtain ⟨hframe, hout, hin⟩ := hu.sameBits
  cases hr : s.room with
  | none =>
    rw [State.settle_none i s u hr, State.settle_none i s' u' (hroom'.trans hr)]
    exact ⟨hframe, hout, hin⟩
  | some n =>
    rcases le_or_gt (u.snk.length - s.snk.length) n with hle | hlt
    · rw [State.settle_room i s u n hr hle, State.settle_room i s' u' n (hroom'.trans hr) (hlen ▸ hle), hlen]
      exact ⟨congrArg (fun t : State => { t with room := some (n - (u.snk.length - s.snk.length)) }) hframe, hout, hin⟩
    · rw [State.settle_stall i s u n hr hlt, State.settle_stall i s' u' n (hroom'.trans hr) (hlen ▸ hlt)]
      have htrace : u'.trace = u.trace := hu.read State.trace fun _ _ _ _ => rfl
      have hres : u'.res = u.res := hu.read State.res fun _ _ _ _ => rfl
      have hstatus : u'.status = u.status := hu.read State.status fun _ _ _ _ => rfl
      obtain ⟨hs, hsout, hsin⟩ := h.sameBits
      rw [s.stall_eq, s'.stall_eq, htrace, hres, hstatus]
      refine ⟨?_, hsout, hsin⟩
      rw [hs]

theorem Alike.inRange {limit imm : Nat} {go go' : Out} (hgo : SameOut go go') :
    SameOut (inRange limit imm s go) (inRange limit imm s' go') := by
  unfold Machine.inRange
  split_ifs
  · exact (h.raise _).sameOut
  · exact hgo

theorem Alike.inWords {w : Nat} {go go' : Out} (hgo : SameOut go go') :
    SameOut (inWords w s go) (inWords w s' go') := by
  unfold Machine.inWords
  split_ifs
  · exact (h.raise _).sameOut
  · exact hgo

theorem Alike.needs {flag : Bool} {go go' : Out} (hgo : SameOut go go') :
    SameOut (needs flag s go) (needs flag s' go') := by
  cases flag
  · exact (h.raise _).sameOut
  · exact hgo

theorem Alike.bput (bit : Nat) : (s.bput bit).Rel (Alike false r r) (s'.bput bit) := by
  have hfull : (s'.wcur.byte = s'.cfg.blockBytes) = (s.wcur.byte = s.cfg.blockBytes) :=
    h.read (fun s => s.wcur.byte = s.cfg.blockBytes) fun _ _ _ _ => rfl
  unfold State.bput
  simp only [hfull]
  split_ifs with hf
  · exact ⟨rfl, h⟩
  · exact ⟨rfl, h.writeBit _ fun hb => lt_of_le_of_ne hb.wcurByte hf⟩

theorem Alike.bget : s.bget.Rel (Alike false r r) s'.bget := by
  have hused : (s'.rcur.byte = s'.ifill) = (s.rcur.byte = s.ifill) :=
    h.read (fun s => s.rcur.byte = s.ifill) fun _ _ _ _ => rfl
  unfold State.bget
  simp only [hused]
  split_ifs with hu
  · exact ⟨rfl, h⟩
  · obtain ⟨hbit, hread⟩ := h.readBit fun hb => lt_of_le_of_ne hb.rcurByte hu
    exact ⟨by rw [hbit], hread⟩

/-- What a command writes to RES is read off neither block. -/
theorem Alike.resOf (g : State → Word)
    (hg : ∀ s o b r, g { s with obuf := o, ibuf := b, room := r } = g s) :
    SameOut (.next { s with res := g s }) (.next { s' with res := g s' }) := by
  rw [h.read g hg]
  exact (h.res _).sameOut

theorem Alike.cgen : SameOut (execCgen s) (execCgen s') := by
  have hnode : s'.node = s.node := h.read State.node fun _ _ _ _ => rfl
  have hbuilt : s'.status.built = s.status.built := h.read (fun s => s.status.built) fun _ _ _ _ => rfl
  unfold execCgen
  rw [hnode, hbuilt]
  refine h.needs ?_
  split_ifs
  · exact (h.map (fun s => s.codeWalks.markCodes) (fun _ _ _ _ => rfl) fun _ => rfl).resOf
      (fun s => BitVec.ofNat 64 s.maxLen) fun _ _ _ _ => rfl
  · intro t e
    cases e

theorem Alike.sget : SameOut (execSget s) (execSget s') := by
  have hrounds : s'.rounds = s.rounds := h.read State.rounds fun _ _ _ _ => rfl
  have htree : s'.status.tree = s.status.tree := h.read (fun s => s.status.tree) fun _ _ _ _ => rfl
  obtain ⟨h1, h2⟩ := Alike.symbolLoop s.rounds root h
  unfold execSget
  rw [hrounds, htree, h1]
  exact h.needs (h2.res _).sameOut

theorem Alike.exec (i : Instr) : SameOut (exec i s) (Machine.exec i s') := by
  have sink (hi : writesSink i = true) : SameOut (Machine.exec i s) (Machine.exec i s') := by
    rw [exec_sink hi, exec_sink hi]
    exact (h.settle i (h.sinkEnd i)).next
  cases i with
  | nop => exact h.sameOut
  | srst =>
    have heq : s'.resetCore = s.resetCore := by rw [h.sameBits.1]; rfl
    show SameOut (.next s.resetCore) (.next s'.resetCore)
    rw [heq]
    exact SameBits.next ⟨rfl, rfl, rfl⟩
  | eclr => exact (h.map State.clearError (fun _ _ _ _ => rfl) fun _ => rfl).sameOut
  | fclr => exact (h.map State.freqClear (fun _ _ _ _ => rfl) fun _ => rfl).sameOut
  | fadd b => exact h.inRange (Alike.closeUnit (h.tally b)).sameOut
  | fcnt =>
    refine (Alike.close (h.freqPass.bind (fun _ _ h => h) fun _ _ _ h => ?_)).sameOut
    exact ⟨(h.read State.total fun _ _ _ _ => rfl).symm, h⟩
  | frd sym => exact h.inRange (h.resOf (fun s => s.freqAt sym) fun _ _ _ _ => rfl)
  | fwr sym =>
    exact h.inRange (h.map (fun s => s.setFreq sym s.arg) (fun _ _ _ _ => rfl) fun _ => rfl).sameOut
  | trd => exact h.resOf State.total fun _ _ _ _ => rfl
  | tbld =>
    refine (Alike.close (h.treeBuild.bind (fun _ _ h => h) fun _ _ _ h => ?_)).sameOut
    exact ⟨(h.read (fun s => (s.nodeAt root).weight) fun _ _ _ _ => rfl).symm, h⟩
  | nrd f n => exact h.inRange (h.resOf (fun s => (s.nodeAt n).field f) fun _ _ _ _ => rfl)
  | cgen => exact h.cgen
  | clen sym => exact h.inRange (h.resOf (fun s => (s.lenAt sym).setWidth 64) fun _ _ _ _ => rfl)
  | crd w sym => exact h.inWords (h.inRange (h.resOf (fun s => codeWord (s.codeAt sym) w) fun _ _ _ _ => rfl))
  | sput sym => exact sink rfl
  | bput bit => exact h.inRange (Alike.closeUnit (h.bput bit)).sameOut
  | bget => exact (Alike.close h.bget).sameOut
  | bflush => exact sink rfl
  | bfill =>
    obtain ⟨hn, hrefill⟩ := h.refill
    show SameOut (.next { s.refill.2 with res := resOfNat s.refill.1 })
      (.next { s'.refill.2 with res := resOfNat s'.refill.1 })
    rw [hn]
    exact (hrefill.res _).sameOut
  | wcrd => exact h.resOf (fun s => resOfNat s.wcur.bits) fun _ _ _ _ => rfl
  | rcrd => exact h.resOf (fun s => resOfNat s.rcur.bits) fun _ _ _ _ => rfl
  | encode => exact sink rfl
  | decode => exact sink rfl
  | sget => exact h.sget

end

/-- Settles O60: no command reads a block byte but through the bits written and the bits unread. -/
theorem unspecifiedBlockBytesInvisible : Obligations.UnspecifiedBlockBytesInvisible := by
  intro i s t o b hb hb' hout hin e
  have h : Alike false s.room s.room s { s with obuf := o, ibuf := b } := ⟨rfl, rfl, hb, hb', hout, hin⟩
  obtain ⟨t', e', hframe, hout', hin'⟩ := h.exec i t e
  rw [hframe] at e' hout' hin'
  exact ⟨t'.obuf, t'.ibuf, e', hout', hin'⟩

end Sys2Proof.Machine
end

section
/-! SUPPORT. ENCODE in full (45_encoder.md R250 to R258): the tables it leaves, the archive it appends, and the port accesses
it makes. -/

namespace Sys2Proof.Machine

/-! ### The two passes over the source -/

/-- Between `s` and `t` some bytes were sent from OBUF, and nothing else was done. -/
def Sends (s t : State) : Prop :=
  ∃ bs, t = { s with obuf := t.obuf, wcur := t.wcur, snk := s.snk ++ bs, trace := s.trace ++ bs.map .snkWrite }

theorem Sends.refl (s : State) : Sends s s := ⟨[], by simp⟩

theorem Sends.trans {s t u : State} (h : Sends s t) (h' : Sends t u) : Sends s u := by
  obtain ⟨bs, e⟩ := h
  obtain ⟨bs', e'⟩ := h'
  refine ⟨bs ++ bs', ?_⟩
  rw [e', e, List.map_append, ← List.append_assoc, ← List.append_assoc]

theorem State.flush_sends (s : State) : Sends s s.flush.2 := by
  rw [s.flush_snd]
  exact ⟨_, rfl⟩

theorem State.flushIfFull_sends (s : State) : Sends s s.flushIfFull := by
  unfold State.flushIfFull
  split_ifs
  · exact s.flush_sends
  · exact .refl s

theorem State.writeBit_sends (s : State) (b : Bool) : Sends s (s.writeBit b) := ⟨[], by simp [State.writeBit]⟩

theorem State.emitBit_sends (s : State) (b : Bool) : Sends s (s.emitBit b) :=
  (s.flushIfFull_sends.trans (State.writeBit_sends _ b)).trans (State.flushIfFull_sends _)

theorem emitBits_sends (bits : List Bool) : ∀ s : State, Sends s (bits.foldl State.emitBit s) := by
  induction bits with
  | nil => exact Sends.refl
  | cons b bits ih => exact fun s => (s.emitBit_sends b).trans (ih _)

theorem State.emitCode_sends (s : State) (i : Nat) : Sends s (s.emitCode i) := emitBits_sends _ s

theorem count_map_snkWrite (bs : List Byte) :
    (bs.map PortEvent.snkWrite).count .srcRead = 0 ∧ (bs.map PortEvent.snkWrite).count .srcRewind = 0 := by
  constructor <;> exact List.count_eq_zero.mpr (by simp)

/-- The payload loop reads up to the end of the source, and otherwise only sends (R254). -/
theorem emitLoop_reads (k : Nat) : ∀ s : State, s.unread.length < k →
    ∃ evs bs, emitLoop k s = { s with
        obuf := (emitLoop k s).obuf, wcur := (emitLoop k s).wcur, snk := s.snk ++ bs
        pos := max s.pos s.src.length, trace := s.trace ++ evs } ∧
      evs.count .srcRead = s.unread.length + 1 ∧ evs.count .srcRewind = 0 := by
  induction k with
  | zero => exact fun _ h => absurd h (Nat.not_lt_zero _)
  | succ k ih =>
    intro s hk
    have hlen : s.unread.length = s.src.length - s.pos := List.length_drop
    rw [emitLoop]
    cases h : s.unread with
    | nil =>
      rw [h] at hlen
      rw [s.srcRead_none (by simpa [State.unread] using h)]
      refine ⟨[.srcRead], [], ?_, rfl, rfl⟩
      rw [Nat.max_eq_left (by simp at hlen; omega), List.append_nil]
    | cons c rest =>
      rw [h] at hlen hk
      rw [State.srcRead_of_unread h]
      dsimp only
      obtain ⟨bs, hsends⟩ := (s.skip 1).emitCode_sends c.toNat
      generalize (s.skip 1).emitCode c.toNat = t at hsends ⊢
      have hrest : t.unread = rest := by
        rw [hsends]
        exact State.unread_skip (n := 1) (bs := [c]) h rfl
      obtain ⟨evs, bs', e, hread, hrewind⟩ := ih t (by rw [hrest]; simpa using hk)
      obtain ⟨hnoread, hnorewind⟩ := count_map_snkWrite bs
      refine ⟨.srcRead :: bs.map .snkWrite ++ evs, bs ++ bs', ?_, ?_, ?_⟩
      · have hpos : max t.pos t.src.length = max s.pos s.src.length := by
          have hp : t.pos = s.pos + 1 := by rw [hsends]; rfl
          have hsrc : t.src = s.src := by rw [hsends]; rfl
          rw [hp, hsrc]
          simp at hlen
          omega
        rw [e, hpos, hsends]
        simp [State.skip]
      · simp [hnoread, hread, hrest]
      · simp [hnorewind, hrewind]

/-! ### The tables -/

/-- ENCODE of `s` counts the source in `a` and builds the tree in `u` (R251, R252). -/
structure Encoding (s a u : State) : Prop where
  counted : s.freqPass = .ok () a
  counts : a = { s with freq := a.freq, total := a.total, pos := 0, trace := a.trace }
  freq : ∀ b, b < nSym → (a.freqAt b).toNat = s.src.count (BitVec.ofNat 8 b)
  total : a.total.toNat = s.src.length
  accesses : a.trace = s.trace ++ [.srcRewind] ++ List.replicate (s.src.length + 1) .srcRead ++ [.srcRewind]
  built : a.treeBuild = .ok () u
  tree : u = { a with
    node := u.node, pq := [], status := { a.status with tree := true, built := true, codes := false } }
  shape : TreeShape u.node

theorem State.encoding (s : State) (hs : s.src.length < w64) : ∃ a u, Encoding s a u := by
  obtain ⟨a, hcounted, hcounts, hfreq, htotal, htrace⟩ := s.freqPass_counts hs
  have hsum : a.freqSum < w64 := by
    obtain ⟨a', e, -, -, hsum⟩ := s.freqPass_spec hs
    rw [hcounted] at e
    cases e
    exact hsum ▸ hs
  obtain ⟨t, hm, hbuilt⟩ := a.treeBuild_of_freqSum_lt hsum
  refine ⟨a, _, hcounted, hcounts, hfreq, htotal, htrace, hbuilt, ?_, hm.treeShape⟩
  rw [State.treeFinish, State.modNode, hm.frame]
  rfl

/-- The state in which ENCODE has built its tables (R252). -/
def State.coded (u : State) : State := u.codeWalks.markCodes

section
variable {s a u : State} (h : Encoding s a u)
include h

theorem Encoding.coded_frame : u.coded = { s with
    freq := a.freq, total := a.total, node := u.node, len := u.coded.len, code := u.coded.code, pq := [], pos := 0
    trace := a.trace, status := { s.status with tree := true, built := true, codes := true } } := by
  rw [State.coded, State.codeWalks, State.markCodes, h.tree, h.counts]

/-- What ENCODE answers (R250). -/
theorem Encoding.exec (hroom : s.room = none) :
    exec .encode s = .next { u.coded.writeArchive with
      res := resOfNat (u.coded.writeArchive.snk.length - s.snk.length) } := by
  show Host.Outcome.next (s.settle .encode s.encode.close) = _
  rw [State.settle_none _ _ _ hroom, State.encode, h.counted, Flow.bind_ok, h.built, Flow.bind_ok]
  rfl

theorem Encoding.codeOf {i : Nat} (hi : i < nSym) : codePath u.coded.node i = some (u.coded.codeOf i) := by
  obtain ⟨p, hp, -⟩ := h.shape.codePath_exists i hi
  have hcode : u.coded.codeOf = u.codeWalks.codeOf := State.codeOf_congr rfl rfl
  rw [hcode, u.codeOf_codeWalks i p hi hp]
  exact hp

end

/-- The tables stand while the archive is written. -/
theorem State.writeArchive_tables (w : State) :
    w.writeArchive.freq = w.freq ∧ w.writeArchive.total = w.total ∧ w.writeArchive.node = w.node ∧
    w.writeArchive.len = w.len ∧ w.writeArchive.code = w.code ∧ w.writeArchive.status = w.status := by
  have h := w.writeArchive_offBlocks
  generalize w.writeArchive = v at h ⊢
  exact ⟨(congrArg State.freq h :), (congrArg State.total h :), (congrArg State.node h :), (congrArg State.len h :),
    (congrArg State.code h :), (congrArg State.status h :)⟩

/-- The codes are read off the tree alone. -/
theorem State.coded_congr {u u' : State} (h : u'.node = u.node) :
    u'.coded.len = u.coded.len ∧ u'.coded.code = u.coded.code := by
  simp only [State.coded, State.codeWalks, State.markCodes, h, and_self]

theorem exec_cgen_coded {s : State} (hb : s.status.built = true) (h : TreeShape s.node) :
    ∃ t, exec .cgen s = .next t ∧ t.len = s.coded.len ∧ t.code = s.coded.code ∧ t.status = s.coded.status := by
  refine ⟨_, execCgen_of_treeShape s hb h, ?_⟩
  generalize s.codeWalks.markCodes.maxLen = n
  exact ⟨rfl, rfl, rfl⟩

/-- Settles O45: FCNT and TBLD run ENCODE's own two passes, and the codes are read off the tree alone. -/
theorem encodeCountsBuildsAndGenerates : Obligations.EncodeCountsBuildsAndGenerates := by
  intro s t hs hroom e
  obtain ⟨a, u, h⟩ := s.encoding hs
  have hexec := h.exec hroom
  obtain ⟨hfreq, htotal, hnode, hlen, hcode, hstatus⟩ := u.coded.writeArchive_tables
  generalize u.coded.writeArchive = w at hexec hfreq htotal hnode hlen hcode hstatus
  rw [hexec] at e
  cases e
  have hsame : a.treeBuild.Rel SameTree ({ a with res := a.total } : State).treeBuild := State.treeBuild_sameTree rfl
  rw [h.built] at hsame
  rcases ({ a with res := a.total } : State).treeBuild_offTables with ⟨v, hv, hoff⟩ | ⟨_, _, hv, -⟩ <;> rw [hv] at hsame
  · have hvnode : v.node = u.node := hsame.2.1.symm
    have hvstatus : v.status = { a.status with tree := true, built := true, codes := false } :=
      (congrArg State.status hoff :)
    generalize hb : ({ v with res := (v.nodeAt root).weight } : State) = b
    have htbld := exec_tbld_of_ok hv
    rw [hb] at htbld
    have hbnode : b.node = u.node := by rw [← hb]; exact hvnode
    have hbstatus : b.status = v.status := by rw [← hb]
    rw [hvstatus] at hbstatus
    obtain ⟨c, hcgen, hclen, hccode, hcstatus⟩ := exec_cgen_coded (s := b) (by rw [hbstatus]) (hbnode ▸ h.shape)
    obtain ⟨hblen, hbcode⟩ := State.coded_congr hbnode
    refine ⟨_, b, c, exec_fcnt h.counted, htbld, hcgen, ?_, ?_, hnode.trans hbnode.symm,
      hlen.trans (hclen.trans hblen).symm, hcode.trans (hccode.trans hbcode).symm, ?_⟩
    · exact hfreq.trans (by rw [h.coded_frame])
    · exact htotal.trans (by rw [h.coded_frame])
    · have hc : u.coded.status = { a.status with tree := true, built := true, codes := true } :=
        congrArg (fun x : State => x.markCodes.status) h.tree
      have hbc : b.coded.status = { a.status with tree := true, built := true, codes := true } :=
        congrArg (fun x : Status => { x with codes := true }) hbstatus
      have hall := (hstatus.trans hc).trans (hcstatus.trans hbc).symm
      exact ⟨congrArg Status.tree hall, congrArg Status.built hall, congrArg Status.codes hall⟩
  · exact hsame.elim

/-! ### The archive -/

theorem eq_ofNat_of_toNat {v : Word} {n : Nat} (h : v.toNat = n) : v = BitVec.ofNat 64 n := by
  rw [← h, BitVec.ofNat_toNat, BitVec.setWidth_eq]

/-- Steps 3 to 5 of ENCODE append the archive of the source under the tree and the codes there (R253, R254). -/
theorem State.writeArchive_snk (w : State) (hb : BufInv w) (hpos : w.pos = 0) (htotal : w.total.toNat = w.src.length) :
    w.writeArchive.snk = w.snk ++ archiveOf w.cfg.magic w.src w := by
  have hunread : w.headSent.unread = w.src := by
    show w.src.drop w.pos = w.src
    rw [hpos, List.drop_zero]
  obtain ⟨hbuf, -, hbits⟩ := emitLoop_spec (w.src.length + 1) w.headSent hb.headSent
    (by rw [hunread]; exact Nat.lt_succ_self _)
  rw [hunread, State.outBits_of_wcur_zero (s := w.headSent) rfl, List.append_nil] at hbits
  rw [w.writeArchive_eq, State.flush_snk _ hbuf, ← packBits_bytesBits, hbits, packBits_bytesBits, archiveOf,
    ← eq_ofNat_of_toNat htotal, ← List.append_assoc]
  rfl

theorem State.writeArchive_reads (w : State) (hpos : w.pos = 0) :
    w.writeArchive = { w with
      obuf := w.writeArchive.obuf, wcur := ⟨0, 0⟩, pos := w.src.length, snk := w.writeArchive.snk
      trace := w.writeArchive.trace } ∧
    ∃ evs, w.writeArchive.trace = w.trace ++ evs ∧ evs.count .srcRead = w.src.length + 1 ∧ evs.count .srcRewind = 0 := by
  have hunread : w.headSent.unread = w.src := by
    show w.src.drop w.pos = w.src
    rw [hpos, List.drop_zero]
  obtain ⟨evs, bs, e, hread, hrewind⟩ := emitLoop_reads (w.src.length + 1) w.headSent
    (by rw [hunread]; exact Nat.lt_succ_self _)
  rw [hunread] at hread
  have hmax : max w.headSent.pos w.headSent.src.length = w.src.length := by
    show max w.pos w.src.length = w.src.length
    rw [hpos, Nat.max_eq_right (Nat.zero_le _)]
  rw [hmax] at e
  obtain ⟨sent, hsent⟩ := (emitLoop (w.src.length + 1) w.headSent).flush_sends
  have hcur : (emitLoop (w.src.length + 1) w.headSent).flush.2.wcur = ⟨0, 0⟩ := rfl
  rw [w.writeArchive_eq]
  generalize (emitLoop (w.src.length + 1) w.headSent).flush.2 = v at hsent hcur ⊢
  rw [hcur, e] at hsent
  refine ⟨by rw [hsent]; rfl, w.headBytes.map .snkWrite ++ evs ++ sent.map .snkWrite, ?_, ?_, ?_⟩
  · rw [hsent, ← List.append_assoc, ← List.append_assoc]
    rfl
  · simp [List.count_append, (count_map_snkWrite _).1, hread]
  · simp [List.count_append, (count_map_snkWrite _).2, hrewind]

/-- Header and tree table are 1032 bytes, and the payload is the codes' bits, packed (R90, R91). -/
theorem archiveOf_length (magic : Vector Byte 4) (src : List Byte) (t : State) :
    (archiveOf magic src t).length = 1032 + ((src.map fun c => (t.lenAt c.toNat).toNat).sum + 7) / 8 := by
  simp [archiveOf, packBits_length, List.length_flatMap, State.codeOf_length]
  omega

/-- An archive is read off the tree and its codes. -/
theorem archiveOf_congr (magic : Vector Byte 4) (src : List Byte) {t t' : State} (hn : t'.node = t.node)
    (hl : t'.len = t.len) (hc : t'.code = t.code) : archiveOf magic src t' = archiveOf magic src t := by
  rw [archiveOf, archiveOf, State.codeOf_congr hl hc, hn]

section
variable {s a u : State} (h : Encoding s a u)
include h

theorem Encoding.archive (hb : BufInv s) :
    u.coded.writeArchive.snk = s.snk ++ archiveOf s.cfg.magic s.src u.coded := by
  have hf := h.coded_frame
  have hbuf : BufInv u.coded := by
    rw [hf]
    exact { hb with }
  have hsrc : u.coded.src = s.src := by rw [hf]
  have hcfg : u.coded.cfg = s.cfg := by rw [hf]
  have hsnk : u.coded.snk = s.snk := by rw [hf]
  have htotal : u.coded.total = a.total := by rw [hf]
  rw [u.coded.writeArchive_snk hbuf (by rw [hf]) (by rw [htotal, hsrc]; exact h.total), hsrc, hcfg, hsnk]

end

/-- Settles O44: after the two passes the payload loop puts the source's codes on the output stream, behind the header and
the tree table, and Flush pads the last byte. -/
theorem encodeWritesTheArchive : Obligations.EncodeWritesTheArchive := by
  intro s hs hroom hb
  obtain ⟨a, u, h⟩ := s.encoding hs
  have hf := h.coded_frame
  have hpos : u.coded.pos = 0 := by rw [hf]
  obtain ⟨hframe, -⟩ := u.coded.writeArchive_reads hpos
  obtain ⟨-, htotal, hnode, hlen, hcode, -⟩ := u.coded.writeArchive_tables
  have hsnk := h.archive hb
  have hcodeOf := State.codeOf_congr hlen hcode
  have harchive := archiveOf_congr s.cfg.magic s.src hnode hlen hcode
  have hatotal : u.coded.total = a.total := by rw [hf]
  have hexec := h.exec hroom
  generalize u.coded.writeArchive = w at hexec hframe htotal hnode hlen hcode hsnk hcodeOf harchive
  refine ⟨_, hexec, ?_, ?_, ?_, ?_, ?_, ?_⟩
  · rw [hframe, hf]
  · exact (congrArg BitVec.toNat (htotal.trans hatotal)).trans h.total
  · exact hnode ▸ h.shape
  · intro i hi
    rw [hnode]
    exact (h.codeOf hi).trans (congrArg some (congrFun hcodeOf i).symm)
  · exact hsnk.trans (congrArg (s.snk ++ ·) harchive.symm)
  · intro hlt
    have hlt : (archiveOf s.cfg.magic s.src u.coded).length < w64 := harchive ▸ hlt
    have hn : w.snk.length - s.snk.length = (archiveOf s.cfg.magic s.src u.coded).length := by
      rw [hsnk, List.length_append, Nat.add_sub_cancel_left]
    show (resOfNat (w.snk.length - s.snk.length)).toNat =
      1032 + ((s.src.map fun c => (w.lenAt c.toNat).toNat).sum + 7) / 8
    rw [hn, resOfNat_eq hlt, BitVec.toNat_ofNat, Nat.mod_eq_of_lt hlt, archiveOf_length]
    simp only [State.lenAt, hlen]

/-- The counts say what the table of counts is. -/
theorem freq_eq_of_freqAt {s t : State} (h : ∀ b, b < nSym → (t.freqAt b).toNat = (s.freqAt b).toNat) :
    t.freq = s.freq := by
  refine Vector.ext fun b hb => BitVec.eq_of_toNat_eq ?_
  have hb' := h b hb
  simpa [State.freqAt, hb] using hb'

/-- Settles O46: source and MAGIC give the counts, these the tree, that the codes, and all together the archive. -/
theorem encodeDependsOnSourceOnly : Obligations.EncodeDependsOnSourceOnly := by
  intro s s' t t' hsrc hmagic hs hb hb' hroom hroom' e e'
  obtain ⟨a, u, h⟩ := s.encoding hs
  obtain ⟨a', u', h'⟩ := s'.encoding (hsrc ▸ hs)
  have hfreq : a'.freq = a.freq := freq_eq_of_freqAt fun b hb => by rw [h'.freq b hb, h.freq b hb, hsrc]
  have hsame : a'.treeBuild.Rel SameTree a.treeBuild := State.treeBuild_sameTree hfreq
  rw [h.built, h'.built] at hsame
  have hnode : u'.node = u.node := hsame.2.1
  obtain ⟨hlen, hcode⟩ := State.coded_congr hnode
  have harchive : archiveOf s'.cfg.magic s'.src u'.coded = archiveOf s.cfg.magic s.src u.coded := by
    rw [← hsrc, ← hmagic]
    exact archiveOf_congr _ _ hnode hlen hcode
  have hexec := h.exec hroom
  have hexec' := h'.exec hroom'
  have hsnk := h.archive hb
  have hsnk' := h'.archive hb'
  generalize u.coded.writeArchive = w at hexec hsnk
  generalize u'.coded.writeArchive = w' at hexec' hsnk'
  rw [hexec] at e
  rw [hexec'] at e'
  cases e
  cases e'
  rw [hsnk, hsnk', harchive]
  simp

/-- Settles O47: the frequency pass rewinds twice and reads up to the source's end, and so does the payload loop; what is
sent besides is no source access. -/
theorem encodeReadsSourceTwice : Obligations.EncodeReadsSourceTwice := by
  intro s hs hroom
  obtain ⟨a, u, h⟩ := s.encoding hs
  have hf := h.coded_frame
  have hsrc : u.coded.src = s.src := by rw [hf]
  have htrace : u.coded.trace = a.trace := by rw [hf]
  obtain ⟨-, evs, hevs, hread, hrewind⟩ := u.coded.writeArchive_reads (by rw [hf])
  have hexec := h.exec hroom
  generalize u.coded.writeArchive = w at hexec hevs
  obtain ⟨all, hall, -, -, hsnk⟩ := exec_ported .encode s _ hexec
  have heq : all = [.srcRewind] ++ List.replicate (s.src.length + 1) .srcRead ++ [.srcRewind] ++ evs := by
    have hall : w.trace = s.trace ++ all := hall
    rw [hevs, htrace, h.accesses] at hall
    simpa using hall.symm
  refine ⟨_, all, hexec, hall, ?_, ?_, hsnk⟩
  · rw [heq]
    simp [List.count_append, hread, hsrc]
    omega
  · rw [heq]
    simp [List.count_append, List.count_replicate, hrewind]

end Sys2Proof.Machine
end

section
/-! SUPPORT. SGET on a whole symbol, and the header of an archive as DECODE meets it (46_decoder.md R281 to R284, R290): what
each part takes from any source, whole or not. -/

namespace Sys2Proof.Machine

/-! ### SGET -/

/-- SGET's loop when the bits to come lead to a leaf (R290). -/
theorem symbolLoop_of_leaf (leaf k : Nat) (rest : List Bool) : ∀ (n : Nat) (p : List Bool) (s : State), BufInv s →
    s.pos ≤ s.src.length → p.length ≤ k → s.inBits = p ++ rest → reachesLeaf s.node leaf n p →
    ∃ t, symbolLoop k n s = (BitVec.ofNat 64 leaf, t) ∧ t.inBits = rest ∧ leaf < nSym ∧
      t = { s with ibuf := t.ibuf, ifill := t.ifill, rcur := t.rcur, pos := t.pos, trace := t.trace } := by
  induction k with
  | zero =>
    intro n p s _ _ hp _ hreach
    rw [List.length_eq_zero_iff.mp (Nat.le_zero.mp hp)] at hreach
    exact hreach.elim
  | succ k ih =>
    intro n p s hb hpos hp hin hreach
    cases p with
    | nil => exact hreach.elim
    | cons b p =>
      rcases s.nextBit_cases hb hpos with ⟨c, t, hbit, hcons, hb', hpos', hframe⟩ | ⟨t, -, hnil, -⟩
      · rw [hin, List.cons_append, List.cons.injEq] at hcons
        obtain ⟨rfl, hrest⟩ := hcons
        have hnode : s.node = t.node := by rw [hframe]
        rw [hnode] at hreach
        rw [symbolLoop, hbit]
        rcases hreach with ⟨hleaf, rfl, hchild⟩ | ⟨hinner, hreach⟩
        · refine ⟨t, (if_pos hleaf).trans ?_, hrest.symm, hchild ▸ hleaf, hframe⟩
          rw [← hchild]
          rfl
        · obtain ⟨u, e, hend, hlt, hu⟩ := ih (t.child n b) p t hb' hpos' (Nat.le_of_succ_le_succ hp) hrest.symm hreach
          exact ⟨u, (if_neg hinner).trans e, hend, hlt, by rw [hu, hframe]⟩
      · rw [hin] at hnil
        cases hnil

/-- Settles O52: each round takes one bit of the path, and there are rounds for all bits to come. -/
theorem sgetDecodesOneSymbol : Obligations.SgetDecodesOneSymbol := by
  intro s leaf p rest hb hport htree hin hreach
  have hlen := s.inBits_length_lt_rounds
  rw [hin, List.length_append] at hlen
  obtain ⟨t, e, hend, hleaf, hframe⟩ :=
    symbolLoop_of_leaf leaf s.rounds rest root p s hb hport.posIn (by omega) hin hreach
  have hexec : exec .sget s = .next { t with res := BitVec.ofNat 64 leaf } := by
    show needs s.status.tree s (.next { (symbolLoop s.rounds root s).2 with res := (symbolLoop s.rounds root s).1 }) = _
    rw [htree, needs_true, e]
  exact ⟨_, hexec, by rw [hframe], hend, hleaf⟩

/-! ### MAGIC -/

/-- CheckMagic of a source that does not begin with the bytes it looks for (R281). -/
theorem checkMagic_mismatch (ms : List Byte) : ∀ s : State, s.unread.take ms.length ≠ ms →
    ∃ t m, checkMagic ms s = .raised .format t ∧ t = { s with pos := t.pos, trace := t.trace } ∧ m < ms.length ∧
      s.unread.take m = ms.take m ∧
      ((s.unread.length = m ∧ t.pos = s.pos + m) ∨
       (m < s.unread.length ∧ s.unread[m]? ≠ ms[m]? ∧ t.pos = s.pos + m + 1)) := by
  induction ms with
  | nil => exact fun s h => absurd List.take_zero h
  | cons b ms ih =>
    intro s h
    rw [checkMagic]
    cases hun : s.unread with
    | nil =>
      rw [s.srcRead_none (by simpa [State.unread] using hun)]
      exact ⟨_, 0, rfl, rfl, Nat.succ_pos _, rfl, .inl ⟨rfl, rfl⟩⟩
    | cons c rest =>
      rw [State.srcRead_of_unread hun]
      dsimp only
      by_cases hc : c = b
      · have hrest : (s.skip 1).unread = rest := State.unread_skip (bs := [c]) hun rfl
        rw [hun, hc, List.length_cons, List.take_succ_cons] at h
        obtain ⟨t, m, e, ht, hm, htake, hend⟩ := ih (s.skip 1) (by rw [hrest]; exact fun e => h (by rw [e]))
        rw [hrest] at htake hend
        have hpos : (s.skip 1).pos = s.pos + 1 := rfl
        rw [hpos] at hend
        refine ⟨t, m + 1, (if_pos hc).trans e, ht, Nat.succ_lt_succ hm, ?_, ?_⟩
        · rw [List.take_succ_cons, List.take_succ_cons, htake, hc]
        · rw [List.length_cons, List.getElem?_cons_succ, List.getElem?_cons_succ]
          exact hend.imp (fun ⟨h1, h2⟩ => ⟨by omega, by omega⟩) fun ⟨h1, h2, h3⟩ => ⟨by omega, h2, by omega⟩
      · refine ⟨s.skip 1, 0, if_neg hc, rfl, Nat.succ_pos _, rfl, .inr ⟨Nat.succ_pos _, ?_, rfl⟩⟩
        simpa using hc

/-- What DECODE answers when its header raises an error (R281 to R284). -/
theorem exec_decode_of_raised {s t : State} {x : Err} (e : s.decode = .raised x t) (hsnk : t.snk = s.snk)
    (hroom : t.room = s.room) : exec .decode s = .next (t.raise x) := by
  show Host.Outcome.next (s.settle .decode s.decode.close) = _
  rw [e, Flow.close_raised, State.settle_of_quiet .decode (t := t.raise x) hsnk hroom]

theorem State.decodeStart_unread (s : State) : s.decodeStart.unread = s.src := rfl

theorem State.decode_eq (s : State) :
    s.decode = (checkMagic s.cfg.magic.toList s.decodeStart).bind fun _ s => s.loadTree.bind fun _ s =>
      .ok (resOfNat (payloadLoop s.total.toNat s.rounds 0 root s).1)
        (payloadLoop s.total.toNat s.rounds 0 root s).2 := rfl

/-- Settles O49: CheckMagic stops at the first byte that differs, or at the end of the source. -/
theorem decodeRefusesBadMagic : Obligations.DecodeRefusesBadMagic := by
  intro s hmagic
  obtain ⟨t, m, e, ht, hm, htake, hend⟩ := checkMagic_mismatch s.cfg.magic.toList s.decodeStart
    (by rw [Vector.length_toList]; exact hmagic)
  have hdecode : s.decode = .raised .format t := by rw [s.decode_eq, e, Flow.bind_raised]
  rw [Vector.length_toList] at hm
  have hpos : s.decodeStart.pos = 0 := rfl
  rw [s.decodeStart_unread] at htake hend
  simp only [hpos, Nat.zero_add] at hend
  refine ⟨_, m, exec_decode_of_raised hdecode (by rw [ht]; rfl) (by rw [ht]; rfl), ?_, hm, htake, hend⟩
  rw [State.raise, ht]
  rfl

/-! ### Bytes of the header -/

/-- `s` read up to the end of its source. -/
def ReadOut (s t : State) : Prop := t = { s with pos := s.src.length, trace := t.trace }

theorem State.headByte_at {s : State} (h : s.pos < s.src.length) :
    s.headByte = .ok (archiveByte s.src s.pos) (s.skip 1) := by
  rcases s.headByte_cases with ⟨b, hb, e⟩ | ⟨hl, -⟩
  · rw [e, archiveByte, hb]
    rfl
  · omega

theorem State.headByte_end {s : State} (h : s.pos = s.src.length) :
    ∃ t, s.headByte = .raised .hdrTrunc t ∧ ReadOut s t := by
  rcases s.headByte_cases with ⟨b, hb, -⟩ | ⟨-, e⟩
  · rw [h, List.getElem?_length] at hb
    cases hb
  · exact ⟨_, e, by rw [ReadOut, ← h]⟩

/-- Reading on from a byte of the source comes to its end. -/
theorem ReadOut.of_skip {s t : State} {n : Nat} (h : ReadOut (s.skip n) t) : ReadOut s t := h

/-- The length field cut short (R283). -/
theorem readLen_short (k : Nat) : ∀ (j : Nat) (len : Word) (s : State), s.pos ≤ s.src.length →
    s.src.length < s.pos + k → ∃ t, readLen k j len s = .raised .hdrTrunc t ∧ ReadOut s t := by
  induction k with
  | zero => exact fun _ _ _ h h' => by omega
  | succ k ih =>
    intro j len s hp hk
    rw [readLen]
    rcases Nat.lt_or_eq_of_le hp with h | h
    · rw [State.headByte_at h, Flow.bind_ok]
      obtain ⟨t, e, ht⟩ := ih (j + 1) _ (s.skip 1) h (by show s.src.length < s.pos + 1 + k; omega)
      exact ⟨t, e, ht.of_skip⟩
    · obtain ⟨t, e, ht⟩ := State.headByte_end h
      exact ⟨t, by rw [e, Flow.bind_raised], ht⟩

theorem State.readLE16_at {s : State} (h : s.pos + 2 ≤ s.src.length) :
    s.readLE16 = .ok (archiveIndex s.src s.pos) (s.skip 2) := by
  rw [State.readLE16, State.headByte_at (by omega), Flow.bind_ok,
    State.headByte_at (s := s.skip 1) (by show s.pos + 1 < s.src.length; omega), Flow.bind_ok, s.skip_skip]
  rfl

theorem State.readLE16_short {s : State} (hp : s.pos ≤ s.src.length) (h : s.src.length < s.pos + 2) :
    ∃ t, s.readLE16 = .raised .hdrTrunc t ∧ ReadOut s t := by
  rw [State.readLE16]
  rcases Nat.lt_or_eq_of_le hp with hlt | heq
  · rw [State.headByte_at hlt, Flow.bind_ok]
    obtain ⟨t, e, ht⟩ := State.headByte_end (s := s.skip 1) (by show s.pos + 1 = s.src.length; omega)
    exact ⟨t, by rw [e, Flow.bind_raised], ht.of_skip⟩
  · obtain ⟨t, e, ht⟩ := State.headByte_end heq
    exact ⟨t, by rw [e, Flow.bind_raised], ht⟩

/-! ### The tree table -/

/-- The two indices at an offset are 0 .. 510 as signed numbers (R283). -/
def indicesOk (a : List Byte) (off : Nat) : Bool := childOk (archiveIndex a off) && childOk (archiveIndex a (off + 2))

theorem indicesOk_iff (a : List Byte) (k : Nat) : indicesOk a (12 + 4 * k) = true ↔ entryOk a k := by
  have hoff : 12 + 4 * k + 2 = 14 + 4 * k := by omega
  simp only [indicesOk, childOk, entryOk, hoff, Bool.and_eq_true, decide_eq_true_eq, and_assoc]

/-- The children of node `i` as an entry at `off` gives them. -/
def State.setChildren (s : State) (i off : Nat) : State :=
  s.modNode i fun d => { d with left := archiveIndex s.src off, right := archiveIndex s.src (off + 2) }

theorem State.loadEntry_at {s : State} (i : Nat) (h : s.pos + 4 ≤ s.src.length) :
    s.loadEntry i =
      if indicesOk s.src s.pos = true then .ok () ((s.skip 4).setChildren i s.pos) else .raised .tree (s.skip 4) := by
  rw [State.loadEntry, State.readLE16_at (by omega), Flow.bind_ok,
    State.readLE16_at (s := s.skip 2) (by show s.pos + 2 + 2 ≤ s.src.length; omega), Flow.bind_ok, s.skip_skip]
  rfl

theorem State.loadEntry_short {s : State} (i : Nat) (hp : s.pos ≤ s.src.length) (h : s.src.length < s.pos + 4) :
    ∃ t, s.loadEntry i = .raised .hdrTrunc t ∧ ReadOut s t := by
  rw [State.loadEntry]
  rcases le_or_gt (s.pos + 2) s.src.length with h2 | h2
  · rw [State.readLE16_at h2, Flow.bind_ok]
    obtain ⟨t, e, ht⟩ := State.readLE16_short (s := s.skip 2) h2 (by show s.src.length < s.pos + 2 + 2; omega)
    exact ⟨t, by rw [e, Flow.bind_raised], ht.of_skip⟩
  · obtain ⟨t, e, ht⟩ := State.readLE16_short hp h2
    exact ⟨t, by rw [e, Flow.bind_raised], ht⟩

/-- Node `n` once the entries of nodes 256 to 255 + m are loaded (R282, R283). -/
def loadedNode (a : List Byte) (m n : Nat) : Node :=
  if n < 256 + m then nodeOf (archiveArena a) n
  else { sym := BitVec.ofNat 16 n, weight := 0, left := 0, right := 0, parent := 0 }

theorem nodeOf_archiveArena (a : List Byte) {n : Nat} (h : n ≤ root) : nodeOf (archiveArena a) n =
    { sym := BitVec.ofNat 16 n, weight := 0
      left := if n < nSym then 0 else archiveIndex a (12 + 4 * (n - 256))
      right := if n < nSym then 0 else archiveIndex a (14 + 4 * (n - 256))
      parent := 0 } := nodeOf_arenaOf _ n h

/-- Entries 0 to m - 1 of the source's tree table are loaded (R283). -/
structure Loaded (m : Nat) (s : State) : Prop where
  pos : s.pos = 12 + 4 * m
  inSource : 12 + 4 * m ≤ s.src.length
  whole : ∀ k, k < m → entryOk s.src k
  node : ∀ n, n ≤ root → nodeOf s.node n = loadedNode s.src m n

/-- Entry `m` is the first that cannot be loaded, and `x` is the error it raises (R283, R284). -/
structure LoadFails (m : Nat) (x : Err) (s : State) : Prop where
  entry : m < 255
  whole : ∀ k, k < m → 16 + 4 * k ≤ s.src.length ∧ entryOk s.src k
  fails : (x = .tree ∧ 16 + 4 * m ≤ s.src.length ∧ ¬ entryOk s.src m ∧ s.pos = 16 + 4 * m) ∨
    (x = .hdrTrunc ∧ s.src.length < 16 + 4 * m ∧ s.pos = s.src.length)
  node : ∀ n, n ≤ root → nodeOf s.node n = loadedNode s.src m n

theorem loadedNode_zero (a : List Byte) {n : Nat} (h : n ≤ root) :
    loadedNode a 0 n = { sym := BitVec.ofNat 16 n, weight := 0, left := 0, right := 0, parent := 0 } := by
  unfold loadedNode
  split_ifs with hn
  · rw [nodeOf_archiveArena a h, if_pos hn, if_pos hn]
  · rfl

section
variable {m : Nat} {s : State} (h : Loaded m s)
include h

theorem Loaded.whole_in (k : Nat) (hk : k < m) : 16 + 4 * k ≤ s.src.length ∧ entryOk s.src k :=
  ⟨by have := h.inSource; omega, h.whole k hk⟩

/-- A whole entry in range is loaded. -/
theorem Loaded.step (hm : m < 255) (hin : 16 + 4 * m ≤ s.src.length) (hok : entryOk s.src m) :
    Loaded (m + 1) ((s.skip 4).setChildren (256 + m) s.pos) where
  pos := by
    show s.pos + 4 = _
    rw [h.pos]
    omega
  inSource := by
    show 12 + 4 * (m + 1) ≤ s.src.length
    omega
  whole k hk := by
    rcases Nat.lt_succ_iff_lt_or_eq.mp hk with hk | rfl
    · exact h.whole k hk
    · exact hok
  node n hn := by
    have hset := nodeOf_setNode s.node (256 + m) n fun d =>
      { d with left := archiveIndex s.src s.pos, right := archiveIndex s.src (s.pos + 2) }
    refine hset.trans ?_
    show _ = loadedNode s.src (m + 1) n
    by_cases he : n = 256 + m
    · have hsub : 256 + m - 256 = m := by omega
      have hoff : 12 + 4 * m + 2 = 14 + 4 * m := by omega
      rw [if_pos ⟨he, by simp; omega⟩, h.node _ (by simp; omega), loadedNode, if_neg (by omega), loadedNode,
        if_pos (by omega), nodeOf_archiveArena _ hn, he, if_neg (by simp), if_neg (by simp), hsub, h.pos, hoff]
    · rw [if_neg fun h => he h.1, h.node n hn, loadedNode, loadedNode]
      exact if_congr (by omega) rfl rfl

end

theorem LoadFails.of_readOut {m : Nat} {s t : State} (hm : m < 255) (hwhole : ∀ k, k < m → 16 + 4 * k ≤ s.src.length ∧
    entryOk s.src k) (hshort : s.src.length < 16 + 4 * m) (hnode : ∀ n, n ≤ root → nodeOf s.node n = loadedNode s.src m n)
    (ht : ReadOut s t) : LoadFails m .hdrTrunc t := by
  rw [ht]
  exact ⟨hm, hwhole, .inr ⟨rfl, hshort, rfl⟩, hnode⟩

/-- Everything the loop over the entries can do (R283, R284). -/
theorem loadEntries_cases (c : Nat) : ∀ (m : Nat) (s : State), m + c = 255 → Loaded m s →
    (∃ t, loadEntries ((List.range' m c).map (256 + ·)) s = .ok () t ∧
      t = { s with node := t.node, pos := t.pos, trace := t.trace } ∧ Loaded 255 t) ∨
    ∃ x t k, loadEntries ((List.range' m c).map (256 + ·)) s = .raised x t ∧
      t = { s with node := t.node, pos := t.pos, trace := t.trace } ∧ LoadFails k x t := by
  induction c with
  | zero =>
    intro m s hm h
    obtain rfl : m = 255 := by omega
    exact .inl ⟨s, rfl, rfl, h⟩
  | succ c ih =>
    intro m s hm h
    rw [List.range'_succ, List.map_cons, loadEntries]
    have hpos := h.pos
    have hin := h.inSource
    rcases le_or_gt (16 + 4 * m) s.src.length with hwhole | hshort
    · rw [State.loadEntry_at _ (by omega)]
      by_cases hok : indicesOk s.src s.pos = true
      · rw [if_pos hok, Flow.bind_ok]
        rw [hpos, indicesOk_iff] at hok
        rcases ih (m + 1) _ (by omega) (h.step (by omega) hwhole hok) with ⟨t, e, ht, hl⟩ | ⟨x, t, k, e, ht, hf⟩
        · exact .inl ⟨t, e, ht, hl⟩
        · exact .inr ⟨x, t, k, e, ht, hf⟩
      · rw [if_neg hok, Flow.bind_raised]
        rw [hpos, indicesOk_iff] at hok
        refine .inr ⟨_, _, m, rfl, rfl, by omega, h.whole_in, .inl ⟨rfl, hwhole, hok, ?_⟩, h.node⟩
        show s.pos + 4 = _
        omega
    · obtain ⟨t, e, ht⟩ := State.loadEntry_short (256 + m) (by omega) (by omega : s.src.length < s.pos + 4)
      refine .inr ⟨_, t, m, by rw [e, Flow.bind_raised], ?_, .of_readOut (by omega) h.whole_in hshort h.node ht⟩
      rw [ht]

end Sys2Proof.Machine
end

section
/-! SUPPORT. DECODE of any source that begins with MAGIC (46_decoder.md R280 to R286): the header it loads or refuses, and
the payload bits it takes. -/

namespace Sys2Proof.Machine

/-! ### The length field -/

/-- The number whose bytes are `f 0`, …, `f (n - 1)`, least first. -/
def ofBytes (f : Nat → Nat) (n : Nat) : Nat := ((List.range n).map fun k => f k * 2 ^ (8 * k)).sum

theorem ofBytes_succ (f : Nat → Nat) (n : Nat) : ofBytes f (n + 1) = f 0 + 256 * ofBytes (fun k => f (k + 1)) n := by
  have hpow : ∀ k, f (k + 1) * 2 ^ (8 * (k + 1)) = 256 * (f (k + 1) * 2 ^ (8 * k)) := fun k => by
    rw [show 8 * (k + 1) = 8 * k + 8 by omega, Nat.pow_add]
    ring
  unfold ofBytes
  rw [List.range_succ_eq_map, List.map_cons, List.sum_cons, List.map_map, ← List.sum_map_mul_left]
  simp only [Function.comp_def, Nat.succ_eq_add_one, hpow]
  simp

theorem ofBytes_lt (n : Nat) : ∀ f : Nat → Nat, (∀ k, f k < 256) → ofBytes f n < 2 ^ (8 * n) := by
  induction n with
  | zero => exact fun f _ => Nat.one_pos
  | succ n ih =>
    intro f hf
    have := ih (fun k => f (k + 1)) fun k => hf (k + 1)
    have := hf 0
    rw [ofBytes_succ, show 8 * (n + 1) = 8 * n + 8 by omega, Nat.pow_add]
    omega

theorem ofBytes_byte (n : Nat) : ∀ (f : Nat → Nat) (k : Nat), (∀ k, f k < 256) → k < n →
    ofBytes f n / 2 ^ (8 * k) % 256 = f k := by
  induction n with
  | zero => exact fun _ _ _ h => absurd h (Nat.not_lt_zero _)
  | succ n ih =>
    intro f k hf hk
    have h0 := hf 0
    rw [ofBytes_succ]
    cases k with
    | zero =>
      rw [Nat.mul_zero, Nat.pow_zero, Nat.div_one]
      omega
    | succ k =>
      have hdiv : (f 0 + 256 * ofBytes (fun k => f (k + 1)) n) / 2 ^ 8 = ofBytes (fun k => f (k + 1)) n := by omega
      rw [show 8 * (k + 1) = 8 + 8 * k by omega, Nat.pow_add, ← Nat.div_div_eq_div_mul, hdiv]
      exact ih _ k (fun k => hf (k + 1)) (Nat.lt_of_succ_lt_succ hk)

theorem archiveLength_lt (a : List Byte) : archiveLength a < w64 :=
  ofBytes_lt 8 (fun k => (archiveByte a (4 + k)).toNat) fun _ => BitVec.isLt _

/-- Byte `k` of the length field (R90). -/
theorem archiveLength_byte (a : List Byte) {k : Nat} (hk : k < 8) :
    (BitVec.ofNat 64 (archiveLength a)).extractLsb' (8 * k) 8 = archiveByte a (4 + k) := by
  refine BitVec.eq_of_toNat_eq ?_
  rw [BitVec.extractLsb'_toNat, BitVec.toNat_ofNat, Nat.mod_eq_of_lt (archiveLength_lt a), Nat.shiftRight_eq_div_pow]
  exact ofBytes_byte 8 (fun k => (archiveByte a (4 + k)).toNat) k (fun _ => BitVec.isLt _) hk

/-- The length field is the eight bytes behind MAGIC (R90). -/
theorem le64_archiveLength {a : List Byte} (h : 12 ≤ a.length) :
    a.drop 4 = le64 (BitVec.ofNat 64 (archiveLength a)) ++ a.drop 12 := by
  have htake : le64 (BitVec.ofNat 64 (archiveLength a)) = (a.drop 4).take 8 := by
    refine List.ext_getElem? fun k => ?_
    by_cases hk : k < 8
    · have hbyte : a[4 + k]? = some (archiveByte a (4 + k)) := by
        rw [archiveByte, List.getElem?_eq_getElem (by omega)]
        rfl
      rw [List.getElem?_take_of_lt hk, List.getElem?_drop, hbyte, le64, List.getElem?_map, List.getElem?_range hk,
        Option.map_some, archiveLength_byte a hk]
    · rw [List.getElem?_eq_none (by simp; omega), List.getElem?_eq_none (by simp; omega)]
  rw [htake, show a.drop 12 = (a.drop 4).drop 8 by rw [List.drop_drop], List.take_append_drop]

/-! ### The header -/

theorem arena_ext {v w : Vector Node 511} (h : ∀ n, n ≤ root → nodeOf v n = nodeOf w n) : v = w := by
  refine Vector.ext fun n hn => ?_
  have hn' := h n (Nat.le_of_lt_succ hn)
  simpa [nodeOf, hn] using hn'

/-- Everything LoadTree can do behind MAGIC (R282 to R284). -/
theorem State.loadTree_cases {s : State} (hpos : s.pos = 4) (hin : 4 ≤ s.src.length) :
    (∃ t, s.loadTree = .ok () t ∧ 1032 ≤ s.src.length ∧ (∀ k, k < 255 → entryOk s.src k) ∧
      t = { s with
        node := archiveArena s.src, total := BitVec.ofNat 64 (archiveLength s.src), pos := 1032, trace := t.trace
        status := { s.status with tree := true, built := false, codes := false } }) ∨
    ∃ x t m, s.loadTree = .raised x t ∧ LoadFails m x t ∧
      t = { s with
        node := t.node, pos := t.pos, trace := t.trace
        status := { s.status with tree := false, built := false, codes := false } } := by
  have hfresh : ∀ n, n ≤ root → nodeOf s.clearTables.arenaReset.node n = loadedNode s.src 0 n := fun n hn =>
    (nodeOf_arenaOf _ n hn).trans (loadedNode_zero s.src hn).symm
  rw [State.loadTree]
  rcases le_or_gt 12 s.src.length with h12 | h12
  · have hunread : s.clearTables.arenaReset.unread = le64 (BitVec.ofNat 64 (archiveLength s.src)) ++ s.src.drop 12 := by
      rw [← le64_archiveLength h12, ← hpos]
      rfl
    have hstart : Loaded 0 (s.clearTables.arenaReset.skip 8) :=
      ⟨by show s.pos + 8 = _; rw [hpos], h12, fun k hk => absurd hk (Nat.not_lt_zero k), hfresh⟩
    rw [readLen_le64 hunread, Flow.bind_ok, List.range_eq_range']
    rcases loadEntries_cases 255 0 _ rfl hstart with ⟨t, e, ht, hl⟩ | ⟨x, t, m, e, ht, hf⟩ <;> rw [e]
    · have hsrc : t.src = s.src := by rw [ht]; rfl
      obtain ⟨hp, hend, hwhole, hnode⟩ := hl
      rw [hsrc] at hend hwhole hnode
      have harena : t.node = archiveArena s.src := arena_ext fun n hn => by
        rw [hnode n hn, loadedNode, if_pos (by simp at hn; omega)]
      refine .inl ⟨_, rfl, hend, hwhole, ?_⟩
      rw [State.markTree, harena, hp, ht]
      rfl
    · refine .inr ⟨x, t, m, rfl, hf, ?_⟩
      rw [ht]
      rfl
  · obtain ⟨t, e, ht⟩ := readLen_short 8 0 0 s.clearTables.arenaReset (by show s.pos ≤ s.src.length; omega)
      (by show s.src.length < s.pos + 8; omega)
    refine .inr ⟨_, t, 0, by rw [e, Flow.bind_raised], ?_, ?_⟩
    · exact .of_readOut (by omega) (fun k hk => absurd hk (Nat.not_lt_zero k)) (by show s.src.length < _; omega) hfresh ht
    · rw [ht]
      rfl

/-- DECODE of a source that begins with MAGIC looks at the tree table next (R280). -/
theorem State.decode_of_magic {s : State} (h : hasMagic s.cfg.magic s.src) :
    4 ≤ s.src.length ∧ s.decode = (s.decodeStart.skip 4).loadTree.bind fun _ t =>
      .ok (resOfNat (payloadLoop t.total.toNat t.rounds 0 root t).1) (payloadLoop t.total.toNat t.rounds 0 root t).2 := by
  have hlen := congrArg List.length h
  rw [List.length_take, Vector.length_toList] at hlen
  refine ⟨by omega, ?_⟩
  have hunread : s.decodeStart.unread = s.cfg.magic.toList ++ s.src.drop 4 := by
    rw [s.decodeStart_unread, ← h, List.take_append_drop]
  have hmagic := checkMagic_of_unread _ _ _ hunread
  rw [Vector.length_toList] at hmagic
  rw [s.decode_eq, hmagic, Flow.bind_ok]

/-- Settles O50: the entries are loaded in order, up to the first that is out of range or cut short. -/
theorem decodeRefusesBadHeader : Obligations.DecodeRefusesBadHeader := by
  intro s hmagic hbad
  obtain ⟨h4, hdecode⟩ := State.decode_of_magic hmagic
  rcases State.loadTree_cases (s := s.decodeStart.skip 4) rfl h4 with ⟨-, -, h1032, hok, -⟩ | ⟨x, t, m, e, hf, ht⟩
  · exact absurd ⟨hmagic, h1032, hok⟩ hbad
  · rw [e, Flow.bind_raised] at hdecode
    have hsrc : t.src = s.src := by rw [ht]; rfl
    obtain ⟨hm, hwhole, hfails, hnode⟩ := hf
    rw [hsrc] at hwhole hfails hnode
    refine ⟨_, x, exec_decode_of_raised hdecode (by rw [ht]; rfl) (by rw [ht]; rfl), ?_, ?_, m, hm, hwhole, ?_, ?_, ?_,
      hnode⟩
    · refine hfails.imp (fun ⟨hx, hin, hno, _⟩ => ⟨hx, m, hm, hin, hno⟩) fun ⟨hx, hshort, _⟩ => ⟨hx, by omega, ?_⟩
      exact fun k _ hk => (hwhole k (by omega)).2
    · rw [State.raise, ht]
      rfl
    · exact hfails.elim (fun ⟨_, _, hno, _⟩ => .inr hno) fun ⟨_, hshort, _⟩ => .inl hshort
    · rintro rfl
      exact hfails.elim (fun ⟨_, _, _, hp⟩ => hp) fun ⟨hx, _⟩ => nomatch hx
    · rintro rfl
      exact hfails.elim (fun ⟨hx, _⟩ => nomatch hx) fun ⟨_, _, hp⟩ => hp

end Sys2Proof.Machine
end

section
/-! SUPPORT. The payload bits DECODE takes (46_decoder.md R285, R286): no more than it needs, block by block. -/

namespace Sys2Proof.Machine

/-! ### Bits taken block by block -/

/-- From position `base` on, `m` refills of the input block have been made and `j` bits of what they brought taken (R133,
R141): the last refill is made only once its first bit is needed. -/
structure Taken (base j m : Nat) (s : State) : Prop where
  inSource : base ≤ s.src.length
  enough : j ≤ 8 * (m * s.cfg.blockBytes)
  needed : 8 * (m * s.cfg.blockBytes) < j + 8 * s.cfg.blockBytes
  pos : s.pos = min (base + m * s.cfg.blockBytes) s.src.length
  ifill : s.ifill = s.pos - (base + (m * s.cfg.blockBytes - s.cfg.blockBytes))
  rcur : s.rcur.bits = j - 8 * (m * s.cfg.blockBytes - s.cfg.blockBytes)

/-- Before the first refill. -/
theorem Taken.start {base : Nat} {s : State} (hin : base ≤ s.src.length) (hblock : 1 ≤ s.cfg.blockBytes)
    (hpos : s.pos = base) (hfill : s.ifill = 0) (hcur : s.rcur.bits = 0) : Taken base 0 0 s where
  inSource := hin
  enough := Nat.zero_le _
  needed := by omega
  pos := by omega
  ifill := by omega
  rcur := by omega

/-- What `Taken` reads of a state. -/
theorem Taken.congr {base j m : Nat} {s t : State} (h : Taken base j m s) (hsrc : t.src = s.src) (hcfg : t.cfg = s.cfg)
    (hpos : t.pos = s.pos) (hfill : t.ifill = s.ifill) (hcur : t.rcur = s.rcur) : Taken base j m t := by
  constructor <;> simp only [hsrc, hcfg, hpos, hfill, hcur]
  exacts [h.inSource, h.enough, h.needed, h.pos, h.ifill, h.rcur]

theorem Cursor.bits_lt_of_byte_lt {c : Cursor} {n : Nat} (h : c.byte < n) : c.bits < 8 * n := by
  have := c.bit.isLt
  unfold Cursor.bits
  omega

/-- How NextBit comes to a bit (R141): from the block, or from a block refilled. -/
theorem State.nextBit_some {s t : State} {b : Bool} (e : s.nextBit = (some b, t)) :
    (s.rcur.byte = s.ifill ∧ s.refill.1 ≠ 0 ∧ t = s.refill.2.readBit.2) ∨
    (s.rcur.byte ≠ s.ifill ∧ t = s.readBit.2) := by
  unfold State.nextBit at e
  dsimp only at e
  split_ifs at e with hused h0
  · cases e
  · exact .inl ⟨hused, h0, (Prod.mk.inj e).2.symm⟩
  · exact .inr ⟨hused, (Prod.mk.inj e).2.symm⟩

theorem mul_eq_zero_or_le (m n : Nat) : m * n = 0 ∨ n ≤ m * n := by
  rcases Nat.eq_zero_or_pos m with rfl | hm
  · exact .inl (Nat.zero_mul _)
  · exact .inr (Nat.le_mul_of_pos_left _ hm)

/-- A bit taken from the block. -/
theorem Taken.readBit {base j m : Nat} {s : State} (h : Taken base j m s) (hlt : s.rcur.byte < s.ifill) :
    Taken base (j + 1) m s.readBit.2 := by
  have hM := mul_eq_zero_or_le m s.cfg.blockBytes
  obtain ⟨hin, henough, hneeded, hpos, hfill, hcur⟩ := h
  have hlt := Cursor.bits_lt_of_byte_lt hlt
  have hnext : s.readBit.2.rcur.bits = s.rcur.bits + 1 := Cursor.bits_next _
  refine ⟨hin, ?_, ?_, hpos, hfill, ?_⟩
  · show _ ≤ 8 * (m * s.cfg.blockBytes)
    omega
  · show 8 * (m * s.cfg.blockBytes) < j + 1 + 8 * s.cfg.blockBytes
    omega
  · rw [hnext]
    show _ = j + 1 - 8 * (m * s.cfg.blockBytes - s.cfg.blockBytes)
    omega

/-- A used-up block refilled, and its first bit taken. -/
theorem Taken.refillBit {base j m : Nat} {s : State} (h : Taken base j m s) (hb : BufInv s)
    (hused : s.rcur.byte = s.ifill) (h0 : s.refill.1 ≠ 0) :
    Taken base (j + 1) (m + 1) s.refill.2.readBit.2 := by
  have hM := mul_eq_zero_or_le m s.cfg.blockBytes
  obtain ⟨hin, henough, hneeded, hpos, hfill, hcur⟩ := h
  obtain ⟨-, -, hn, hrfill, hrcur, hrpos, hrframe⟩ := s.refill_bits hb (by omega)
  have hsrc : s.refill.2.readBit.2.src = s.src := (congrArg State.src hrframe :)
  have hcfg : s.refill.2.readBit.2.cfg = s.cfg := (congrArg State.cfg hrframe :)
  have hrpos : s.refill.2.readBit.2.pos = s.pos + s.refill.1 := hrpos
  have hrfill : s.refill.2.readBit.2.ifill = s.refill.1 := hrfill
  have hone : s.refill.2.readBit.2.rcur.bits = 1 := by
    show s.refill.2.rcur.next.bits = 1
    rw [Cursor.bits_next, hrcur]
    rfl
  have hbits : s.rcur.bits = 8 * s.ifill := by
    rw [Cursor.bits, hb.rcurBit hused, hused]
    exact Nat.mul_comm _ _
  have hM' : (m + 1) * s.cfg.blockBytes = m * s.cfg.blockBytes + s.cfg.blockBytes := Nat.succ_mul _ _
  simp only [State.taken] at hn
  constructor <;> simp only [hsrc, hcfg, hrpos, hrfill, hone, hM'] <;> omega

/-- A bit read takes one more bit. -/
theorem Taken.nextBit {base j m : Nat} {s t : State} {b : Bool} (h : Taken base j m s) (hb : BufInv s)
    (e : s.nextBit = (some b, t)) : ∃ m', Taken base (j + 1) m' t := by
  rcases State.nextBit_some e with ⟨hused, h0, rfl⟩ | ⟨hused, rfl⟩
  · exact ⟨m + 1, h.refillBit hb hused h0⟩
  · exact ⟨m, h.readBit (lt_of_le_of_ne hb.rcurByte hused)⟩

/-- Where the refills made for the bits taken leave the input. -/
theorem Taken.account {base j m : Nat} {s : State} (h : Taken base j m s) (hb : BufInv s) :
    m = (j + 8 * s.cfg.blockBytes - 1) / (8 * s.cfg.blockBytes) ∧
    s.pos = min (base + m * s.cfg.blockBytes) s.src.length ∧
    s.ifill = s.pos - (base + (m - 1) * s.cfg.blockBytes) ∧
    s.rcur.bits = j - (m - 1) * (8 * s.cfg.blockBytes) := by
  have hblock := hb.block
  have henough := h.enough
  have hneeded := h.needed
  have hmul : m * (8 * s.cfg.blockBytes) = 8 * (m * s.cfg.blockBytes) := by ring
  have hmul' : (m + 1) * (8 * s.cfg.blockBytes) = 8 * (m * s.cfg.blockBytes) + 8 * s.cfg.blockBytes := by ring
  have hsub : (m - 1) * s.cfg.blockBytes = m * s.cfg.blockBytes - s.cfg.blockBytes := by
    rw [Nat.sub_mul, Nat.one_mul]
  have hsub' : (m - 1) * (8 * s.cfg.blockBytes) = 8 * ((m - 1) * s.cfg.blockBytes) := by ring
  rw [hsub', hsub]
  exact ⟨(Nat.div_eq_of_lt_le (by omega) (by omega)).symm, h.pos, h.ifill, h.rcur⟩

/-! ### The payload loop -/

/-- The bits `p` that DecodePayload's loop takes, `m` bytes before its end: they walk to what it writes, no part of them does,
and if they end before, so does the input (R285, R286). -/
structure Payload (base j n m : Nat) (p : List Bool) (s t : State) : Prop where
  taken : s.inBits = p ++ t.inBits
  least : ∀ q, q <+: p → q ≠ p → (decodeBits s.node n m q).length < m
  atMost : (decodeBits s.node n m p).length ≤ m
  buf : BufInv t
  ended : (decodeBits s.node n m p).length < m →
    t.inBits = [] ∧ t.ifill = 0 ∧ t.rcur = ⟨0, 0⟩ ∧ t.pos = s.src.length
  refills : (decodeBits s.node n m p).length = m → ∃ k, Taken base (j + p.length) k t

theorem ne_of_cons_ne {α : Type} {a : α} {p q : List α} (h : a :: q ≠ a :: p) : q ≠ p := fun e => h (by rw [e])

/-- One bit taken in front of the others. -/
theorem Payload.cons {base j n n' m m' : Nat} {b : Bool} {p : List Bool} {s t u : State} (hin : s.inBits = b :: t.inBits)
    (hsrc : t.src = s.src) (hm : m ≠ 0)
    (hlen : ∀ q, m' - (decodeBits t.node n' m' q).length = m - (decodeBits s.node n m (b :: q)).length ∧
      ((decodeBits t.node n' m' q).length ≤ m' ↔ (decodeBits s.node n m (b :: q)).length ≤ m))
    (h : Payload base (j + 1) n' m' p t u) : Payload base j n m (b :: p) s u where
  taken := by rw [hin, h.taken, List.cons_append]
  least q hq hne := by
    cases q with
    | nil => exact Nat.pos_of_ne_zero hm
    | cons c q =>
      obtain ⟨rfl, hqp⟩ := List.cons_prefix_cons.mp hq
      have h1 := h.least q hqp (ne_of_cons_ne hne)
      have h2 := (hlen q).1
      omega
  atMost := (hlen p).2.mp h.atMost
  buf := h.buf
  ended hlt := by
    rw [← hsrc]
    exact h.ended (by have h1 := (hlen p).1; omega)
  refills heq := by
    have h1 := hlen p
    have h2 := h.atMost
    obtain ⟨k, hk⟩ := h.refills (by omega)
    rw [Nat.add_right_comm] at hk
    exact ⟨k, hk⟩

/-- DecodePayload's loop, `m` bytes before its end, takes just the bits it needs (R285, R286). -/
theorem payloadLoop_takes (base len k : Nat) : ∀ (count m n j : Nat) (s : State), count + m = len → BufInv s →
    s.pos ≤ s.src.length → s.inBits.length < k → (∃ i, Taken base j i s) →
    ∃ p t, payloadLoop len k count n s = (count + (decodeBits s.node n m p).length, t) ∧
      Payload base j n m p s t ∧
      t = { s with
        ibuf := t.ibuf, ifill := t.ifill, rcur := t.rcur, pos := t.pos, snk := s.snk ++ decodeBits s.node n m p
        trace := t.trace, status := t.status } := by
  induction k with
  | zero => exact fun _ _ _ _ _ _ _ _ h => absurd h (Nat.not_lt_zero _)
  | succ k ih =>
    intro count m n j s hm hb hp hk htaken
    cases m with
    | zero =>
      refine ⟨[], s, ?_, ⟨rfl, fun q hq hne => absurd (List.prefix_nil.mp hq) hne, le_rfl, hb, nofun, fun _ => htaken⟩,
        by simp [decodeBits]⟩
      rw [payloadLoop, if_neg (by omega)]
      rfl
    | succ m =>
      rw [payloadLoop, if_pos (by omega : count < len)]
      rcases s.nextBit_cases hb hp with ⟨b, t, hbit, hin, hb', hp', hframe⟩ | ⟨t, hbit, hin, hnil, hframe⟩
      · have hnode : t.node = s.node := by rw [hframe]
        have hsrc : t.src = s.src := by rw [hframe]
        have hsnk : t.snk = s.snk := by rw [hframe]
        have hchild : t.child n b = childOf s.node n b := by
          rw [← hnode]
          rfl
        obtain ⟨i, hi⟩ := htaken
        obtain ⟨i', hi'⟩ := hi.nextBit hb hbit
        rw [hin, List.length_cons] at hk
        rw [hbit]
        by_cases hleaf : childOf s.node n b < nSym
        · have hdec : ∀ q, decodeBits s.node n (m + 1) (b :: q) =
              BitVec.ofNat 8 (childOf s.node n b) :: decodeBits s.node root m q := fun q => decodeBits_leaf m q hleaf
          obtain ⟨p, u, e, hpay, hu⟩ := ih (count + 1) m root (j + 1) (t.snkWrite (BitVec.ofNat 8 (t.child n b)))
            (by omega) { hb' with } hp' (Nat.lt_of_succ_lt_succ hk) ⟨i', hi'.congr rfl rfl rfl rfl rfl⟩
          refine ⟨b :: p, u, ?_, hpay.cons (s := s) (t := t.snkWrite _) hin hsrc (Nat.succ_ne_zero m) fun q => ?_, ?_⟩
          · refine (if_pos (hchild.symm ▸ hleaf)).trans (e.trans ?_)
            rw [hdec, List.length_cons, State.snkWrite_node, hnode]
            exact congrArg (·, u) (by omega)
          · rw [hdec, List.length_cons, State.snkWrite_node, hnode]
            omega
          · rw [hdec, hu, State.snkWrite_node, State.snkWrite_snk, hchild, hnode, hsnk, State.snkWrite, hframe]
            simp
        · have hdec : ∀ q, decodeBits s.node n (m + 1) (b :: q) = decodeBits s.node (childOf s.node n b) (m + 1) q :=
            fun q => decodeBits_inner m q hleaf
          obtain ⟨p, u, e, hpay, hu⟩ := ih count (m + 1) (t.child n b) (j + 1) t hm hb' hp' (Nat.lt_of_succ_lt_succ hk)
            ⟨i', hi'⟩
          refine ⟨b :: p, u, ?_, hpay.cons (s := s) hin hsrc (Nat.succ_ne_zero m) fun q => ?_, ?_⟩
          · refine (if_neg (hchild.symm ▸ hleaf)).trans (e.trans ?_)
            rw [hdec, hchild, hnode]
          · rw [hdec, hchild, hnode]
            exact ⟨rfl, Iff.rfl⟩
          · rw [hdec, hu, hchild, hnode, hsnk, hframe]
      · rw [hbit]
        refine ⟨[], t.markTrunc, rfl, ⟨hin.trans hnil.symm, fun q hq hne => absurd (List.prefix_nil.mp hq) hne,
          Nat.zero_le _, ?_, fun _ => ⟨hnil, by rw [hframe]; exact ⟨rfl, rfl, rfl⟩⟩, fun h => ?_⟩, ?_⟩
        · have := hb.nextBit
          rw [hbit] at this
          exact { this with }
        · cases h
        · rw [State.markTrunc, hframe]
          simp [decodeBits]

/-- DECODE of a source with a good header comes to its payload loop (R280 to R283). -/
theorem State.decode_of_headOk {s : State} (hb : BufInv s) (h : headOk s.cfg.magic s.src) :
    ∃ t, s.decode = .ok (resOfNat (payloadLoop (archiveLength s.src) t.rounds 0 root t).1)
        (payloadLoop (archiveLength s.src) t.rounds 0 root t).2 ∧
      BufInv t ∧ t.inBits = bytesBits (s.src.drop 1032) ∧ Taken 1032 0 0 t ∧
      t = { s with
        node := archiveArena s.src, total := BitVec.ofNat 64 (archiveLength s.src), ifill := 0, rcur := ⟨0, 0⟩, pos := 1032
        trace := t.trace, status := { s.status with tree := true, built := false, codes := false } } := by
  obtain ⟨hmagic, h1032, hok⟩ := h
  obtain ⟨h4, hdecode⟩ := State.decode_of_magic hmagic
  rcases State.loadTree_cases (s := s.decodeStart.skip 4) rfl h4 with ⟨t, e, -, -, ht⟩ | ⟨x, t, m, -, hf, ht⟩
  · have htotal : t.total.toNat = archiveLength s.src := by
      have hlength : t.total = BitVec.ofNat 64 (archiveLength s.src) := by rw [ht]; rfl
      rw [hlength, BitVec.toNat_ofNat, Nat.mod_eq_of_lt (archiveLength_lt s.src)]
    rw [e, Flow.bind_ok, htotal] at hdecode
    refine ⟨t, hdecode, ?_, ?_, ?_, ht⟩ <;> rw [ht]
    · exact { hb with ifillMax := Nat.zero_le _, rcurByte := le_rfl, rcurBit := fun _ => rfl }
    · exact State.inBits_of_ifill_zero rfl rfl
    · exact .start h1032 hb.block rfl rfl rfl
  · have hm := hf.entry
    have hsrc : t.src = s.src := by rw [ht]; rfl
    have hfails := hf.fails
    rw [hsrc] at hfails
    rcases hfails with ⟨-, -, hno, -⟩ | ⟨-, hshort, -⟩
    · exact absurd (hok m hm) hno
    · omega

/-- Settles O48: behind a good header the loop takes bits until the length is reached or they end, and these walk to the same
bytes as all bits to come. -/
theorem decodeExpandsTheArchive : Obligations.DecodeExpandsTheArchive := by
  intro s hroom hb hhead
  obtain ⟨t, hdecode, hbuf, hin, htaken, ht⟩ := State.decode_of_headOk hb hhead
  have hlt := archiveLength_lt s.src
  generalize archiveLength s.src = len at hdecode ht hlt ⊢
  have hsrc : t.src = s.src := by rw [ht]
  have hposIn : t.pos ≤ t.src.length := by
    have hpos : t.pos = 1032 := by rw [ht]
    rw [hpos]
    exact htaken.inSource
  obtain ⟨u, out, hout, hloop, husnk, hustatus⟩ := payloadLoop_spec len t.rounds 0 len root t (Nat.zero_add _) hbuf hposIn
    t.inBits_length_lt_rounds
  obtain ⟨p, u', hloop', ⟨htake, hleast, hmost, hbufu, hended, hrefills⟩, hu⟩ := payloadLoop_takes 1032 len t.rounds 0 len
    root 0 t (Nat.zero_add _) hbuf hposIn t.inBits_length_lt_rounds ⟨0, htaken⟩
  obtain rfl : u = u' := congrArg Prod.snd (hloop.symm.trans hloop')
  have hp : out = decodeBits t.node root len p := List.append_cancel_left (husnk.symm.trans (congrArg State.snk hu :))
  rw [hloop, Nat.zero_add] at hdecode
  rw [← hp] at hmost hended hrefills hu
  have hexec : exec .decode s = .next { u with res := BitVec.ofNat 64 out.length } := by
    show Host.Outcome.next (s.settle .decode s.decode.close) = _
    rw [State.settle_none _ _ _ hroom, hdecode, Flow.close_ok, resOfNat_eq (by omega)]
  have hnode : t.node = u.node := by rw [hu]
  rw [hin] at hout htake
  rw [hsrc] at hended
  rw [hnode] at hout hp hleast
  refine ⟨_, out, p, hexec, hout, ?_, hmost, { hbufu with }, htake, hp, hleast, hended, fun hlen => ?_⟩
  · rw [hu, hustatus, ht]
  · obtain ⟨m, hm⟩ := hrefills hlen
    rw [Nat.zero_add] at hm
    have hacc := hm.account hbufu
    have hcfg : u.cfg = s.cfg := by rw [hu, ht]
    have husrc : u.src = s.src := by rw [hu, hsrc]
    rw [hcfg, husrc] at hacc
    exact ⟨m, hacc⟩

end Sys2Proof.Machine
end
